-- ==== Sys2Proof/Word.lean ====
section
/-! DEFINITION. The widths of the items the block moves (spec/20_memory.md R60, spec/10_state.md R20),
and the type of an internal memory. -/

namespace Sys2Proof

/-- A register, a color or a canvas pixel: 32 bits, moved whole (20_memory.md R61). -/
abbrev Word := BitVec 32

/-- A byte of the input port, of SUFFIX, STACK or IBUF. -/
abbrev Byte := BitVec 8

/-- An LZW code: at most 12 bits (00_scope.md R7, MAX_CSIZE). -/
abbrev Code := BitVec 12

/-- One internal memory of `w`-bit entries: the entries that are not 0, as (index, entry) pairs with
strictly rising indices. An index that is not listed reads 0, the reset content of every memory
(70_reset_and_hazards.md R230). A memory of 8-bit entries is a list of `Host.Cell`. -/
abbrev Mem (w : Nat) := List (Nat × BitVec w)

end Sys2Proof
end

