-- ==== Sys2Proof/Config.lean ====
section
/-! DEFINITION. What is fixed for one instance of the block: the constants of spec/00_scope.md R7, the OPEN
parameters (a model "takes them as an argument": they stand in State), and the free values. -/

namespace Sys2Proof

/-- The OPEN parameters of 00_scope.md R7 and 92_eei_decisions.md. They stand in State, no step writes
them, and a statement about every state holds for every value of them. -/
structure Params where
  /-- BASE: address of the register port in the host's address space, 4 KiB-aligned (D3). -/
  base : Nat
  /-- MAX_W: largest canvas width, 1..65535 (D46). -/
  maxW : Nat
  /-- MAX_H: largest canvas height, 1..65535 (D46). -/
  maxH : Nat
  /-- NPIX_MAX: capacity of IBUF in entries, at least 1 (D25). -/
  npixMax : Nat
  /-- IRQ_LINE: the host interrupt line that `irq` drives (D30). -/
  irqLine : Nat
  deriving DecidableEq, Repr

/-- The legal values of the OPEN parameters (92_eei_decisions.md, "Open parameters"). -/
abbrev Params.legal (p : Params) : Prop :=
  p.base % 4096 = 0 ∧ 1 ≤ p.maxW ∧ p.maxW ≤ 65535 ∧ 1 ≤ p.maxH ∧ p.maxH ≤ 65535 ∧ 1 ≤ p.npixMax

namespace Config

/-- The instance that `State.reset` stands for. DESIGN CHOICE (log 2): the spec leaves every one of these
OPEN; MAX_W = 4096 and NPIX_MAX = 65536 are the values the test vectors of 95_test_vectors.md name. -/
def params : Params :=
  { base := 0, maxW := 4096, maxH := 4096, npixMax := 65536, irqLine := 0 }

/-- DICT_CAP (00_scope.md R7): dictionary entries, codes 0..4095. -/
abbrev dictCap : Nat := 4096

/-- STACK_CAP (00_scope.md R7): pixel-stack entries. -/
abbrev stackCap : Nat := 4096

/-- The identity word of register ID (10_state.md R44). -/
def idWord : Word := 0x4C5A5701#32

/-- FREE VALUE (log 5): what the `n`-th free read returns when the host reads CBUF_DATA, IBUF_DATA or a
color-table window while BUSY = 1 (20_memory.md R70, 93_implementation_defined.md U1). -/
opaque freeWord : Nat → Word

/-- FREE VALUE (log 8): what the `n`-th free read returns when the host reads an address outside the
register port, which is the platform's (20_memory.md R62). -/
opaque platformWord : Nat → Word

/-- FREE VALUE (log 19): the byte that the reader's endless stream number `stream` has at position `pos`
(93_implementation_defined.md U13). -/
opaque endlessByte (stream pos : Nat) : Byte

end Config

end Sys2Proof
end

