-- ==== Sys2Proof/Syntax.lean ====
section
/-! DEFINITION. The instruction set: one constructor for each row of spec/opcode_table.json. The rows belong to
three encodings (spec/30_encoding.md): the LZW codes of the code stream, the CTRL words of the host, and
the DISPOSE methods. -/

namespace Sys2Proof

/-- One instruction of the block. -/
inductive Instr where
  -- the code classes (30_encoding.md R90)
  /-- BADCODE (40_lzw.md R118): a code above AVAIL. -/
  | badcode (code : Code)
  /-- EOI (40_lzw.md R119): the end-of-information code. -/
  | eoi
  /-- CLEAR (40_lzw.md R120): dictionary and code-size reset. -/
  | clear
  /-- FIRST (40_lzw.md R121): the first code after decode start or after a CLEAR. -/
  | first (code : Code)
  /-- DICTFULL (40_lzw.md R122): an entry-adding code while the dictionary is full. -/
  | dictfull (code : Code)
  /-- KWKWK (40_lzw.md R123): the code that equals the next-to-be-assigned code. -/
  | kwkwk (code : Code)
  /-- LITERAL (40_lzw.md R124): a code below CLEAR after the first code. -/
  | literal (code : Code)
  /-- DICT (40_lzw.md R125): a dictionary code already assigned in this generation. -/
  | dict (code : Code)
  -- the CTRL words (30_encoding.md R91)
  /-- NOP (42_commands.md R181). -/
  | nop
  /-- RESET (42_commands.md R182). -/
  | reset
  /-- CANVAS_INIT (42_commands.md R183). It does not read the DRAIN bit, but R180 latches it from every word that is
  accepted. -/
  | canvasInit (drain : Bool)
  /-- DECODE (42_commands.md R184), with the DRAIN modifier. -/
  | decode (drain : Bool)
  /-- FRAME (42_commands.md R185), with the DRAIN modifier. -/
  | frame (drain : Bool)
  /-- CMD 5..15 (42_commands.md R187): reserved, and completed with BAD_COMMAND. The DRAIN bit is latched (R180) and not
  read. -/
  | reservedCmd5 (drain : Bool)
  | reservedCmd6 (drain : Bool)
  | reservedCmd7 (drain : Bool)
  | reservedCmd8 (drain : Bool)
  | reservedCmd9 (drain : Bool)
  | reservedCmd10 (drain : Bool)
  | reservedCmd11 (drain : Bool)
  | reservedCmd12 (drain : Bool)
  | reservedCmd13 (drain : Bool)
  | reservedCmd14 (drain : Bool)
  | reservedCmd15 (drain : Bool)
  -- the DISPOSE methods (30_encoding.md R86)
  /-- DISPOSE 0, `unspecified` (41_compositor.md R151). -/
  | disposeUnspecified
  /-- DISPOSE 1, `none` (41_compositor.md R151). -/
  | disposeNone
  /-- DISPOSE 2, `background` (41_compositor.md R152). -/
  | disposeBackground
  /-- DISPOSE 3, `previous` (41_compositor.md R154). -/
  | disposePrevious
  /-- DISPOSE 4..7, reserved (41_compositor.md R151); `method` is the whole 3-bit value. -/
  | disposeReserved (method : BitVec 3)
  deriving DecidableEq, Repr

/-- The registers that the class of a code is decided by (30_encoding.md R90), and its width. -/
structure CodeCtx where
  csize : BitVec 4
  clear : BitVec 13
  eoi : BitVec 13
  avail : BitVec 13
  old : Option Code
  deriving DecidableEq, Repr

/-- The three encodings of opcode_table.json (30_encoding.md R80). An LZW code has a meaning only beside the
decoder's registers. -/
inductive Format where
  | ctrl
  | code (ctx : CodeCtx)
  | dispose
  deriving DecidableEq, Repr

end Sys2Proof
end

