-- ==== Sys2Proof/WellFormed.lean ====
section
/-! DEFINITION. Which terms of `Instr` stand for an encoding: alone (`wf`), and in one of the three formats
(`wfIn`), where a code class must meet its condition of spec/30_encoding.md R90 and fit in CSIZE bits. -/

namespace Sys2Proof

/-- The registers stand in the relation that decode start and CLEAR give them: EOI = CLEAR + 1,
CLEAR + 2 ≤ AVAIL ≤ 4096, and a width of 1 to 12 (10_state.md R20). -/
def CodeCtx.legal (ctx : CodeCtx) : Bool :=
  ctx.eoi.toNat == ctx.clear.toNat + 1 && decide (ctx.clear.toNat + 2 ≤ ctx.avail.toNat) &&
  decide (ctx.avail.toNat ≤ Config.dictCap) && decide (1 ≤ ctx.csize.toNat) && decide (ctx.csize.toNat ≤ 12)

/-- The value can be written in CSIZE bits (30_encoding.md R83). -/
def CodeCtx.fits (ctx : CodeCtx) (v : Nat) : Bool :=
  decide (v < 2 ^ ctx.csize.toNat)

/-- A code that is neither above AVAIL nor EOI nor CLEAR: it reached order 4 of 30_encoding.md R90. -/
def CodeCtx.ordinary (ctx : CodeCtx) (code : Code) : Bool :=
  decide (code.toNat ≤ ctx.avail.toNat) && code.toNat != ctx.eoi.toNat && code.toNat != ctx.clear.toNat

/-- The instruction alone: DISPOSE_RESERVED carries a method of 4 to 7 (30_encoding.md R86). -/
def Instr.wf : Instr → Bool
  | .disposeReserved method => decide (4 ≤ method.toNat)
  | .badcode _ | .eoi | .clear | .first _ | .dictfull _ | .kwkwk _ | .literal _ | .dict _ => true
  | .nop | .reset | .canvasInit _ | .decode _ | .frame _ => true
  | .reservedCmd5 _ | .reservedCmd6 _ | .reservedCmd7 _ | .reservedCmd8 _ | .reservedCmd9 _ | .reservedCmd10 _ => true
  | .reservedCmd11 _ | .reservedCmd12 _ | .reservedCmd13 _ | .reservedCmd14 _ | .reservedCmd15 _ => true
  | .disposeUnspecified | .disposeNone | .disposeBackground | .disposePrevious => true

/-- The instruction is a CTRL word (30_encoding.md R91). -/
def Instr.isCtrl : Instr → Bool
  | .nop | .reset | .canvasInit _ | .decode _ | .frame _ => true
  | .reservedCmd5 _ | .reservedCmd6 _ | .reservedCmd7 _ | .reservedCmd8 _ | .reservedCmd9 _ | .reservedCmd10 _ => true
  | .reservedCmd11 _ | .reservedCmd12 _ | .reservedCmd13 _ | .reservedCmd14 _ | .reservedCmd15 _ => true
  | .badcode _ | .eoi | .clear | .first _ | .dictfull _ | .kwkwk _ | .literal _ | .dict _ => false
  | .disposeUnspecified | .disposeNone | .disposeBackground | .disposePrevious | .disposeReserved _ => false

/-- The instruction is a DISPOSE method (30_encoding.md R86). -/
def Instr.isDispose : Instr → Bool
  | .disposeUnspecified | .disposeNone | .disposeBackground | .disposePrevious => true
  | .disposeReserved method => decide (4 ≤ method.toNat)
  | .badcode _ | .eoi | .clear | .first _ | .dictfull _ | .kwkwk _ | .literal _ | .dict _ => false
  | .nop | .reset | .canvasInit _ | .decode _ | .frame _ => false
  | .reservedCmd5 _ | .reservedCmd6 _ | .reservedCmd7 _ | .reservedCmd8 _ | .reservedCmd9 _ | .reservedCmd10 _ => false
  | .reservedCmd11 _ | .reservedCmd12 _ | .reservedCmd13 _ | .reservedCmd14 _ | .reservedCmd15 _ => false

/-- The instruction is the class that 30_encoding.md R90 gives its code beside these registers. -/
def Instr.isCode (ctx : CodeCtx) : Instr → Bool
  | .badcode c => ctx.fits c.toNat && decide (ctx.avail.toNat < c.toNat)
  | .eoi => ctx.fits ctx.eoi.toNat
  | .clear => ctx.fits ctx.clear.toNat
  | .first c => ctx.fits c.toNat && ctx.ordinary c && ctx.old.isNone
  | .dictfull c => ctx.fits c.toNat && ctx.ordinary c && ctx.old.isSome && ctx.avail.toNat == Config.dictCap
  | .kwkwk c =>
    ctx.fits c.toNat && ctx.old.isSome && decide (ctx.avail.toNat < Config.dictCap) && c.toNat == ctx.avail.toNat
  | .literal c =>
    ctx.fits c.toNat && ctx.old.isSome && decide (ctx.avail.toNat < Config.dictCap) && decide (c.toNat < ctx.clear.toNat)
  | .dict c =>
    ctx.fits c.toNat && ctx.old.isSome && decide (ctx.avail.toNat < Config.dictCap) &&
    decide (ctx.clear.toNat + 2 ≤ c.toNat) && decide (c.toNat < ctx.avail.toNat)
  | .nop | .reset | .canvasInit _ | .decode _ | .frame _ => false
  | .reservedCmd5 _ | .reservedCmd6 _ | .reservedCmd7 _ | .reservedCmd8 _ | .reservedCmd9 _ | .reservedCmd10 _ => false
  | .reservedCmd11 _ | .reservedCmd12 _ | .reservedCmd13 _ | .reservedCmd14 _ | .reservedCmd15 _ => false
  | .disposeUnspecified | .disposeNone | .disposeBackground | .disposePrevious | .disposeReserved _ => false

/-- The instruction is well formed in the format. -/
def Instr.wfIn (i : Instr) : Format → Bool
  | .ctrl => i.isCtrl
  | .code ctx => ctx.legal && i.isCode ctx
  | .dispose => i.isDispose

end Sys2Proof
end

