-- ==== Sys2Proof/Decode.lean ====
section
/-! DEFINITION. The decoder of the three encodings (spec/30_encoding.md), total on any bits, and after it the
encoder written from the same tables. -/

namespace Sys2Proof

/-! ### Decoding -/

/-- The CTRL word (30_encoding.md R91, 10_state.md R24): CMD is bits [3:0], DRAIN bit [4], bits [31:5] are
ignored. Every value of CMD has a command. -/
def decodeCtrl (w : Word) : Instr :=
  let drain := w.getLsbD 4
  match w.toNat % 16 with
  | 0 => .nop
  | 1 => .reset
  | 2 => .canvasInit drain
  | 3 => .decode drain
  | 4 => .frame drain
  | 5 => .reservedCmd5 drain
  | 6 => .reservedCmd6 drain
  | 7 => .reservedCmd7 drain
  | 8 => .reservedCmd8 drain
  | 9 => .reservedCmd9 drain
  | 10 => .reservedCmd10 drain
  | 11 => .reservedCmd11 drain
  | 12 => .reservedCmd12 drain
  | 13 => .reservedCmd13 drain
  | 14 => .reservedCmd14 drain
  | _ => .reservedCmd15 drain

/-- The class of a code beside the decoder's registers: the first condition of 30_encoding.md R90 that holds
(40_lzw.md R115). The classes are exhaustive, so no code is left without one. -/
def classify (ctx : CodeCtx) (code : Code) : Instr :=
  if ctx.avail.toNat < code.toNat then .badcode code
  else if code.toNat = ctx.eoi.toNat then .eoi
  else if code.toNat = ctx.clear.toNat then .clear
  else if ctx.old.isNone then .first code
  else if ctx.avail.toNat = Config.dictCap then .dictfull code
  else if code.toNat = ctx.avail.toNat then .kwkwk code
  else if code.toNat < ctx.clear.toNat then .literal code
  else .dict code

/-- The DISPOSE method (30_encoding.md R86): 4 to 7 are reserved. -/
def decodeMethod (m : BitVec 3) : Instr :=
  match m.toNat with
  | 0 => .disposeUnspecified
  | 1 => .disposeNone
  | 2 => .disposeBackground
  | 3 => .disposePrevious
  | _ => .disposeReserved m

/-- Why bits are not an encoding of the format. -/
inductive Reject where
  /-- More than CSIZE (or 12) bits: no code has them (30_encoding.md R83). -/
  | codeTooWide
  /-- More than the 3 bits of DISPOSE (30_encoding.md R80). -/
  | methodTooWide
  deriving DecidableEq, Repr

/-- The decoder: any 32 bits, in any format, give an instruction or a rejection by name. -/
def decode (f : Format) (bits : Word) : Except Reject Instr :=
  match f with
  | .ctrl => .ok (decodeCtrl bits)
  | .code ctx =>
    if ctx.fits bits.toNat && decide (bits.toNat < 4096) then .ok (classify ctx (bits.setWidth 12))
    else .error .codeTooWide
  | .dispose => if bits.toNat < 8 then .ok (decodeMethod (bits.setWidth 3)) else .error .methodTooWide

/-- The instruction read from a word numbered as opcode_table.json numbers its rows. The only word the block is given
from outside is the CTRL word (log 10): an LZW code is read from the bit buffer beside the decoder's
registers, and a DISPOSE method from LAST_CTRL, so neither can be read from a bare word. -/
def decodeTableWord (nbits w : Nat) : Option Instr :=
  if nbits ≤ 32 then (decode .ctrl (BitVec.ofNat 32 (w % 2 ^ nbits))).toOption else none

/-! ### Encoding -/

/-- A CTRL word with the command `cmd` and the DRAIN modifier; the ignored bits are 0 (30_encoding.md R91). -/
def ctrlWord (cmd : BitVec 4) (drain : Bool) : Word :=
  (BitVec.ofBool drain ++ cmd).setWidth 32

/-- The CTRL word of a command (0 for an instruction that is none). -/
def encodeCtrl : Instr → Word
  | .nop => ctrlWord 0 false
  | .reset => ctrlWord 1 false
  | .canvasInit drain => ctrlWord 2 drain
  | .decode drain => ctrlWord 3 drain
  | .frame drain => ctrlWord 4 drain
  | .reservedCmd5 drain => ctrlWord 5 drain
  | .reservedCmd6 drain => ctrlWord 6 drain
  | .reservedCmd7 drain => ctrlWord 7 drain
  | .reservedCmd8 drain => ctrlWord 8 drain
  | .reservedCmd9 drain => ctrlWord 9 drain
  | .reservedCmd10 drain => ctrlWord 10 drain
  | .reservedCmd11 drain => ctrlWord 11 drain
  | .reservedCmd12 drain => ctrlWord 12 drain
  | .reservedCmd13 drain => ctrlWord 13 drain
  | .reservedCmd14 drain => ctrlWord 14 drain
  | .reservedCmd15 drain => ctrlWord 15 drain
  | .badcode _ | .eoi | .clear | .first _ | .dictfull _ | .kwkwk _ | .literal _ | .dict _ => 0
  | .disposeUnspecified | .disposeNone | .disposeBackground | .disposePrevious | .disposeReserved _ => 0

/-- The code of a class, an unsigned number of CSIZE bits (30_encoding.md R83); 0 for an instruction that is no
code. -/
def encodeCode (ctx : CodeCtx) : Instr → Word
  | .badcode c => c.setWidth 32
  | .eoi => ctx.eoi.setWidth 32
  | .clear => ctx.clear.setWidth 32
  | .first c => c.setWidth 32
  | .dictfull c => c.setWidth 32
  | .kwkwk c => c.setWidth 32
  | .literal c => c.setWidth 32
  | .dict c => c.setWidth 32
  | .nop | .reset | .canvasInit _ | .decode _ | .frame _ => 0
  | .reservedCmd5 _ | .reservedCmd6 _ | .reservedCmd7 _ | .reservedCmd8 _ | .reservedCmd9 _ | .reservedCmd10 _ => 0
  | .reservedCmd11 _ | .reservedCmd12 _ | .reservedCmd13 _ | .reservedCmd14 _ | .reservedCmd15 _ => 0
  | .disposeUnspecified | .disposeNone | .disposeBackground | .disposePrevious | .disposeReserved _ => 0

/-- The 3-bit value of a disposal method (30_encoding.md R86); 0 for an instruction that is none. -/
def encodeMethod : Instr → Word
  | .disposeUnspecified => 0
  | .disposeNone => 1
  | .disposeBackground => 2
  | .disposePrevious => 3
  | .disposeReserved m => m.setWidth 32
  | .badcode _ | .eoi | .clear | .first _ | .dictfull _ | .kwkwk _ | .literal _ | .dict _ => 0
  | .nop | .reset | .canvasInit _ | .decode _ | .frame _ => 0
  | .reservedCmd5 _ | .reservedCmd6 _ | .reservedCmd7 _ | .reservedCmd8 _ | .reservedCmd9 _ | .reservedCmd10 _ => 0
  | .reservedCmd11 _ | .reservedCmd12 _ | .reservedCmd13 _ | .reservedCmd14 _ | .reservedCmd15 _ => 0

/-- The encoder: the bits of an instruction that is well formed in the format. -/
def encode : Format → Instr → Word
  | .ctrl, i => encodeCtrl i
  | .code ctx, i => encodeCode ctx i
  | .dispose, i => encodeMethod i

end Sys2Proof
end

