-- ==== Sys2Proof/Machine/State.lean ====
section
/-! DEFINITION. The state of the block as plain data (INVENTORY.md, "State"), with what stands beside it in a run:
the byte input port, the host's program and the turns; the reasons a step can stop; and the state
after power-on (spec/70_reset_and_hazards.md R230). -/

namespace Sys2Proof.Machine

/-- PHASE (10_state.md R22). -/
inductive Phase where
  | idle | check | init | dispose | decode | zerofill | drain | place | commit
  deriving DecidableEq, Repr

/-- STATUS.TERM, why the last decode phase stopped (30_encoding.md R95). The values 8..14 are never produced. -/
inductive Term where
  | count | eoi | dataEnd | badCode | dictFull | stackFull | truncated | badMcs | none
  deriving DecidableEq, Repr

/-- STATUS.ECODE, the error of the last command (60_exceptions.md R201). The values 8..15 are never produced. -/
inductive Ecode where
  | none | lzwFormat | drainTrunc | missingCt | frameTooLarge | noCanvas | badCanvasSize | badCommand
  deriving DecidableEq, Repr

/-- The stored fields of STATUS (10_state.md R25). BUSY is not stored: it is PHASE ≠ IDLE (R28). -/
structure Status where
  done : Bool
  err : Bool
  bwerr : Bool
  term : Term
  ecode : Ecode
  canvasValid : Bool
  dtrunc : Bool
  deriving DecidableEq, Repr

/-- A register of two 16-bit fields: `x` is bits [15:0], `y` is bits [31:16] (10_state.md R30, R33, R35, R39). -/
structure XY where
  x : BitVec 16
  y : BitVec 16
  deriving DecidableEq, Repr

/-- FRAME_CTRL (10_state.md R34). -/
structure FrameCtrl where
  dispose : BitVec 3
  transp : Bool
  interlace : Bool
  lctPresent : Bool
  tidx : Byte
  deriving DecidableEq, Repr

/-- The decoder's working registers (10_state.md R20), each under its own name. `old = none` is NULL. -/
structure Decoder where
  mcs : BitVec 4
  clear : BitVec 13
  eoi : BitVec 13
  csize : BitVec 4
  cmask : BitVec 12
  avail : BitVec 13
  old : Option Code
  first : Byte
  incode : Code
  datum : BitVec 20
  bits : BitVec 5
  sbcnt : BitVec 8
  chainEnd : Bool
  top : BitVec 13
  pi : Word
  npix : Word
  deriving DecidableEq, Repr

/-- Who moves in a step (42_commands.md R188: the order is not fixed). -/
inductive Agent where
  | host | block
  deriving DecidableEq, Repr

/-- What the byte input port does past the bytes the reader holds. DESIGN CHOICE (log 19): 20_memory.md R60 calls the port an
unbounded sequence and gives no form for one, so an endless input (93_implementation_defined.md U13) is a cycle of
bytes or a free stream. -/
inductive PortEnd where
  /-- It reports the sticky error, `Err` (20_memory.md R64). -/
  | err
  /-- It does not answer (93_implementation_defined.md U12). -/
  | silent
  /-- It answers the bytes `first :: rest` over and over, for ever. -/
  | cycle (first : Byte) (rest : List Byte)
  /-- It answers the free values of endless stream number `stream` for ever (`Config.endlessByte`). -/
  | free (stream : Nat)
  deriving DecidableEq, Repr

/-- The byte input port (20_memory.md R64): the reader's bytes, the read position, and what follows the bytes. -/
structure InPort where
  buf : List Byte
  pos : Nat
  atEnd : PortEnd
  deriving DecidableEq, Repr

/-- One operation of the host program (30_encoding.md R97): the two accesses of the register port, the poll loop
`WAIT`, and the two ways to position the reader (20_memory.md R64). -/
inductive HostOp where
  | write (addr : Nat) (v : Word)
  | read (addr : Nat)
  | wait
  | stream (bytes : List Byte) (atEnd : PortEnd)
  | seek (pos : Nat)
  deriving DecidableEq, Repr

/-- What stands beside the block in a run. `reads` (the values the host's reads returned, newest first), `sched` (the
turns still prescribed) and `draws` (how many free values have been drawn) are the model's own (logs 3, 5). -/
structure Env where
  queue : List HostOp
  reads : List Word
  sched : List Agent
  port : InPort
  draws : Nat
  deriving DecidableEq, Repr

/-- The whole state. -/
structure State where
  /-- The OPEN parameters (00_scope.md R7); no step writes them. -/
  par : Params
  env : Env
  phase : Phase
  /-- CMDL and DRAINL (42_commands.md R180). -/
  cmdl : BitVec 4
  drainl : Bool
  /-- The model's own: decode start (40_lzw.md R111) has run in this DECODE phase (log 6). -/
  started : Bool
  /-- The model's own: bytes left in the "repeat n times" loop of 40_lzw.md R129 (log 7). -/
  drainLeft : BitVec 8
  status : Status
  /-- IRQEN.DONE_IE (10_state.md R29). -/
  doneIe : Bool
  canvasSize : XY
  bgcolor : Word
  /-- GCFG.GCT_PRESENT (10_state.md R32). -/
  gctPresent : Bool
  framePos : XY
  frameSize : XY
  frameCtrl : FrameCtrl
  lastPos : XY
  lastSize : XY
  lastDispose : BitVec 3
  lastValid : Bool
  pixCount : Word
  bytesIn : Word
  frameCount : Word
  activeSize : XY
  /-- CBUF_SEL.BUF (10_state.md R41). -/
  cbufSel : BitVec 2
  cbufIdx : Word
  ibufIdx : Word
  dec : Decoder
  prefixMem : Mem 12
  suffixMem : Mem 8
  stack : Mem 8
  ibuf : Mem 8
  gct : Mem 32
  lct : Mem 32
  cur : Mem 32
  prev : Mem 32
  scr : Mem 32
  deriving DecidableEq, Repr

/-- Why the machine could stop. The spec gives the block no fault ("No row of this table is a `fault`",
93_implementation_defined.md), and `step` never answers one. -/
inductive Fault where
  /-- Raised by the meanings of KWKWK, LITERAL and DICT in a state with OLD = NULL, where 30_encoding.md R90 never selects
  them (the code would be FIRST). `step` selects by R90, so it never raises this. Safe: a stop where the spec gives
  the class no effect. -/
  | noPreviousCode
  deriving DecidableEq, Repr

/-- Why an instruction has no meaning. -/
inductive Refusal where
  /-- Raised by `exec` for an instruction that has no meaning yet. No instruction is left without one. Safe. -/
  | notModelled (mnemonic : String)
  deriving DecidableEq, Repr

/-- What a step or an instruction answers. -/
abbrev Result := Host.Outcome State Fault Refusal

/-- Every decoder register after reset (10_state.md R20). -/
def Decoder.reset : Decoder :=
  { mcs := 0, clear := 0, eoi := 0, csize := 0, cmask := 0, avail := 0, old := none, first := 0, incode := 0,
    datum := 0, bits := 0, sbcnt := 0, chainEnd := false, top := 0, pi := 0, npix := 0 }

/-- STATUS after reset: 0x000000F0 (10_state.md R25). -/
def Status.reset : Status :=
  { done := false, err := false, bwerr := false, term := .none, ecode := .none, canvasValid := false,
    dtrunc := false }

/-- Power-on (70_reset_and_hazards.md R230): IDLE, every register and memory at its reset value. The canvases are 0
(R231 allows any content; log 1), the parameters are `Config.params` (log 2), and nothing waits outside the block
(logs 3, 4, 5): no program, no bytes, a port that answers `Err`. -/
def State.reset : State :=
  { par := Config.params
    env := { queue := [], reads := [], sched := [], port := { buf := [], pos := 0, atEnd := .err }, draws := 0 }
    phase := .idle, cmdl := 0, drainl := false, started := false, drainLeft := 0
    status := Status.reset
    doneIe := false, canvasSize := ⟨0, 0⟩, bgcolor := 0, gctPresent := false
    framePos := ⟨0, 0⟩, frameSize := ⟨0, 0⟩, frameCtrl := ⟨0, false, false, false, 0⟩
    lastPos := ⟨0, 0⟩, lastSize := ⟨0, 0⟩, lastDispose := 0, lastValid := false
    pixCount := 0, bytesIn := 0, frameCount := 0, activeSize := ⟨0, 0⟩
    cbufSel := 0, cbufIdx := 0, ibufIdx := 0
    dec := Decoder.reset
    prefixMem := [], suffixMem := [], stack := [], ibuf := [], gct := [], lct := [], cur := [], prev := [], scr := [] }

end Sys2Proof.Machine
end

