-- ==== Sys2Proof/Machine/Ops.lean ====
section
/-! DEFINITION. The shared operations: the internal memories, the byte input port, the pixel stack, starting and
completing a command, and the block's only analogue of an exception: `raiseError` with `complete`
(spec/60_exceptions.md R200, R204), and the host's return from it (R205). -/

namespace Sys2Proof.Machine

/-! ### The internal memories -/

/-- Entry `i`; 0 where nothing is listed. -/
def readMem {w : Nat} : Mem w → Nat → BitVec w
  | [], _ => 0
  | (b, x) :: m, i => if i = b then x else readMem m i

/-- `M[i] <- v`. The canonical form is kept: writing 0 takes the entry out. -/
def writeMem {w : Nat} : Mem w → Nat → BitVec w → Mem w
  | [], i, v => if v = 0 then [] else [(i, v)]
  | (b, x) :: m, i, v =>
    if i < b then (if v = 0 then (b, x) :: m else (i, v) :: (b, x) :: m)
    else if i = b then (if v = 0 then m else (i, v) :: m)
    else (b, x) :: writeMem m i v

/-- The canonical form of a memory: indices strictly rising, and no listed entry 0. -/
abbrev memWf {w : Nat} (m : Mem w) : Prop :=
  m.Pairwise (fun a b => a.1 < b.1) ∧ ∀ c ∈ m, c.2 ≠ 0

/-- Every listed entry has an index below `n`: the memory has `n` entries. -/
abbrev memBelow {w : Nat} (n : Nat) (m : Mem w) : Prop :=
  ∀ c ∈ m, c.1 < n

/-- `for i in 0..n-1: dst[i] <- src[i]`. -/
def copyBelow {w : Nat} (n : Nat) (src dst : Mem w) : Mem w :=
  src.filter (fun c => c.1 < n) ++ dst.filter (fun c => n ≤ c.1)

/-- `for i in lo..hi-1: m[i] <- 0`. -/
def clearRange {w : Nat} (lo hi : Nat) (m : Mem w) : Mem w :=
  m.filter (fun c => c.1 < lo || hi ≤ c.1)

/-- `for i in 0..n-1: m[i] <- f i`. -/
def setBelow {w : Nat} (n : Nat) (f : Nat → BitVec w) (m : Mem w) : Mem w :=
  ((List.range n).filter (fun i => f i ≠ 0)).map (fun i => (i, f i)) ++ m.filter (fun c => n ≤ c.1)

/-- `for j in 0..n-1: m[base + j] <- v`. -/
def fillRow {w : Nat} (base : Nat) (v : BitVec w) : Nat → Mem w → Mem w
  | 0, m => m
  | n + 1, m => writeMem (fillRow base v n m) (base + n) v

/-- `for j in 0..n-1: if f j != 0 then m[base + j] <- f j`: a row whose zero pixels are skipped (41_compositor.md R160). -/
def drawRow {w : Nat} (base : Nat) (f : Nat → BitVec w) : Nat → Mem w → Mem w
  | 0, m => m
  | n + 1, m => if f n = 0 then drawRow base f n m else writeMem (drawRow base f n m) (base + n) (f n)

/-! ### BUSY and the phases -/

/-- STATUS.BUSY (10_state.md R28): 1 exactly while PHASE is not IDLE. -/
def State.busy (s : State) : Bool :=
  s.phase != .idle

/-- `PHASE <- p`. -/
def State.toPhase (p : Phase) (s : State) : State :=
  { s with phase := p }

/-- Entering the DECODE phase: its first step will be the decode start (40_lzw.md R111). -/
def State.toDecode (s : State) : State :=
  { s with phase := .decode, started := false }

/-- STATUS.BWERR <- 1: a write reached the block while BUSY and was ignored (20_memory.md R69). -/
def State.setBwerr (s : State) : State :=
  { s with status := { s.status with bwerr := true } }

/-! ### Starting a command -/

/-- The clear-on-start of 10_state.md R26. -/
def State.clearOnStart (s : State) : State :=
  { s with
    status := { s.status with done := false, err := false, term := .none, ecode := .none, dtrunc := false }
    pixCount := 0, bytesIn := 0 }

/-- 42_commands.md R180, case 4: the command and its DRAIN modifier are latched, R26 is applied, and PHASE becomes
CHECK. -/
def State.accept (cmd : BitVec 4) (drain : Bool) (s : State) : State :=
  { s.clearOnStart with cmdl := cmd, drainl := drain, phase := .check }

/-- 42_commands.md R180, cases 2 and 4: a CTRL write of a command other than RESET and NOP. -/
def State.request (cmd : BitVec 4) (drain : Bool) (s : State) : State :=
  if s.busy then s.setBwerr else s.accept cmd drain

/-! ### Completion, and an error at CHECK -/

/-- Completion (60_exceptions.md R204): DONE <- 1, ERR says whether ECODE is an error, PHASE <- IDLE. -/
def State.complete (s : State) : State :=
  { s with
    status := { s.status with done := true, err := s.status.ecode != .none }
    phase := .idle }

/-- Taking an error at CHECK, the block's analogue of an exception (60_exceptions.md R200): ECODE <- code, the
remaining phases are skipped, and the same step performs completion. Nothing but STATUS and PHASE changes. -/
def State.raiseError (code : Ecode) (s : State) : State :=
  State.complete { s with status := { s.status with ecode := code } }

/-- The return from it (60_exceptions.md R205, 10_state.md R25): a write to STATUS clears DONE, ERR and BWERR where the
written bit is 1, and changes nothing else. -/
def State.w1cStatus (v : Word) (s : State) : State :=
  { s with
    status := { s.status with
      done := s.status.done && !v.getLsbD 1
      err := s.status.err && !v.getLsbD 2
      bwerr := s.status.bwerr && !v.getLsbD 3 } }

/-- The state RESET leaves (42_commands.md R182, 70_reset_and_hazards.md R230): everything at its power-on value but
the parameters of the instance and what stands outside the block, which reset does not touch. -/
def State.afterReset (s : State) : State :=
  { State.reset with par := s.par, env := s.env }

/-! ### The byte input port -/

/-- An answer to `InByte()` (00_scope.md R11), or no answer yet. -/
inductive InAnswer where
  | byte (b : Byte)
  | err
  | waiting
  deriving DecidableEq, Repr

/-- What the port answers at its read position. -/
def InPort.answer (p : InPort) : InAnswer :=
  match p.buf[p.pos]? with
  | some b => .byte b
  | none => match p.atEnd with
    | .err => .err
    | .silent => .waiting
    | .cycle first rest => .byte ((first :: rest).getD ((p.pos - p.buf.length) % (rest.length + 1)) first)
    | .free stream => .byte (Config.endlessByte stream p.pos)

/-- A `Byte` answer consumes the byte (20_memory.md R66) and is counted in BYTES_IN (10_state.md R37). -/
def State.consumeByte (s : State) : State :=
  { s with
    env := { s.env with port := { s.env.port with pos := s.env.port.pos + 1 } }
    bytesIn := s.bytesIn + 1 }

/-! ### Stopping the decode phase, and the pixel stack -/

/-- The causes that are errors (40_lzw.md R112, 30_encoding.md R95). -/
def Term.isError : Term → Bool
  | .badCode | .dictFull | .stackFull | .truncated | .badMcs => true
  | .count | .eoi | .dataEnd | .none => false

/-- `stop(cause)` (40_lzw.md R112): TERM and PIX_COUNT are recorded, ECODE too if the cause is an error and none is
recorded yet, and PHASE moves to ZEROFILL. -/
def State.stop (cause : Term) (s : State) : State :=
  { s with
    status := { s.status with
      term := cause
      ecode := if cause.isError && s.status.ecode == .none then .lzwFormat else s.status.ecode }
    pixCount := s.dec.pi
    phase := .zerofill }

/-- `CHAIN_END <- 1; stop(cause)` (40_lzw.md R111, R114). -/
def State.stopChain (cause : Term) (s : State) : State :=
  State.stop cause { s with dec := { s.dec with chainEnd := true } }

/-- `STACK[TOP] <- v; TOP <- TOP + 1`. -/
def State.pushRaw (v : Byte) (s : State) : State :=
  { s with
    stack := writeMem s.stack s.dec.top.toNat v
    dec := { s.dec with top := s.dec.top + 1 } }

/-- `push(v)` (40_lzw.md R117): the capacity test comes before the write. `error` is the stopped state, and the rest of
the code is then abandoned. TOP never exceeds 4096 (10_state.md R20), so "not below 4096" is "equal to 4096". -/
def State.push (v : Byte) (s : State) : Except State State :=
  if s.dec.top.toNat < Config.stackCap then
    .ok (s.pushRaw v)
  else .error (s.stop .stackFull)

/-- POP (40_lzw.md R116): one byte moves from the stack to IBUF[PI]. -/
def State.pop (s : State) : State :=
  { s with
    ibuf := writeMem s.ibuf s.dec.pi.toNat (readMem s.stack (s.dec.top - 1).toNat)
    dec := { s.dec with top := s.dec.top - 1, pi := s.dec.pi + 1 } }

/-- A stopped state is a next state like any other: the step goes on with the phases. -/
def settle : Except State State → Result
  | .ok s => .next s
  | .error s => .next s

end Sys2Proof.Machine
end

