-- ==== Sys2Proof/Machine/Flags.lean ====
section
/-! DEFINITION. STATUS as the host reads it, and the interrupt output (spec/10_state.md R25, R29, R40;
spec/60_exceptions.md R210). -/

namespace Sys2Proof.Machine

/-- The value of TERM (30_encoding.md R95). -/
def Term.code : Term → BitVec 4
  | .count => 0
  | .eoi => 1
  | .dataEnd => 2
  | .badCode => 3
  | .dictFull => 4
  | .stackFull => 5
  | .truncated => 6
  | .badMcs => 7
  | .none => 15

/-- The value of ECODE (60_exceptions.md R201). -/
def Ecode.code : Ecode → BitVec 4
  | .none => 0
  | .lzwFormat => 1
  | .drainTrunc => 2
  | .missingCt => 3
  | .frameTooLarge => 4
  | .noCanvas => 5
  | .badCanvasSize => 6
  | .badCommand => 7

/-- A field with its bit 0 at bit `lo` of a register word. -/
def field {n : Nat} (lo : Nat) (v : BitVec n) : Word :=
  v.setWidth 32 <<< lo

/-- A one-bit field at bit `lo`. -/
def flag (lo : Nat) (b : Bool) : Word :=
  field lo (BitVec.ofBool b)

/-- STATUS as it reads (10_state.md R25): BUSY [0], DONE [1], ERR [2], BWERR [3], TERM [7:4], ECODE [11:8],
CANVAS_VALID [12], DTRUNC [13], 0 above. -/
def State.statusWord (s : State) : Word :=
  flag 0 s.busy ||| flag 1 s.status.done ||| flag 2 s.status.err ||| flag 3 s.status.bwerr |||
    field 4 s.status.term.code ||| field 8 s.status.ecode.code ||| flag 12 s.status.canvasValid |||
    flag 13 s.status.dtrunc

/-- LZW_STATE as it reads (10_state.md R40): MCS [3:0], CSIZE [7:4], AVAIL [20:8], 0 above. -/
def State.lzwStateWord (s : State) : Word :=
  field 0 s.dec.mcs ||| field 4 s.dec.csize ||| field 8 s.dec.avail

/-- The interrupt output (60_exceptions.md R210): the level DONE & DONE_IE. -/
def State.irq (s : State) : Bool :=
  s.status.done && s.doneIe

/-- The level the block drives on host interrupt line `n`: `irq` on IRQ_LINE, nothing elsewhere. -/
def State.irqLine (s : State) (n : Nat) : Bool :=
  n == s.par.irqLine && s.irq

end Sys2Proof.Machine
end

