-- ==== Sys2Proof/Machine/Operands.lean ====
section
/-! DEFINITION. The operand forms: the words of the register port, the fields of its registers, the code operand, the
active color table and the row order of an interlaced frame. -/

namespace Sys2Proof.Machine

/-! ### Register fields (30_encoding.md R89) -/

/-- Bits [15:0] and [31:16] of a written word. -/
def XY.ofWord (v : Word) : XY :=
  { x := v.extractLsb' 0 16, y := v.extractLsb' 16 16 }

/-- The word the two fields read as. -/
def XY.toWord (p : XY) : Word :=
  field 0 p.x ||| field 16 p.y

/-- FRAME_CTRL's fields of a written word; the reserved bits are dropped (10_state.md R23, R34). -/
def FrameCtrl.ofWord (v : Word) : FrameCtrl :=
  { dispose := v.extractLsb' 0 3, transp := v.getLsbD 3, interlace := v.getLsbD 4, lctPresent := v.getLsbD 5,
    tidx := v.extractLsb' 8 8 }

/-- FRAME_CTRL as it reads; the reserved bits are 0. -/
def FrameCtrl.toWord (c : FrameCtrl) : Word :=
  field 0 c.dispose ||| flag 3 c.transp ||| flag 4 c.interlace ||| flag 5 c.lctPresent ||| field 8 c.tidx

/-- LAST_CTRL as it reads (10_state.md R35): LDISPOSE [2:0], LAST_VALID [31]. -/
def State.lastCtrlWord (s : State) : Word :=
  field 0 s.lastDispose ||| flag 31 s.lastValid

/-! ### The words of the register port (10_state.md R23) -/

/-- A word of the port by its name. -/
inductive PortWord where
  | ctrl | status | irqen | canvasSize | bgcolor | gcfg | framePos | frameSize | frameCtrl
  | lastPos | lastSize | lastCtrl | pixCount | bytesIn | lzwState | frameCount
  | cbufSel | cbufIdx | cbufData | ibufIdx | ibufData | activeSize | id
  | gct (i : Byte) | lct (i : Byte)
  | reserved
  deriving DecidableEq, Repr

/-- The registers of the port, from offset 0x000 (CTRL) to 0x058 (ID), one each 4 bytes. -/
def portRegisters : List PortWord :=
  [.ctrl, .status, .irqen, .canvasSize, .bgcolor, .gcfg, .framePos, .frameSize] ++
  [.frameCtrl, .lastPos, .lastSize, .lastCtrl, .pixCount, .bytesIn, .lzwState, .frameCount] ++
  [.cbufSel, .cbufIdx, .cbufData, .ibufIdx, .ibufData, .activeSize, .id]

/-- The word at a word offset (a multiple of 4 below 0x1000): the table windows, the registers, and nothing else. -/
def portWordAt (off : Nat) : PortWord :=
  if 0x400 ≤ off ∧ off < 0x800 then .gct (BitVec.ofNat 8 ((off - 0x400) / 4))
  else if 0x800 ≤ off ∧ off < 0xC00 then .lct (BitVec.ofNat 8 ((off - 0x800) / 4))
  else portRegisters[off / 4]?.getD .reserved

/-- The word a host address reaches (20_memory.md R62): BASE + a reaches the word at `a & 0xFFC`, and an address outside
the 4 KiB of the port reaches none. -/
def portWord (par : Params) (addr : Nat) : Option PortWord :=
  if par.base ≤ addr ∧ addr < par.base + 0x1000 then
    some (portWordAt ((addr - par.base) / 4 * 4))
  else none

/-! ### The code operand (30_encoding.md R88) -/

/-- `code <- DATUM & CMASK`, zero-extended. -/
def State.codeOperand (s : State) : Code :=
  s.dec.datum.setWidth 12 &&& s.dec.cmask

/-- `DATUM <- DATUM >> CSIZE; BITS <- BITS - CSIZE`. -/
def State.takeCode (s : State) : State :=
  { s with dec := { s.dec with
      datum := s.dec.datum >>> s.dec.csize.toNat
      bits := s.dec.bits - s.dec.csize.setWidth 5 } }

/-- The registers a code is classified by (30_encoding.md R90). -/
def State.codeCtx (s : State) : CodeCtx :=
  { csize := s.dec.csize, clear := s.dec.clear, eoi := s.dec.eoi, avail := s.dec.avail, old := s.dec.old }

/-! ### Frame operands -/

/-- CW * CH, the number of entries of a canvas buffer (00_scope.md R8). -/
def State.canvasLen (s : State) : Nat :=
  s.activeSize.x.toNat * s.activeSize.y.toNat

/-- IW * IH, exact (42_commands.md R191). -/
def State.framePixels (s : State) : Nat :=
  s.frameSize.x.toNat * s.frameSize.y.toNat

/-- The active color table (41_compositor.md R156): LCT if present, else GCT. A FRAME with neither fails at CHECK. -/
def State.activeTable (s : State) : Mem 32 :=
  if s.frameCtrl.lctPresent then s.lct else s.gct

/-- Color translation (41_compositor.md R157): the transparent index is 0, any other index its table entry. -/
def State.translate (s : State) (idx : Byte) : Word :=
  if s.frameCtrl.transp && idx == s.frameCtrl.tidx then 0 else readMem s.activeTable idx.toNat

/-- ILORDER(h) (41_compositor.md R158): the rows of a frame of height `h` in GIF interlace pass order. -/
def ilorder (h : Nat) : List Nat :=
  (List.range h).filter (fun r => r % 8 == 0) ++ (List.range h).filter (fun r => r % 8 == 4) ++
  (List.range h).filter (fun r => r % 4 == 2) ++ (List.range h).filter (fun r => r % 2 == 1)

/-- The frame row that each decoded row 0, 1, … belongs to (41_compositor.md R158). -/
def State.rowOrder (s : State) : List Nat :=
  if s.frameCtrl.interlace then ilorder s.frameSize.y.toNat else List.range s.frameSize.y.toNat

end Sys2Proof.Machine
end

