-- ==== Sys2Proof/Machine/Compositor.lean ====
section
/-! DEFINITION. The PLACE and COMMIT phases of a FRAME (spec/41_compositor.md R156 to R162). -/

namespace Sys2Proof.Machine

/-- Decoded row `k` drawn at canvas row `y`: the columns of the frame that lie on the canvas (R153), each translated
(R157), zero colors skipped (R160). -/
def State.placeRow (s : State) (k y : Nat) (m : Mem 32) : Mem 32 :=
  drawRow (y * s.activeSize.x.toNat + s.framePos.x.toNat)
    (fun j => s.translate (readMem s.ibuf (k * s.frameSize.x.toNat + j)))
    (min s.frameSize.x.toNat (s.activeSize.x.toNat - s.framePos.x.toNat)) m

/-- The decoded rows k, k+1, … drawn at the frame rows of the list; a row at or below the canvas is dropped. -/
def State.placeRows (s : State) : List Nat → Nat → Mem 32 → Mem 32
  | [], _, m => m
  | r :: rows, k, m =>
    let y := s.framePos.y.toNat + r
    s.placeRows rows (k + 1) (if y < s.activeSize.y.toNat then s.placeRow k y m else m)

/-- PLACE (R159), whole: the frame is drawn into SCR, and COMMIT follows. -/
def State.placeStep (s : State) : State :=
  { s with scr := s.placeRows s.rowOrder 0 s.scr, phase := .commit }

/-- COMMIT, part 1 (R161): PREV takes the canvas as it was, CUR takes SCR. -/
def State.commitBuffers (s : State) : State :=
  { s with
    prev := copyBelow s.canvasLen s.cur s.prev
    cur := copyBelow s.canvasLen s.scr s.cur }

/-- COMMIT, part 2 (R162): the frame is the last one now. -/
def State.commitLatches (s : State) : State :=
  { s with
    lastPos := s.framePos, lastSize := s.frameSize, lastDispose := s.frameCtrl.dispose, lastValid := true
    frameCount := s.frameCount + 1 }

/-- COMMIT, whole, and the completion of the FRAME (42_commands.md R185). -/
def State.commitStep (s : State) : State :=
  s.commitBuffers.commitLatches.complete

end Sys2Proof.Machine
end

