-- ==== Sys2Proof/Machine/Decoder.lean ====
section
/-! DEFINITION. The steps of the DECODE phase that run no code (decode start, LOAD, POP), and the ZEROFILL and DRAIN
phases (spec/40_lzw.md R111, R113, R114, R116, R128, R129). A step that waits on `InByte()` takes no effect until the port
answers (spec/42_commands.md R188). -/

namespace Sys2Proof.Machine

/-! ### Decode start (R111) -/

/-- The registers that decode start clears before it asks for the minimum code size. INCODE is among them by 10_state.md R51,
which R111's pseudocode does not spell out; its value is the reset value (DEDUCED, log 18). -/
def State.clearDecoder (s : State) : State :=
  { s with dec := { s.dec with
      mcs := 0, csize := 0, avail := 0, chainEnd := false, sbcnt := 0, datum := 0, bits := 0, top := 0, pi := 0
      first := 0, incode := 0, old := none } }

/-- The registers and literal entries that a minimum code size `b` below 12 gives. -/
def State.setCodeSize (b : Byte) (s : State) : State :=
  let clear : BitVec 13 := 1#13 <<< b.toNat
  let csize : BitVec 4 := b.setWidth 4 + 1
  { s with
    started := true
    dec := { s.dec with
      mcs := b.setWidth 4, clear := clear, eoi := clear + 1, avail := clear + 2
      csize := csize, cmask := (1#12 <<< csize.toNat) - 1 }
    prefixMem := clearRange 0 clear.toNat s.prefixMem
    suffixMem := setBelow clear.toNat (fun c => BitVec.ofNat 8 c) s.suffixMem }

/-- Decode start, the first step of the DECODE phase. -/
def State.decodeStart (s : State) : State :=
  match s.env.port.answer with
  | .waiting => s
  | .err => s.clearDecoder.stopChain .truncated
  | .byte b =>
    if 12 ≤ b.toNat then s.clearDecoder.consumeByte.stop .badMcs
    else s.clearDecoder.consumeByte.setCodeSize b

/-! ### LOAD (R114) -/

/-- A data byte enters the bit buffer above the bits it holds (20_memory.md R63). -/
def State.loadData (b : Byte) (s : State) : State :=
  { s with dec := { s.dec with
      datum := s.dec.datum + (b.setWidth 20 <<< s.dec.bits.toNat)
      bits := s.dec.bits + 8
      sbcnt := s.dec.sbcnt - 1 } }

/-- `SBCNT <- n`. -/
def State.setSbcnt (n : Byte) (s : State) : State :=
  { s with dec := { s.dec with sbcnt := n } }

/-- LOAD: one sub-block length byte is read, or one data byte enters the bit buffer. -/
def State.load (s : State) : State :=
  match s.env.port.answer with
  | .waiting => s
  | .err => s.stopChain .truncated
  | .byte b =>
    if s.dec.sbcnt = 0 then
      if b = 0 then s.consumeByte.stopChain .dataEnd
      else s.consumeByte.setSbcnt b
    else s.consumeByte.loadData b

/-! ### Step selection (R113) -/

/-- What a step of the DECODE phase does after decode start. -/
inductive Selection where
  | stopCount | pop | load | code
  deriving DecidableEq, Repr

/-- The selection, in the order of R113. -/
def State.selection (s : State) : Selection :=
  if s.dec.npix.toNat ≤ s.dec.pi.toNat then .stopCount
  else if 0 < s.dec.top.toNat then .pop
  else if s.dec.bits.toNat < s.dec.csize.toNat then .load
  else .code

/-! ### The end of a command's stream phases -/

/-- After DRAIN: FRAME goes on to PLACE, DECODE completes (42_commands.md R184, R185). -/
def State.afterDrain (s : State) : State :=
  if s.cmdl = 4 then s.toPhase .place else s.complete

/-- `for i in PI..NPIX-1: IBUF[i] <- 0`. -/
def State.zerofill (s : State) : State :=
  { s with ibuf := clearRange s.dec.pi.toNat s.dec.npix.toNat s.ibuf }

/-- Entering the DRAIN phase. -/
def State.toDrain (s : State) : State :=
  { s with phase := .drain, drainLeft := 0 }

/-- ZEROFILL (R128), whole: the indices past the stop are 0. Then PHASE moves to DRAIN, which takes no step unless the
command's DRAIN bit is 1 and the chain has not ended (R129). -/
def State.zerofillStep (s : State) : State :=
  if s.drainl && !s.dec.chainEnd then s.zerofill.toDrain else s.zerofill.afterDrain

/-! ### DRAIN (R129) -/

/-- `CHAIN_END <- 1`. -/
def State.endChain (s : State) : State :=
  { s with dec := { s.dec with chainEnd := true } }

/-- `STATUS.DTRUNC <- 1; if STATUS.ECODE == 0 then STATUS.ECODE <- DRAIN_TRUNC`. -/
def State.markTruncated (s : State) : State :=
  { s with status := { s.status with
      dtrunc := true
      ecode := if s.status.ecode = .none then .drainTrunc else s.status.ecode } }

/-- `SBCNT <- SBCNT - 1` (R129). -/
def State.takeRest (s : State) : State :=
  { s with dec := { s.dec with sbcnt := s.dec.sbcnt - 1 } }

/-- The bytes left to take of a drained sub-block. -/
def State.setDrainLeft (n : Byte) (s : State) : State :=
  { s with drainLeft := n }

/-- `Err` before the terminator. -/
def State.drainTruncated (s : State) : State :=
  s.endChain.markTruncated.afterDrain

/-- One byte of DRAIN: first the rest of the sub-block that decoding stopped in, then length bytes and the data bytes
that follow them, until a length of 0. -/
def State.drainByte (b : Byte) (s : State) : State :=
  if s.dec.sbcnt ≠ 0 then s.takeRest
  else if s.drainLeft ≠ 0 then s.setDrainLeft (s.drainLeft - 1)
  else if b = 0 then s.endChain.afterDrain
  else s.setDrainLeft b

/-- One step of DRAIN: one `InByte()` with its bookkeeping. -/
def State.drainStep (s : State) : State :=
  match s.env.port.answer with
  | .waiting => s
  | .err => s.drainTruncated
  | .byte b => s.consumeByte.drainByte b

end Sys2Proof.Machine
end

