-- ==== Sys2Proof/Machine/Codes.lean ====
section
/-! DEFINITION. The eight code classes of the LZW decoder (spec/40_lzw.md R118 to R127). A meaning here starts after the
code has been taken from the bit buffer (R115). -/

namespace Sys2Proof.Machine

/-! ### Expansion, entry add and width growth -/

/-- `INCODE <- code`. -/
def State.setIncode (code : Code) (s : State) : State :=
  { s with dec := { s.dec with incode := code } }

/-- `FIRST <- f`. -/
def State.setFirst (f : Byte) (s : State) : State :=
  { s with dec := { s.dec with first := f } }

/-- `OLD <- code`. -/
def State.setOld (code : Code) (s : State) : State :=
  { s with dec := { s.dec with old := some code } }

/-- `CSIZE <- CSIZE + 1; CMASK <- 2*CMASK + 1` (R127). -/
def State.widen (s : State) : State :=
  { s with dec := { s.dec with csize := s.dec.csize + 1, cmask := 2 * s.dec.cmask + 1 } }

/-- GROW (R127): after an entry is added, the width grows when AVAIL has reached the next power of two of the current
width and is below 4096. -/
def State.grow (s : State) : State :=
  if s.dec.avail &&& s.dec.cmask.setWidth 13 = 0 ∧ s.dec.avail.toNat < Config.dictCap then
    s.widen
  else s

/-- The walk of R126: while c > CLEAR, push SUFFIX[c] and follow PREFIX[c]. `room` is the number of free stack entries,
so the walk is at its end when none is left: the next push stops with STACK_FULL (R117). -/
def State.walk : Nat → Code → State → Except State (Code × State)
  | room, c, s =>
    if c.toNat ≤ s.dec.clear.toNat then .ok (c, s)
    else match room with
      | 0 => .error (s.stop .stackFull)
      | room + 1 =>
        match s.push (readMem s.suffixMem c.toNat) with
        | .error t => .error t
        | .ok t => State.walk room (readMem s.prefixMem c.toNat) t

/-- The entry of R126: PREFIX[AVAIL] <- OLD, SUFFIX[AVAIL] <- FIRST, AVAIL <- AVAIL + 1. -/
def State.writeEntry (old : Code) (s : State) : State :=
  { s with
    prefixMem := writeMem s.prefixMem s.dec.avail.toNat old
    suffixMem := writeMem s.suffixMem s.dec.avail.toNat s.dec.first
    dec := { s.dec with avail := s.dec.avail + 1 } }

/-- The end of R126: the entry, GROW, OLD <- INCODE. -/
def State.addEntry (old : Code) (s : State) : State :=
  (s.writeEntry old).grow.setOld s.dec.incode

/-- EXPAND_AND_ADD(c) (R126), the shared tail of KWKWK, LITERAL and DICT. FIRST is set before its push, so a push that
stops leaves the new FIRST and adds no entry (R112). -/
def State.expandAndAdd (old : Code) (c : Code) (s : State) : Except State State :=
  match State.walk (Config.stackCap - s.dec.top.toNat) c s with
  | .error t => .error t
  | .ok (base, t) =>
    let f := readMem t.suffixMem base.toNat
    match (t.setFirst f).push f with
    | .error u => .error u
    | .ok u => .ok (u.addEntry old)

/-- `CSIZE <- MCS + 1; CMASK <- (1 << CSIZE) - 1; AVAIL <- CLEAR + 2; OLD <- NULL` (R120). -/
def State.clearDict (s : State) : State :=
  let csize := s.dec.mcs + 1
  { s with dec := { s.dec with
      csize := csize, cmask := (1#12 <<< csize.toNat) - 1, avail := s.dec.clear + 2, old := none } }

/-! ### The classes -/

/-- BADCODE (R118): `stop(BAD_CODE)`. -/
def execBadcode (s : State) : Result :=
  .next (s.stop .badCode)

/-- EOI (R119): `stop(EOI)`. -/
def execEoi (s : State) : Result :=
  .next (s.stop .eoi)

/-- CLEAR (R120): the code size and AVAIL go back to their start values and OLD is NULL. -/
def execClear (s : State) : Result :=
  .next s.clearDict

/-- FIRST (R121): the code's single suffix is emitted and recorded as FIRST. No entry is added. -/
def execFirst (code : Code) (s : State) : Result :=
  let f := readMem s.suffixMem code.toNat
  match s.push f with
  | .error t => .next t
  | .ok t => .next ((t.setFirst f).setOld code)

/-- DICTFULL (R122): `stop(DICT_FULL)`. -/
def execDictfull (s : State) : Result :=
  .next (s.stop .dictFull)

/-- KWKWK (R123): FIRST is pushed, then OLD is expanded. -/
def execKwkwk (code : Code) (s : State) : Result :=
  match s.dec.old with
  | none => .fault .noPreviousCode
  | some old =>
    match (s.setIncode code).push s.dec.first with
    | .error t => .next t
    | .ok t => settle (t.expandAndAdd old old)

/-- LITERAL (R124): the code expands to itself. -/
def execLiteral (code : Code) (s : State) : Result :=
  match s.dec.old with
  | none => .fault .noPreviousCode
  | some old => settle ((s.setIncode code).expandAndAdd old code)

/-- DICT (R125): the code's whole string is expanded. -/
def execDict (code : Code) (s : State) : Result :=
  match s.dec.old with
  | none => .fault .noPreviousCode
  | some old => settle ((s.setIncode code).expandAndAdd old code)

end Sys2Proof.Machine
end

