-- ==== Sys2Proof/Machine/Commands.lean ====
section
/-! DEFINITION. The host commands: what the write of a CTRL word does in its own step (spec/42_commands.md R180, R181, R182,
R187), and the CHECK and INIT phases of the commands it starts (R183, R184, R186, R187). -/

namespace Sys2Proof.Machine

/-! ### The CTRL write -/

/-- NOP (R181): nothing; while BUSY it is a busy write (R180, case 2). -/
def execNop (s : State) : Result :=
  .next (if s.busy then s.setBwerr else s)

/-- RESET (R182): accepted at any time; the running command is abandoned and R230 applied. -/
def execReset (s : State) : Result :=
  .next s.afterReset

/-- CANVAS_INIT (R183). -/
def execCanvasInit (drain : Bool) (s : State) : Result :=
  .next (s.request 2 drain)

/-- DECODE (R184). -/
def execDecode (drain : Bool) (s : State) : Result :=
  .next (s.request 3 drain)

/-- FRAME (R185). -/
def execFrame (drain : Bool) (s : State) : Result :=
  .next (s.request 4 drain)

/-- CMD 5 (R187). -/
def execReservedCmd5 (drain : Bool) (s : State) : Result :=
  .next (s.request 5 drain)

/-- CMD 6 (R187). -/
def execReservedCmd6 (drain : Bool) (s : State) : Result :=
  .next (s.request 6 drain)

/-- CMD 7 (R187). -/
def execReservedCmd7 (drain : Bool) (s : State) : Result :=
  .next (s.request 7 drain)

/-- CMD 8 (R187). -/
def execReservedCmd8 (drain : Bool) (s : State) : Result :=
  .next (s.request 8 drain)

/-- CMD 9 (R187). -/
def execReservedCmd9 (drain : Bool) (s : State) : Result :=
  .next (s.request 9 drain)

/-- CMD 10 (R187). -/
def execReservedCmd10 (drain : Bool) (s : State) : Result :=
  .next (s.request 10 drain)

/-- CMD 11 (R187). -/
def execReservedCmd11 (drain : Bool) (s : State) : Result :=
  .next (s.request 11 drain)

/-- CMD 12 (R187). -/
def execReservedCmd12 (drain : Bool) (s : State) : Result :=
  .next (s.request 12 drain)

/-- CMD 13 (R187). -/
def execReservedCmd13 (drain : Bool) (s : State) : Result :=
  .next (s.request 13 drain)

/-- CMD 14 (R187). -/
def execReservedCmd14 (drain : Bool) (s : State) : Result :=
  .next (s.request 14 drain)

/-- CMD 15 (R187). -/
def execReservedCmd15 (drain : Bool) (s : State) : Result :=
  .next (s.request 15 drain)

/-! ### The CHECK phase -/

/-- NPIX <- IW * IH (R184, R185). -/
def State.setNpix (s : State) : State :=
  { s with dec := { s.dec with npix := BitVec.ofNat 32 s.framePixels } }

/-- CHECK of CANVAS_INIT (R183): the size is 1..MAX_W by 1..MAX_H. -/
def State.checkCanvasInit (s : State) : State :=
  if s.canvasSize.x.toNat < 1 ∨ s.par.maxW < s.canvasSize.x.toNat ∨ s.canvasSize.y.toNat < 1 ∨
      s.par.maxH < s.canvasSize.y.toNat then
    s.raiseError .badCanvasSize
  else s.toPhase .init

/-- CHECK of DECODE (R184). A command that raises changes no register but STATUS (60_exceptions.md R200), so NPIX is
written only when the test passes (log 9). -/
def State.checkDecode (s : State) : State :=
  if s.par.npixMax < s.framePixels then s.raiseError .frameTooLarge
  else s.setNpix.toDecode

/-- CHECK of FRAME (R186): the first test that fails raises its error. -/
def State.checkFrame (s : State) : State :=
  if !s.status.canvasValid then s.raiseError .noCanvas
  else if !s.frameCtrl.lctPresent && !s.gctPresent then s.raiseError .missingCt
  else if s.par.npixMax < s.framePixels then s.raiseError .frameTooLarge
  else s.setNpix.toPhase .dispose

/-- The CHECK phase, whole (42_commands.md R188), of the latched command. NOP and RESET are never latched (R180). -/
def State.checkStep (s : State) : State :=
  if s.cmdl = 2 then s.checkCanvasInit
  else if s.cmdl = 3 then s.checkDecode
  else if s.cmdl = 4 then s.checkFrame
  else s.raiseError .badCommand

/-! ### The INIT phase -/

/-- INIT (R183): the size is latched, the three canvases are zero, LAST_* and FRAME_COUNT are cleared, CANVAS_VALID is
set, and the command completes. -/
def State.initStep (s : State) : State :=
  State.complete { s with
    activeSize := s.canvasSize
    cur := [], prev := [], scr := []
    lastPos := ⟨0, 0⟩, lastSize := ⟨0, 0⟩, lastDispose := 0, lastValid := false
    frameCount := 0
    status := { s.status with canvasValid := true } }

end Sys2Proof.Machine
end

