-- ==== Sys2Proof/Machine/Disposal.lean ====
section
/-! DEFINITION. The disposal of the last committed frame (spec/41_compositor.md R150 to R155). The meanings write SCR; the
sequencer then moves to DECODE. -/

namespace Sys2Proof.Machine

/-- `for i in 0..CW*CH-1: SCR[i] <- CUR[i]`. -/
def State.copyCurToScr (s : State) : State :=
  { s with scr := copyBelow s.canvasLen s.cur s.scr }

/-- `for i in 0..CW*CH-1: SCR[i] <- PREV[i]`. -/
def State.copyPrevToScr (s : State) : State :=
  { s with scr := copyBelow s.canvasLen s.prev s.scr }

/-- The first `rows` rows of a rectangle at (x0, y0), `n` pixels wide, on a canvas `cw` pixels wide, are given the
color `v`. -/
def fillRect (cw x0 y0 n : Nat) (v : Word) : Nat → Mem 32 → Mem 32
  | 0, m => m
  | rows + 1, m => fillRow ((y0 + rows) * cw + x0) v n (fillRect cw x0 y0 n v rows m)

/-- The rectangle of the last frame, clipped to the canvas (R153), is filled in SCR. -/
def State.fillLast (v : Word) (s : State) : State :=
  let n := min s.lastSize.x.toNat (s.activeSize.x.toNat - s.lastPos.x.toNat)
  let rows := min s.lastSize.y.toNat (s.activeSize.y.toNat - s.lastPos.y.toNat)
  { s with scr := fillRect s.activeSize.x.toNat s.lastPos.x.toNat s.lastPos.y.toNat n v rows s.scr }

/-- The fill color of R152: 0 if the frame now running declares transparency, else BGCOLOR. -/
def State.fillColor (s : State) : Word :=
  if s.frameCtrl.transp then 0 else s.bgcolor

/-- DISPOSE 0 (R151): as `none`. -/
def execDisposeUnspecified (s : State) : Result :=
  .next s.copyCurToScr

/-- DISPOSE 1 (R151): keep the old image. -/
def execDisposeNone (s : State) : Result :=
  .next s.copyCurToScr

/-- DISPOSE 2 (R152): the last frame's rectangle goes back to the background. -/
def execDisposeBackground (s : State) : Result :=
  .next (s.copyCurToScr.fillLast s.fillColor)

/-- DISPOSE 3 (R154): the canvas from before the last frame. -/
def execDisposePrevious (s : State) : Result :=
  .next s.copyPrevToScr

/-- DISPOSE 4..7 (R151): reserved, as `none`. -/
def execDisposeReserved (s : State) : Result :=
  .next s.copyCurToScr

end Sys2Proof.Machine
end

