-- ==== Sys2Proof/Machine/Dispatch.lean ====
section
/-! DEFINITION. One arm for each constructor of Instr: its meaning. -/

namespace Sys2Proof.Machine

def exec (i : Instr) (s : State) : Host.Outcome State Fault Refusal :=
  match i with
  -- the code classes, run by a CODE step (40_lzw.md R115)
  | .badcode _ => Sys2Proof.Machine.execBadcode s
  | .eoi => Sys2Proof.Machine.execEoi s
  | .clear => Sys2Proof.Machine.execClear s
  | .first code => Sys2Proof.Machine.execFirst code s
  | .dictfull _ => Sys2Proof.Machine.execDictfull s
  | .kwkwk code => Sys2Proof.Machine.execKwkwk code s
  | .literal code => Sys2Proof.Machine.execLiteral code s
  | .dict code => Sys2Proof.Machine.execDict code s
  -- the CTRL words, run by the host's write (42_commands.md R180)
  | .nop => Sys2Proof.Machine.execNop s
  | .reset => Sys2Proof.Machine.execReset s
  | .canvasInit drain => Sys2Proof.Machine.execCanvasInit drain s
  | .decode drain => Sys2Proof.Machine.execDecode drain s
  | .frame drain => Sys2Proof.Machine.execFrame drain s
  | .reservedCmd5 drain => Sys2Proof.Machine.execReservedCmd5 drain s
  | .reservedCmd6 drain => Sys2Proof.Machine.execReservedCmd6 drain s
  | .reservedCmd7 drain => Sys2Proof.Machine.execReservedCmd7 drain s
  | .reservedCmd8 drain => Sys2Proof.Machine.execReservedCmd8 drain s
  | .reservedCmd9 drain => Sys2Proof.Machine.execReservedCmd9 drain s
  | .reservedCmd10 drain => Sys2Proof.Machine.execReservedCmd10 drain s
  | .reservedCmd11 drain => Sys2Proof.Machine.execReservedCmd11 drain s
  | .reservedCmd12 drain => Sys2Proof.Machine.execReservedCmd12 drain s
  | .reservedCmd13 drain => Sys2Proof.Machine.execReservedCmd13 drain s
  | .reservedCmd14 drain => Sys2Proof.Machine.execReservedCmd14 drain s
  | .reservedCmd15 drain => Sys2Proof.Machine.execReservedCmd15 drain s
  -- the disposal methods, run by the DISPOSE phase (41_compositor.md R150)
  | .disposeUnspecified => Sys2Proof.Machine.execDisposeUnspecified s
  | .disposeNone => Sys2Proof.Machine.execDisposeNone s
  | .disposeBackground => Sys2Proof.Machine.execDisposeBackground s
  | .disposePrevious => Sys2Proof.Machine.execDisposePrevious s
  | .disposeReserved _ => Sys2Proof.Machine.execDisposeReserved s

end Sys2Proof.Machine
end

