-- ==== Sys2Proof/Machine/Registers.lean ====
section
/-! DEFINITION. The host's accesses to the register port, all words but CTRL (spec/10_state.md R23 to R46,
spec/20_memory.md R62, R66, R69, R70). -/

namespace Sys2Proof.Machine

/-! ### Writes -/

/-- A write to a word other than CTRL and STATUS while BUSY = 0. A write to a read-only or reserved word is ignored, and so
are the reserved bits of a register (10_state.md R23). -/
def State.storeWord (w : PortWord) (v : Word) (s : State) : State :=
  match w with
  | .irqen => { s with doneIe := v.getLsbD 0 }
  | .canvasSize => { s with canvasSize := XY.ofWord v }
  | .bgcolor => { s with bgcolor := v }
  | .gcfg => { s with gctPresent := v.getLsbD 0 }
  | .framePos => { s with framePos := XY.ofWord v }
  | .frameSize => { s with frameSize := XY.ofWord v }
  | .frameCtrl => { s with frameCtrl := FrameCtrl.ofWord v }
  | .cbufSel => { s with cbufSel := v.extractLsb' 0 2 }
  | .cbufIdx => { s with cbufIdx := v }
  | .ibufIdx => { s with ibufIdx := v }
  | .gct i => { s with gct := writeMem s.gct i.toNat v }
  | .lct i => { s with lct := writeMem s.lct i.toNat v }
  | .ctrl | .status => s
  | .lastPos | .lastSize | .lastCtrl | .pixCount | .bytesIn | .lzwState | .frameCount | .activeSize | .id => s
  | .cbufData | .ibufData => s
  | .reserved => s

/-- A write to a word other than CTRL: STATUS at any time (10_state.md R25); any other while BUSY is ignored and sets
BWERR (20_memory.md R69). -/
def State.writeWord (w : PortWord) (v : Word) (s : State) : State :=
  if w = .status then s.w1cStatus v
  else if s.busy then s.setBwerr
  else s.storeWord w v

/-! ### Reads -/

/-- The buffer CBUF_SEL selects (10_state.md R41): 3 selects none. -/
def State.selectedBuffer (s : State) : Option (Mem 32) :=
  match s.cbufSel.toNat with
  | 0 => some s.cur
  | 1 => some s.prev
  | 2 => some s.scr
  | _ => none

/-- What a read of CBUF_DATA returns while BUSY = 0 (10_state.md R42). -/
def State.cbufValue (s : State) : Word :=
  match s.selectedBuffer with
  | some b => if s.status.canvasValid ∧ s.cbufIdx.toNat < s.canvasLen then readMem b s.cbufIdx.toNat else 0
  | none => 0

/-- What a read of IBUF_DATA returns while BUSY = 0 (10_state.md R43). -/
def State.ibufValue (s : State) : Word :=
  if s.ibufIdx.toNat < s.par.npixMax then (readMem s.ibuf s.ibufIdx.toNat).setWidth 32 else 0

/-- What a read of the word returns while BUSY = 0. -/
def State.loadWord (w : PortWord) (s : State) : Word :=
  match w with
  | .ctrl => 0
  | .status => s.statusWord
  | .irqen => flag 0 s.doneIe
  | .canvasSize => s.canvasSize.toWord
  | .bgcolor => s.bgcolor
  | .gcfg => flag 0 s.gctPresent
  | .framePos => s.framePos.toWord
  | .frameSize => s.frameSize.toWord
  | .frameCtrl => s.frameCtrl.toWord
  | .lastPos => s.lastPos.toWord
  | .lastSize => s.lastSize.toWord
  | .lastCtrl => s.lastCtrlWord
  | .pixCount => s.pixCount
  | .bytesIn => s.bytesIn
  | .lzwState => s.lzwStateWord
  | .frameCount => s.frameCount
  | .cbufSel => field 0 s.cbufSel
  | .cbufIdx => s.cbufIdx
  | .cbufData => s.cbufValue
  | .ibufIdx => s.ibufIdx
  | .ibufData => s.ibufValue
  | .activeSize => s.activeSize.toWord
  | .id => Config.idWord
  | .gct i => readMem s.gct i.toNat
  | .lct i => readMem s.lct i.toNat
  | .reserved => 0

/-- The words whose read is free while BUSY = 1 (20_memory.md R70). -/
def PortWord.isRam : PortWord → Bool
  | .cbufData | .ibufData | .gct _ | .lct _ => true
  | .ctrl | .status | .irqen | .canvasSize | .bgcolor | .gcfg | .framePos | .frameSize | .frameCtrl => false
  | .lastPos | .lastSize | .lastCtrl | .pixCount | .bytesIn | .lzwState | .frameCount => false
  | .cbufSel | .cbufIdx | .ibufIdx | .activeSize | .id | .reserved => false

/-- The side effect of a read while BUSY = 0: CBUF_DATA and IBUF_DATA increment their index, modulo 2^32
(20_memory.md R66). -/
def State.afterLoad (w : PortWord) (s : State) : State :=
  match w with
  | .cbufData => { s with cbufIdx := s.cbufIdx + 1 }
  | .ibufData => { s with ibufIdx := s.ibufIdx + 1 }
  | .ctrl | .status | .irqen | .canvasSize | .bgcolor | .gcfg | .framePos | .frameSize | .frameCtrl => s
  | .lastPos | .lastSize | .lastCtrl | .pixCount | .bytesIn | .lzwState | .frameCount => s
  | .cbufSel | .cbufIdx | .ibufIdx | .activeSize | .id | .reserved | .gct _ | .lct _ => s

/-- The host receives the value `v`. -/
def State.deliver (v : Word) (s : State) : State :=
  { s with env := { s.env with reads := v :: s.env.reads } }

/-- The host receives a free value: the next draw of `free` (logs 5, 8). -/
def State.deliverFree (free : Nat → Word) (s : State) : State :=
  { s with env := { s.env with reads := free s.env.draws :: s.env.reads, draws := s.env.draws + 1 } }

/-- A read of a word: free for the memories while BUSY = 1, with no side effect (20_memory.md R70); else its value,
and then its side effect. -/
def State.readWord (w : PortWord) (s : State) : State :=
  if w.isRam && s.busy then s.deliverFree Config.freeWord
  else State.afterLoad w (s.deliver (s.loadWord w))

end Sys2Proof.Machine
end

