-- ==== Sys2Proof/Machine/Sequencer.lean ====
section
/-! DEFINITION. One step of the block's sequencer (spec/42_commands.md R188), one operation of the host (spec/20_memory.md
R62, R64, spec/30_encoding.md R97), and who moves. -/

namespace Sys2Proof.Machine

/-- What follows an answered next state; a fault or a refusal stays. -/
def andThen (r : Result) (f : State → State) : Result :=
  match r with
  | .next s => .next (f s)
  | .fault e => .fault e
  | .refused e => .refused e

/-! ### The block -/

/-- The CODE step (40_lzw.md R115): one code is taken from the bit buffer, and its class is run. -/
def State.codeStep (s : State) : Result :=
  exec (classify s.codeCtx s.codeOperand) s.takeCode

/-- A step of the DECODE phase (40_lzw.md R111, R113). -/
def State.decodeStep (s : State) : Result :=
  if !s.started then .next s.decodeStart
  else match s.selection with
    | .stopCount => .next (s.stop .count)
    | .pop => .next s.pop
    | .load => .next s.load
    | .code => s.codeStep

/-- The DISPOSE phase, whole (41_compositor.md R150, R155): the last frame's method is run, if there is a last frame, and
DECODE follows. -/
def State.disposeStep (s : State) : Result :=
  if s.lastValid then andThen (exec (decodeMethod s.lastDispose) s) State.toDecode
  else .next s.toDecode

/-- One step of the block; none while IDLE (60_exceptions.md R221). -/
def State.blockStep (s : State) : Result :=
  match s.phase with
  | .idle => .next s
  | .check => .next s.checkStep
  | .init => .next s.initStep
  | .dispose => s.disposeStep
  | .decode => s.decodeStep
  | .zerofill => .next s.zerofillStep
  | .drain => .next s.drainStep
  | .place => .next s.placeStep
  | .commit => .next s.commitStep

/-- The step the block is at asks the port for a byte. -/
def State.asksByte (s : State) : Bool :=
  match s.phase with
  | .decode => !s.started || s.selection == .load
  | .drain => true
  | .idle | .check | .init | .dispose | .zerofill | .place | .commit => false

/-- The block has an enabled step: it is BUSY and does not wait for a port that does not answer
(93_implementation_defined.md U12). -/
def State.blockReady (s : State) : Bool :=
  s.busy && !(s.asksByte && s.env.port.answer == .waiting)

/-! ### The host -/

/-- A host write (20_memory.md R62): CTRL runs the command of the word (42_commands.md R180); an address outside the port
does not reach the block. -/
def State.hostWrite (addr : Nat) (v : Word) (s : State) : Result :=
  match portWord s.par addr with
  | some .ctrl => exec (decodeCtrl v) s
  | some w => .next (s.writeWord w v)
  | none => .next s

/-- A host read; outside the port the value is the platform's (log 8). -/
def State.hostRead (addr : Nat) (s : State) : State :=
  match portWord s.par addr with
  | some w => s.readWord w
  | none => s.deliverFree Config.platformWord

/-- The next operation of the host is taken off its program. -/
def State.setQueue (ops : List HostOp) (s : State) : State :=
  { s with env := { s.env with queue := ops } }

/-- The reader is given a new stream, from its first byte (30_encoding.md R97). It says what the port answers "from
now on", which the model reads as while BUSY = 1 too (DEDUCED, log 20). -/
def State.setStream (bytes : List Byte) (atEnd : PortEnd) (s : State) : State :=
  { s with env := { s.env with port := { buf := bytes, pos := 0, atEnd := atEnd } } }

/-- The reader seeks (20_memory.md R64). R64 and 70_reset_and_hazards.md R234 speak only of a seek before the command starts.
DESIGN CHOICE (log 20): a seek while BUSY = 1 acts at once too, and the running command reads on from the new position. -/
def State.seekPort (pos : Nat) (s : State) : State :=
  { s with env := { s.env with port := { s.env.port with pos := pos } } }

/-- One operation of the host. `WAIT` polls: it stays in the program while BUSY = 1. A seek or a new stream acts at once,
BUSY or not (log 20). A host whose program has ended does nothing (42_commands.md R190). -/
def State.hostStep (s : State) : Result :=
  match s.env.queue with
  | [] => .next s
  | .write addr v :: ops => (s.setQueue ops).hostWrite addr v
  | .read addr :: ops => .next ((s.setQueue ops).hostRead addr)
  | .wait :: ops => .next (if s.busy then s else s.setQueue ops)
  | .stream bytes atEnd :: ops => .next ((s.setQueue ops).setStream bytes atEnd)
  | .seek pos :: ops => .next ((s.setQueue ops).seekPort pos)

/-! ### Who moves -/

/-- The next turn: the one prescribed, and past the prescribed ones the block while it has an enabled step, else the
host (log 3). -/
def State.nextAgent (s : State) : Agent :=
  match s.env.sched with
  | a :: _ => a
  | [] => if s.blockReady then .block else .host

/-- The prescribed turn is used up. -/
def State.takeTurn (s : State) : State :=
  { s with env := { s.env with sched := s.env.sched.tail } }

/-- A step of the agent. -/
def State.agentStep (a : Agent) (s : State) : Result :=
  match a with
  | .host => s.hostStep
  | .block => s.blockStep

end Sys2Proof.Machine
end

