-- ==== Sys2Proof/Machine/Step.lean ====
section
/-! DEFINITION. One step of the run: the agent whose turn it is moves (spec/42_commands.md R188). -/

namespace Sys2Proof.Machine

/-- One step. -/
def step (s : State) : Host.Outcome State Fault Refusal :=
  State.agentStep s.nextAgent s.takeTurn

/-- `s` with the CTRL word `w` as the host's next operation, and the host's turn next: the very next step runs it. A
program comes from outside the machine as the host's operations and the reader's bytes (log 10). -/
def State.withFetchWord (s : State) (nbits w : Nat) : State :=
  { s with env := { s.env with
      queue := .write s.par.base (BitVec.ofNat 32 (w % 2 ^ nbits)) :: s.env.queue
      sched := .host :: s.env.sched } }

end Sys2Proof.Machine
end

