-- ==== Sys2Proof/Safety.lean ====
section
/-! DEFINITION. The terms that statements about the block use: what a step leaves alone (its frame), the invariants
of the spec's rules, and the expansion of a code as its list of links. -/

namespace Sys2Proof.Machine

/-! ### Frames: parts of the state that two states share. A memory is compared through its reads. -/

/-- The memory reads the same everywhere. -/
def sameMem {w : Nat} (m n : Mem w) : Prop := ∀ i, readMem n i = readMem m i

/-- The parameters and every register and table that only the host writes (10_state.md R29 to R34, R41, R43, R46). -/
def State.sameConfig (s t : State) : Prop :=
  t.par = s.par ∧ t.doneIe = s.doneIe ∧ t.canvasSize = s.canvasSize ∧ t.bgcolor = s.bgcolor ∧
  t.gctPresent = s.gctPresent ∧ t.framePos = s.framePos ∧ t.frameSize = s.frameSize ∧ t.frameCtrl = s.frameCtrl ∧
  t.cbufSel = s.cbufSel ∧ t.cbufIdx = s.cbufIdx ∧ t.ibufIdx = s.ibufIdx ∧ sameMem s.gct t.gct ∧ sameMem s.lct t.lct

/-- ACTIVE_SIZE, LAST_*, FRAME_COUNT (10_state.md R35, R38, R39). -/
def State.sameLast (s t : State) : Prop :=
  t.activeSize = s.activeSize ∧ t.lastPos = s.lastPos ∧ t.lastSize = s.lastSize ∧ t.lastDispose = s.lastDispose ∧
  t.lastValid = s.lastValid ∧ t.frameCount = s.frameCount

/-- The three canvases (10_state.md R49). -/
def State.sameCanvas (s t : State) : Prop :=
  sameMem s.cur t.cur ∧ sameMem s.prev t.prev ∧ sameMem s.scr t.scr

/-- PREFIX and SUFFIX (10_state.md R45). -/
def State.sameDict (s t : State) : Prop :=
  sameMem s.prefixMem t.prefixMem ∧ sameMem s.suffixMem t.suffixMem

/-- The dictionary, the stack and IBUF. -/
def State.sameStreamMems (s t : State) : Prop :=
  s.sameDict t ∧ sameMem s.stack t.stack ∧ sameMem s.ibuf t.ibuf

/-- Everything a host operation that is no command leaves alone: sequencing, decoder, the read-only fields of STATUS,
dictionary, stack, IBUF, canvases, LAST_* and the counters. -/
def State.sameBlock (s t : State) : Prop :=
  t.phase = s.phase ∧ t.cmdl = s.cmdl ∧ t.drainl = s.drainl ∧ t.started = s.started ∧ t.drainLeft = s.drainLeft ∧
  t.dec = s.dec ∧ t.pixCount = s.pixCount ∧ t.bytesIn = s.bytesIn ∧ t.status.term = s.status.term ∧
  t.status.ecode = s.status.ecode ∧ t.status.canvasValid = s.status.canvasValid ∧ t.status.dtrunc = s.status.dtrunc ∧
  s.sameLast t ∧ s.sameCanvas t ∧ s.sameStreamMems t

/-- STATUS and the counters a code class that does not stop leaves alone, with the phase. -/
def State.sameReport (s t : State) : Prop :=
  t.phase = s.phase ∧ t.status = s.status ∧ t.pixCount = s.pixCount ∧ t.bytesIn = s.bytesIn

/-- The command in progress and what stands outside the block. -/
def State.sameRun (s t : State) : Prop :=
  t.env = s.env ∧ t.cmdl = s.cmdl ∧ t.drainl = s.drainl ∧ t.started = s.started ∧ t.drainLeft = s.drainLeft

/-! ### Invariants -/

/-- Every memory is in its canonical form. -/
def State.memsCanonical (s : State) : Prop :=
  memWf s.prefixMem ∧ memWf s.suffixMem ∧ memWf s.stack ∧ memWf s.ibuf ∧ memWf s.gct ∧ memWf s.lct ∧
  memWf s.cur ∧ memWf s.prev ∧ memWf s.scr

/-- No memory holds an entry outside the range 20_memory.md R60 gives it, and NPIX fits IBUF. -/
def State.memsInRange (s : State) : Prop :=
  memBelow Config.dictCap s.prefixMem ∧ memBelow Config.dictCap s.suffixMem ∧ memBelow Config.stackCap s.stack ∧
  memBelow s.par.npixMax s.ibuf ∧ memBelow 256 s.gct ∧ memBelow 256 s.lct ∧
  memBelow s.canvasLen s.cur ∧ memBelow s.canvasLen s.prev ∧ memBelow s.canvasLen s.scr ∧
  s.dec.npix.toNat ≤ s.par.npixMax

/-- The step is inside DECODE, after decode start. -/
def State.decoding (s : State) : Bool :=
  s.phase == .decode && s.started

/-- The legal ranges of the decoder registers while decoding (10_state.md R20, R21). -/
def State.decoderInRange (s : State) : Prop :=
  s.decoding = true →
    s.dec.mcs.toNat ≤ 11 ∧ s.dec.clear.toNat = 2 ^ s.dec.mcs.toNat ∧ s.dec.eoi.toNat = s.dec.clear.toNat + 1 ∧
    s.dec.mcs.toNat + 1 ≤ s.dec.csize.toNat ∧ s.dec.csize.toNat ≤ 12 ∧
    s.dec.cmask.toNat = 2 ^ s.dec.csize.toNat - 1 ∧
    s.dec.clear.toNat + 2 ≤ s.dec.avail.toNat ∧ s.dec.avail.toNat ≤ Config.dictCap ∧
    s.dec.bits.toNat ≤ 19 ∧ s.dec.datum.toNat < 2 ^ s.dec.bits.toNat ∧
    s.dec.top.toNat ≤ Config.stackCap ∧ s.dec.pi.toNat ≤ s.dec.npix.toNat

/-- The commands a phase belongs to (42_commands.md R183 to R187). -/
def Phase.belongsTo (cmd : BitVec 4) : Phase → Prop
  | .idle => True
  | .check => 2 ≤ cmd.toNat
  | .init => cmd = 2
  | .decode | .zerofill | .drain => cmd = 3 ∨ cmd = 4
  | .dispose | .place | .commit => cmd = 4

/-- The phase belongs to the latched command. -/
def State.phaseOfCommand (s : State) : Prop :=
  s.phase.belongsTo s.cmdl

/-- A FRAME is between its CHECK and its completion. -/
def State.inFrame (s : State) : Bool :=
  match s.phase with
  | .idle | .check | .init => false
  | .dispose | .decode | .zerofill | .drain | .place | .commit => s.cmdl == 4

/-- SCR = CUR entry for entry while the canvas is valid and no FRAME is past its CHECK (10_state.md R50 is the case
PHASE = IDLE). -/
def State.scratchIsCurrent (s : State) : Prop :=
  s.status.canvasValid = true → s.inFrame = false → ∀ i < s.canvasLen, readMem s.scr i = readMem s.cur i

/-- The dictionary of one generation (40_lzw.md R131): above entry CLEAR + 2 a link goes down, OLD is a code of the
generation, or AVAIL itself while no entry has been added, and no entry has been added while OLD is NULL. -/
def State.linksDescend (s : State) : Prop :=
  s.decoding = true →
    (∀ k, s.dec.clear.toNat + 3 ≤ k → k < s.dec.avail.toNat → (readMem s.prefixMem k).toNat < k) ∧
    (∀ old, s.dec.old = some old →
      old.toNat < s.dec.avail.toNat ∨ (old.toNat = s.dec.avail.toNat ∧ s.dec.avail.toNat = s.dec.clear.toNat + 2)) ∧
    (s.dec.old = none → s.dec.avail.toNat = s.dec.clear.toNat + 2)

/-! ### The expansion of a code -/

/-- The walk of 40_lzw.md R126 from `c` visits the codes `links`, each above CLEAR and each the PREFIX of the one
before, and ends at the base code `base`, at most CLEAR. -/
def State.expandsTo (s : State) (base : Code) : Code → List Code → Prop
  | c, [] => c = base ∧ c.toNat ≤ s.dec.clear.toNat
  | c, d :: ds => c = d ∧ s.dec.clear.toNat < c.toNat ∧ s.expandsTo base (readMem s.prefixMem c.toNat) ds

/-- The walk from `c` visits `n` codes above CLEAR without coming to an end. -/
def State.walksPast (s : State) : Code → Nat → Prop
  | _, 0 => True
  | c, n + 1 => s.dec.clear.toNat < c.toNat ∧ s.walksPast (readMem s.prefixMem c.toNat) n

/-- The width after an entry is added (40_lzw.md R127): one bit more exactly when the new AVAIL is a multiple of 2^CSIZE
and below 4096. -/
def State.widthAfterAdd (s : State) : Nat :=
  if (s.dec.avail.toNat + 1) % 2 ^ s.dec.csize.toNat = 0 ∧ s.dec.avail.toNat + 1 < 4096 then s.dec.csize.toNat + 1
  else s.dec.csize.toNat

/-- What EXPAND_AND_ADD leaves when it does not stop (40_lzw.md R126, R127): the entry with prefix `old` and suffix `f` at
AVAIL and no other entry changed, AVAIL one higher, FIRST = `f`, INCODE and OLD = `code`, the width as R127 says with
its mask, and every other register of the decoder but TOP unchanged. -/
def State.addsEntry (s t : State) (old : Code) (f : Byte) (code : Code) : Prop :=
  (∀ i, readMem t.prefixMem i = if i = s.dec.avail.toNat then old else readMem s.prefixMem i) ∧
  (∀ i, readMem t.suffixMem i = if i = s.dec.avail.toNat then f else readMem s.suffixMem i) ∧
  t.dec.avail.toNat = s.dec.avail.toNat + 1 ∧ t.dec.first = f ∧ t.dec.incode = code ∧ t.dec.old = some code ∧
  t.dec.csize.toNat = s.widthAfterAdd ∧ t.dec.cmask.toNat = 2 ^ s.widthAfterAdd - 1 ∧
  t.dec.mcs = s.dec.mcs ∧ t.dec.clear = s.dec.clear ∧ t.dec.eoi = s.dec.eoi ∧ t.dec.datum = s.dec.datum ∧
  t.dec.bits = s.dec.bits ∧ t.dec.sbcnt = s.dec.sbcnt ∧ t.dec.chainEnd = s.dec.chainEnd ∧ t.dec.pi = s.dec.pi ∧
  t.dec.npix = s.dec.npix

/-- The stack holds `bytes` from entry 0 up, TOP counts them, and no other entry changed. -/
def State.stackHolds (s t : State) (bytes : List Byte) : Prop :=
  t.dec.top.toNat = bytes.length ∧
  ∀ i, readMem t.stack i = bytes[i]?.getD (readMem s.stack i)

/-- What a STACK_FULL stop in the middle of the code `code` leaves (40_lzw.md R112, R117, R126): TERM, ECODE and PIX_COUNT say
so, ZEROFILL follows, and no entry has changed. The stack is full, INCODE is the code, FIRST is as before or, if the push of
a base code's suffix stopped, that suffix, and every other register of the decoder is as before. -/
def State.stopsStackFull (s t : State) (code : Code) : Prop :=
  t.status = { s.status with
    term := .stackFull
    ecode := if s.status.ecode = .none then .lzwFormat else s.status.ecode } ∧
  t.pixCount = s.dec.pi ∧ t.phase = .zerofill ∧ s.sameDict t ∧
  t.dec = { s.dec with top := 4096, first := t.dec.first, incode := code } ∧
  (t.dec.first = s.dec.first ∨
    ∃ base : Code, base.toNat ≤ s.dec.clear.toNat ∧ t.dec.first = readMem s.suffixMem base.toNat) ∧
  sameMem s.ibuf t.ibuf ∧ t.bytesIn = s.bytesIn ∧ s.sameRun t ∧ s.sameConfig t ∧ s.sameLast t ∧ s.sameCanvas t

/-- The registers an entry-adding code needs, as decoding keeps them (10_state.md R20): an empty stack, room in the
dictionary, a width of at most 12 with its mask; and the three memories in their canonical form. -/
def State.readyToAdd (s : State) : Prop :=
  s.dec.top = 0 ∧ s.dec.avail.toNat < 4096 ∧ s.dec.csize.toNat ≤ 12 ∧
  s.dec.cmask.toNat = 2 ^ s.dec.csize.toNat - 1 ∧ memWf s.prefixMem ∧ memWf s.suffixMem ∧ memWf s.stack

/-! ### Runs -/

/-- `k` steps of the block alone. -/
def blockRun : Nat → State → Result
  | 0, s => .next s
  | k + 1, s =>
    match s.blockStep with
    | .next t => blockRun k t
    | .fault e => .fault e
    | .refused e => .refused e

/-- The end of a run (42_commands.md R190): the host program has ended and PHASE is IDLE. -/
def State.runEnded (s : State) : Bool :=
  s.env.queue.isEmpty && s.phase == .idle

end Sys2Proof.Machine
end

