-- ==== Sys2Proof/Certificates/Slice0/Obligations.lean ====
section
/-! DEFINITION. The statements for the provers. Each docstring names the rules of spec/ it formalises. -/

open Sys2Proof Sys2Proof.Machine

/-! ### Encodings -/

/-- 30_encoding.md R83, R86, R91: decoding the encoding of a well-formed instruction gives it back, in each format, with
every operand at every value the format admits. -/
def Obligations.DecodeInvertsEncode : Prop :=
  ∀ (f : Format) (i : Instr), i.wfIn f = true → decode f (encode f i) = .ok i

/-- 30_encoding.md R90: the class of a code, by the order of its table. -/
def Obligations.CodeClassFollowsTheTable : Prop :=
  ∀ (ctx : CodeCtx) (code : Code), ctx.legal = true →
    let c := code.toNat
    let ordinary := c ≤ ctx.avail.toNat ∧ c ≠ ctx.eoi.toNat ∧ c ≠ ctx.clear.toNat
    (ctx.avail.toNat < c → classify ctx code = .badcode code) ∧
    (c = ctx.eoi.toNat → classify ctx code = .eoi) ∧
    (c = ctx.clear.toNat → classify ctx code = .clear) ∧
    (ordinary → ctx.old = none → classify ctx code = .first code) ∧
    (ordinary → ctx.old ≠ none → ctx.avail.toNat = 4096 → classify ctx code = .dictfull code) ∧
    (ordinary → ctx.old ≠ none → ctx.avail.toNat ≠ 4096 → c = ctx.avail.toNat → classify ctx code = .kwkwk code) ∧
    (ordinary → ctx.old ≠ none → ctx.avail.toNat ≠ 4096 → c < ctx.clear.toNat → classify ctx code = .literal code) ∧
    (ordinary → ctx.old ≠ none → ctx.avail.toNat ≠ 4096 → ctx.clear.toNat + 2 ≤ c → c < ctx.avail.toNat →
      classify ctx code = .dict code)

/-- The other direction of the round trip for codes: the class a code is given is well formed beside the registers, and
its encoding is the code. -/
def Obligations.EncodeInvertsClassify : Prop :=
  ∀ (ctx : CodeCtx) (code : Code), ctx.legal = true → ctx.fits code.toNat = true →
    (classify ctx code).wfIn (.code ctx) = true ∧ encode (.code ctx) (classify ctx code) = code.setWidth 32

/-- 10_state.md R24, 30_encoding.md R91: a CTRL word is decided by its bits [4:0], and NOP and RESET by its bits
[3:0]. -/
def Obligations.CtrlWordIgnoresItsHighBits : Prop :=
  ∀ (v w : Word), v.extractLsb' 0 4 = w.extractLsb' 0 4 →
    (v.getLsbD 4 = w.getLsbD 4 → decodeCtrl v = decodeCtrl w) ∧
    (v.extractLsb' 0 4 = 0 → decodeCtrl v = .nop) ∧ (v.extractLsb' 0 4 = 1 → decodeCtrl v = .reset)

/-- Words written out from the encodings of 30_encoding.md R86, R90 and R91 decode to what they stand for. -/
def Obligations.SampleEncodingsDecode : Prop :=
  decode .ctrl 0x00000002#32 = .ok (.canvasInit false) ∧ decode .ctrl 0x00000014#32 = .ok (.frame true) ∧
  decode .ctrl 0xFFFFFFE3#32 = .ok (.decode false) ∧ decode .ctrl 0x0000001F#32 = .ok (.reservedCmd15 true) ∧
  decode (.code ⟨3, 4, 5, 6, some 1⟩) 6#32 = .ok (.kwkwk 6) ∧
  decode (.code ⟨3, 4, 5, 7, some 6⟩) 6#32 = .ok (.dict 6) ∧
  decode (.code ⟨3, 4, 5, 6, none⟩) 4#32 = .ok .clear ∧
  decode (.code ⟨3, 4, 5, 6, none⟩) 8#32 = .error .codeTooWide ∧
  decode .dispose 0#32 = .ok .disposeUnspecified ∧ decode .dispose 1#32 = .ok .disposeNone ∧
  decode .dispose 2#32 = .ok .disposeBackground ∧ decode .dispose 3#32 = .ok .disposePrevious ∧
  decode .dispose 4#32 = .ok (.disposeReserved 4) ∧ decode .dispose 5#32 = .ok (.disposeReserved 5) ∧
  decode .dispose 6#32 = .ok (.disposeReserved 6) ∧ decode .dispose 7#32 = .ok (.disposeReserved 7)

/-! ### The code classes -/

/-- 40_lzw.md R112, R118, R119, R122: BADCODE, EOI and DICTFULL stop the decode phase with their cause: TERM, PIX_COUNT,
ECODE and PHASE are written and nothing else. -/
def Obligations.StoppingCodesRecordTheirCause : Prop :=
  ∀ (s : State) (code : Code),
    ∀ p ∈ [(Instr.badcode code, Term.badCode, true), (Instr.eoi, Term.eoi, false),
        (Instr.dictfull code, Term.dictFull, true)],
      ∃ t, exec p.1 s = .next t ∧
        t.status = { s.status with
          term := p.2.1
          ecode := if p.2.2 = true ∧ s.status.ecode = .none then .lzwFormat else s.status.ecode } ∧
        t.pixCount = s.dec.pi ∧ t.phase = .zerofill ∧ t.dec = s.dec ∧ t.bytesIn = s.bytesIn ∧
        s.sameRun t ∧ s.sameConfig t ∧ s.sameLast t ∧ s.sameCanvas t ∧ s.sameStreamMems t

/-- 40_lzw.md R120: CLEAR sets the width back to MCS + 1, AVAIL to CLEAR + 2 and OLD to NULL, and writes nothing
else. -/
def Obligations.ClearResetsWidthAndDictionary : Prop :=
  ∀ s : State, s.dec.mcs.toNat ≤ 11 → s.dec.clear.toNat ≤ 2048 →
    ∃ t, exec .clear s = .next t ∧
      t.dec.csize.toNat = s.dec.mcs.toNat + 1 ∧ t.dec.cmask.toNat = 2 ^ (s.dec.mcs.toNat + 1) - 1 ∧
      t.dec.avail.toNat = s.dec.clear.toNat + 2 ∧ t.dec.old = none ∧
      t.dec = { s.dec with csize := t.dec.csize, cmask := t.dec.cmask, avail := t.dec.avail, old := none } ∧
      s.sameReport t ∧ s.sameRun t ∧ s.sameConfig t ∧ s.sameLast t ∧ s.sameCanvas t ∧ s.sameStreamMems t

/-- 40_lzw.md R121: FIRST emits SUFFIX[code], records it as FIRST and the code as OLD, and adds no entry. -/
def Obligations.FirstCodeEmitsItsSuffix : Prop :=
  ∀ (s : State) (code : Code), s.dec.top = 0 → memWf s.stack →
    ∃ t, exec (.first code) s = .next t ∧
      s.stackHolds t [readMem s.suffixMem code.toNat] ∧
      t.dec = { s.dec with top := 1, first := readMem s.suffixMem code.toNat, old := some code } ∧
      s.sameDict t ∧ sameMem s.ibuf t.ibuf ∧
      s.sameReport t ∧ s.sameRun t ∧ s.sameConfig t ∧ s.sameLast t ∧ s.sameCanvas t

/-- 40_lzw.md R124 with R126 and R127: LITERAL emits SUFFIX[code] and adds the entry with prefix OLD and that suffix. -/
def Obligations.LiteralEmitsAndAddsEntry : Prop :=
  ∀ (s : State) (code old : Code), s.dec.old = some old → s.readyToAdd → code.toNat < s.dec.clear.toNat →
    ∃ t, exec (.literal code) s = .next t ∧
      s.stackHolds t [readMem s.suffixMem code.toNat] ∧
      s.addsEntry t old (readMem s.suffixMem code.toNat) code ∧ sameMem s.ibuf t.ibuf ∧
      s.sameReport t ∧ s.sameRun t ∧ s.sameConfig t ∧ s.sameLast t ∧ s.sameCanvas t

/-- 40_lzw.md R125 with R117, R126 and R127: DICT pushes the suffixes along the links of the code down to the base code, whose
own suffix is pushed last, and adds the entry with prefix OLD and that suffix; if it visits 4096 links, the stack is
full before the base code's suffix, and it stops with STACK_FULL. -/
def Obligations.DictExpandsItsLinks : Prop :=
  ∀ (s : State) (code old : Code), s.dec.old = some old → s.readyToAdd →
    (∀ (base : Code) (links : List Code), s.expandsTo base code links → links.length < 4096 →
      ∃ t, exec (.dict code) s = .next t ∧
        s.stackHolds t (links.map (fun c => readMem s.suffixMem c.toNat) ++ [readMem s.suffixMem base.toNat]) ∧
        s.addsEntry t old (readMem s.suffixMem base.toNat) code ∧ sameMem s.ibuf t.ibuf ∧
        s.sameReport t ∧ s.sameRun t ∧ s.sameConfig t ∧ s.sameLast t ∧ s.sameCanvas t) ∧
    (s.walksPast code 4096 → ∃ t, exec (.dict code) s = .next t ∧ s.stopsStackFull t code)

/-- 40_lzw.md R123 with R117, R126 and R127: KWKWK pushes FIRST, then expands OLD as DICT expands its code, and adds the entry with
prefix OLD; if the expansion of OLD and FIRST exceed the 4096 entries of the stack, it stops with STACK_FULL. -/
def Obligations.KwkwkExpandsOldAfterFirst : Prop :=
  ∀ (s : State) (code old : Code), s.dec.old = some old → s.readyToAdd →
    (∀ (base : Code) (links : List Code), s.expandsTo base old links → links.length < 4095 →
      ∃ t, exec (.kwkwk code) s = .next t ∧
        s.stackHolds t (s.dec.first :: links.map (fun c => readMem s.suffixMem c.toNat) ++
          [readMem s.suffixMem base.toNat]) ∧
        s.addsEntry t old (readMem s.suffixMem base.toNat) code ∧ sameMem s.ibuf t.ibuf ∧
        s.sameReport t ∧ s.sameRun t ∧ s.sameConfig t ∧ s.sameLast t ∧ s.sameCanvas t) ∧
    (s.walksPast old 4095 → ∃ t, exec (.kwkwk code) s = .next t ∧ s.stopsStackFull t code)

/-- 40_lzw.md R112, R126: a stop in the middle of a code adds no entry and leaves every decoder register but TOP, FIRST and
INCODE; a code that does not stop adds exactly one entry, at AVAIL: {OLD, FIRST}, and no other entry changes. -/
def Obligations.StoppedCodeAddsNoEntry : Prop :=
  ∀ (s t : State) (code : Code), s.phase = .decode → s.dec.avail.toNat < 4096 →
    ∀ i ∈ [Instr.kwkwk code, Instr.literal code, Instr.dict code], exec i s = .next t →
      (t.phase = .decode ∧ t.dec.avail.toNat = s.dec.avail.toNat + 1 ∧ t.dec.old = some code ∧
        t.status = s.status ∧ t.pixCount = s.pixCount ∧
        (∀ i, i ≠ s.dec.avail.toNat → readMem t.prefixMem i = readMem s.prefixMem i ∧
          readMem t.suffixMem i = readMem s.suffixMem i) ∧
        (memWf s.prefixMem → memWf s.suffixMem →
          s.dec.old = some (readMem t.prefixMem s.dec.avail.toNat) ∧
          readMem t.suffixMem s.dec.avail.toNat = t.dec.first)) ∨
      (t.phase = .zerofill ∧ t.pixCount = s.dec.pi ∧ s.sameDict t ∧
        t.status = { s.status with
          term := .stackFull
          ecode := if s.status.ecode = .none then .lzwFormat else s.status.ecode } ∧
        t.dec = { s.dec with top := t.dec.top, first := t.dec.first, incode := t.dec.incode })

/-! ### The commands: the CTRL write -/

/-- 42_commands.md R181, R180: NOP does nothing while idle, and is an ignored busy write while BUSY. -/
def Obligations.NopChangesNothing : Prop :=
  ∀ s : State, (s.busy = false → exec .nop s = .next s) ∧
    (s.busy = true → exec .nop s = .next { s with status := { s.status with bwerr := true } })

/-- 42_commands.md R182, 70_reset_and_hazards.md R230: RESET, in any state, gives every register and every memory but the
canvases its reset value, and does not touch the input port; power-on gives the same. -/
def Obligations.ResetAppliesTheResetState : Prop :=
  let atReset (t : State) : Prop :=
    t.phase = .idle ∧ t.cmdl = 0 ∧ t.drainl = false ∧
    (∀ w, t.loadWord w = if w = .status then 0x000000F0#32 else if w = .id then 0x4C5A5701#32 else 0#32) ∧
    t.dec = ⟨0, 0, 0, 0, 0, 0, none, 0, 0, 0, 0, 0, false, 0, 0, 0⟩ ∧
    (∀ i, readMem t.prefixMem i = 0 ∧ readMem t.suffixMem i = 0 ∧ readMem t.stack i = 0 ∧ readMem t.ibuf i = 0 ∧
      readMem t.gct i = 0 ∧ readMem t.lct i = 0) ∧
    t.irq = false
  (∀ s : State, ∃ t, exec .reset s = .next t ∧ atReset t ∧ t.env = s.env ∧ t.par = s.par) ∧ atReset State.reset

/-- 42_commands.md R180 (case 4), 10_state.md R26: a command other than NOP and RESET written while idle is latched with its
DRAIN bit, the per-command fields are cleared, PHASE is CHECK, and nothing else changes. -/
def Obligations.IdleCommandIsAccepted : Prop :=
  ∀ (s : State) (drain : Bool), s.busy = false →
    ∀ p ∈ [(Instr.canvasInit drain, 2#4), (Instr.decode drain, 3#4), (Instr.frame drain, 4#4),
        (Instr.reservedCmd5 drain, 5#4), (Instr.reservedCmd6 drain, 6#4), (Instr.reservedCmd7 drain, 7#4),
        (Instr.reservedCmd8 drain, 8#4), (Instr.reservedCmd9 drain, 9#4), (Instr.reservedCmd10 drain, 10#4),
        (Instr.reservedCmd11 drain, 11#4), (Instr.reservedCmd12 drain, 12#4), (Instr.reservedCmd13 drain, 13#4),
        (Instr.reservedCmd14 drain, 14#4), (Instr.reservedCmd15 drain, 15#4)],
      ∃ t, exec p.1 s = .next t ∧ t.cmdl = p.2 ∧ t.drainl = drain ∧ t.phase = .check ∧ t.busy = true ∧
        t.status = { s.status with done := false, err := false, term := .none, ecode := .none, dtrunc := false } ∧
        t.pixCount = 0 ∧ t.bytesIn = 0 ∧ t.env = s.env ∧ t.started = s.started ∧ t.drainLeft = s.drainLeft ∧
        t.dec = s.dec ∧ s.sameConfig t ∧ s.sameLast t ∧ s.sameCanvas t ∧ s.sameStreamMems t

/-- 42_commands.md R180: a write to CTRL is handled by the first of four cases: RESET; an ignored write while BUSY; NOP; else the
command and its DRAIN bit are latched, the fields of 10_state.md R26 are cleared and PHASE is CHECK. No step of the block
writes the two latches. -/
def Obligations.CtrlWriteFollowsItsCases : Prop :=
  ∀ (s : State) (v : Word),
    let cmd := v.extractLsb' 0 4
    (cmd = 1 → s.hostWrite s.par.base v = exec .reset s) ∧
    (cmd ≠ 1 → s.busy = true →
      s.hostWrite s.par.base v = .next { s with status := { s.status with bwerr := true } }) ∧
    (cmd = 0 → s.busy = false → s.hostWrite s.par.base v = .next s) ∧
    (cmd ≠ 0 → cmd ≠ 1 → s.busy = false →
      s.hostWrite s.par.base v = .next { s with
        cmdl := cmd, drainl := v.getLsbD 4, phase := .check
        status := { s.status with done := false, err := false, term := .none, ecode := .none, dtrunc := false }
        pixCount := 0, bytesIn := 0 }) ∧
    (∀ t, s.blockStep = .next t → t.cmdl = s.cmdl ∧ t.drainl = s.drainl)

/-! ### The commands: CHECK, INIT and completion -/

/-- 42_commands.md R187, 60_exceptions.md R204: a reserved command completes in its CHECK step with BAD_COMMAND, and nothing but
STATUS and PHASE changes beyond its start (the latches and the cleared fields of 10_state.md R26). -/
def Obligations.ReservedCommandCompletesBadCommand : Prop :=
  ∀ (s : State) (drain : Bool), s.busy = false →
    ∀ p ∈ [(Instr.reservedCmd5 drain, 5#4), (Instr.reservedCmd6 drain, 6#4), (Instr.reservedCmd7 drain, 7#4),
        (Instr.reservedCmd8 drain, 8#4), (Instr.reservedCmd9 drain, 9#4), (Instr.reservedCmd10 drain, 10#4),
        (Instr.reservedCmd11 drain, 11#4), (Instr.reservedCmd12 drain, 12#4), (Instr.reservedCmd13 drain, 13#4),
        (Instr.reservedCmd14 drain, 14#4), (Instr.reservedCmd15 drain, 15#4)],
      ∃ t u, exec p.1 s = .next t ∧ t.blockStep = .next u ∧
        u = { s with
          cmdl := p.2, drainl := drain, phase := .idle, pixCount := 0, bytesIn := 0
          status := { s.status with done := true, err := true, term := .none, ecode := .badCommand, dtrunc := false } } ∧
        (s.status.canvasValid = false → s.status.bwerr = false → u.statusWord = 0x000007F6#32)

/-- 42_commands.md R183: with a legal size CANVAS_INIT completes in two steps of the block: the size is latched, the canvases
are zero, LAST_* and FRAME_COUNT are cleared, CANVAS_VALID and DONE are set, and the rest is untouched. -/
def Obligations.CanvasInitZeroesTheCanvases : Prop :=
  ∀ (s : State) (drain : Bool), s.busy = false →
    1 ≤ s.canvasSize.x.toNat → s.canvasSize.x.toNat ≤ s.par.maxW →
    1 ≤ s.canvasSize.y.toNat → s.canvasSize.y.toNat ≤ s.par.maxH →
    ∃ t u, exec (.canvasInit drain) s = .next t ∧ blockRun 2 t = .next u ∧ u.phase = .idle ∧
      u.activeSize = s.canvasSize ∧ (∀ i, readMem u.cur i = 0 ∧ readMem u.prev i = 0 ∧ readMem u.scr i = 0) ∧
      u.lastPos = ⟨0, 0⟩ ∧ u.lastSize = ⟨0, 0⟩ ∧ u.lastDispose = 0 ∧ u.lastValid = false ∧ u.frameCount = 0 ∧
      u.status = ⟨true, false, s.status.bwerr, .none, .none, true, false⟩ ∧ u.pixCount = 0 ∧ u.bytesIn = 0 ∧
      u.env = s.env ∧ u.dec = s.dec ∧ s.sameConfig u ∧ s.sameStreamMems u

/-- 42_commands.md R183, 60_exceptions.md R200: a size of 0 or above MAX_W or MAX_H raises BAD_CANVAS_SIZE at CHECK, and nothing
but STATUS and PHASE changes. -/
def Obligations.CanvasInitRefusesBadSize : Prop :=
  ∀ s : State, s.phase = .check → s.cmdl = 2 →
    (s.canvasSize.x = 0 ∨ s.par.maxW < s.canvasSize.x.toNat ∨ s.canvasSize.y = 0 ∨ s.par.maxH < s.canvasSize.y.toNat) →
    s.blockStep = .next { s with
      status := { s.status with done := true, err := true, ecode := .badCanvasSize }, phase := .idle }

/-- 42_commands.md R186, 60_exceptions.md R200, R203: CHECK of FRAME: the first test that fails raises its error and changes
nothing but STATUS and PHASE; if none fails, NPIX is IW * IH and PHASE is DISPOSE. -/
def Obligations.FrameCheckRaisesTheFirstError : Prop :=
  ∀ s : State, s.phase = .check → s.cmdl = 4 →
    let raised (c : Ecode) : State :=
      { s with status := { s.status with done := true, err := true, ecode := c }, phase := .idle }
    let noTable := s.frameCtrl.lctPresent = false ∧ s.gctPresent = false
    let tooLarge := s.par.npixMax < s.frameSize.x.toNat * s.frameSize.y.toNat
    (s.status.canvasValid = false → s.blockStep = .next (raised .noCanvas)) ∧
    (s.status.canvasValid = true → noTable → s.blockStep = .next (raised .missingCt)) ∧
    (s.status.canvasValid = true → ¬ noTable → tooLarge → s.blockStep = .next (raised .frameTooLarge)) ∧
    (s.status.canvasValid = true → ¬ noTable → ¬ tooLarge →
      ∃ t, s.blockStep = .next t ∧ t.dec.npix.toNat = s.frameSize.x.toNat * s.frameSize.y.toNat ∧
        t = { s with phase := .dispose, dec := { s.dec with npix := t.dec.npix } })

/-- 42_commands.md R184, 60_exceptions.md R200: CHECK of DECODE: more than NPIX_MAX pixels raise FRAME_TOO_LARGE with no register
but STATUS changed (for NPIX this is the model's reading, log 9); else NPIX is IW * IH and DECODE starts. -/
def Obligations.DecodeCheckTestsCapacity : Prop :=
  ∀ s : State, s.phase = .check → s.cmdl = 3 →
    (s.par.npixMax < s.frameSize.x.toNat * s.frameSize.y.toNat →
      s.blockStep = .next { s with
        status := { s.status with done := true, err := true, ecode := .frameTooLarge }, phase := .idle }) ∧
    (s.frameSize.x.toNat * s.frameSize.y.toNat ≤ s.par.npixMax →
      ∃ t, s.blockStep = .next t ∧ t.dec.npix.toNat = s.frameSize.x.toNat * s.frameSize.y.toNat ∧
        t = { s with phase := .decode, started := false, dec := { s.dec with npix := t.dec.npix } })

/-! ### Disposal -/

/-- 41_compositor.md R151, R154: DISPOSE_UNSPECIFIED, DISPOSE_NONE and DISPOSE_RESERVED copy CUR into SCR, DISPOSE_PREVIOUS
copies PREV into SCR; nothing else changes. -/
def Obligations.DisposeCopiesACanvas : Prop :=
  ∀ (s : State) (m : BitVec 3),
    ∀ p ∈ [(Instr.disposeUnspecified, s.cur), (Instr.disposeNone, s.cur), (Instr.disposeReserved m, s.cur),
        (Instr.disposePrevious, s.prev)],
      ∃ t, exec p.1 s = .next t ∧ (∀ k < s.canvasLen, readMem t.scr k = readMem p.2 k) ∧
        (∀ k, s.canvasLen ≤ k → readMem t.scr k = readMem s.scr k) ∧ t = { s with scr := t.scr }

/-- 41_compositor.md R152, R153: DISPOSE_BACKGROUND copies CUR into SCR and fills the last frame's rectangle, clipped to the
canvas, with BGCOLOR, or with 0 if the frame now running declares transparency. -/
def Obligations.DisposeBackgroundFillsTheRectangle : Prop :=
  ∀ s : State, memWf s.cur → memWf s.scr →
    ∃ t, exec .disposeBackground s = .next t ∧
      (∀ x y, x < s.activeSize.x.toNat → y < s.activeSize.y.toNat →
        readMem t.scr (y * s.activeSize.x.toNat + x) =
          if s.lastPos.x.toNat ≤ x ∧ x < s.lastPos.x.toNat + s.lastSize.x.toNat ∧
              s.lastPos.y.toNat ≤ y ∧ y < s.lastPos.y.toNat + s.lastSize.y.toNat
          then (if s.frameCtrl.transp then 0 else s.bgcolor)
          else readMem s.cur (y * s.activeSize.x.toNat + x)) ∧
      (∀ k, s.canvasLen ≤ k → readMem t.scr k = readMem s.scr k) ∧ t = { s with scr := t.scr }

/-! ### The decode phase -/

/-- 40_lzw.md R111: decode start with a minimum code size of 0 to 11. That INCODE becomes 0 is the model's reading of 10_state.md
R51, which R111's pseudocode does not spell out (log 18). -/
def Obligations.DecodeStartSetsTheDecoder : Prop :=
  ∀ (s : State) (b : Byte), s.phase = .decode → s.started = false →
    s.env.port.answer = .byte b → b.toNat < 12 →
    ∃ t, s.blockStep = .next t ∧ t.phase = .decode ∧ t.started = true ∧
      t.dec.mcs.toNat = b.toNat ∧ t.dec.clear.toNat = 2 ^ b.toNat ∧ t.dec.eoi.toNat = 2 ^ b.toNat + 1 ∧
      t.dec.avail.toNat = 2 ^ b.toNat + 2 ∧ t.dec.csize.toNat = b.toNat + 1 ∧
      t.dec.cmask.toNat = 2 ^ (b.toNat + 1) - 1 ∧ t.dec.old = none ∧ t.dec.first = 0 ∧ t.dec.datum = 0 ∧
      t.dec.bits = 0 ∧ t.dec.sbcnt = 0 ∧ t.dec.chainEnd = false ∧ t.dec.top = 0 ∧ t.dec.pi = 0 ∧
      t.dec.npix = s.dec.npix ∧ t.dec.incode = 0 ∧
      (∀ c, readMem t.suffixMem c = if c < 2 ^ b.toNat then BitVec.ofNat 8 c else readMem s.suffixMem c) ∧
      (∀ c, readMem t.prefixMem c = if c < 2 ^ b.toNat then 0 else readMem s.prefixMem c) ∧
      t.env.port = { s.env.port with pos := s.env.port.pos + 1 } ∧ t.bytesIn = s.bytesIn + 1 ∧
      t.status = s.status ∧ t.pixCount = s.pixCount ∧ t.stack = s.stack ∧ t.ibuf = s.ibuf ∧
      s.sameConfig t ∧ s.sameLast t ∧ s.sameCanvas t

/-- 40_lzw.md R111, R112: a minimum code size of 12 or more stops with BAD_MCS, and an `Err` with TRUNCATED, before any code, with
the registers that decode start clears first (INCODE among them by log 18); a port that does not answer leaves the step
without effect (42_commands.md R188). -/
def Obligations.DecodeStartRefusesBadInput : Prop :=
  ∀ s : State, s.phase = .decode → s.started = false →
    let cleared (chainEnd : Bool) : Decoder :=
      { s.dec with
        mcs := 0, csize := 0, avail := 0, chainEnd := chainEnd, sbcnt := 0, datum := 0, bits := 0, top := 0, pi := 0
        first := 0, incode := 0, old := none }
    let stopped (t : State) (cause : Term) : Prop :=
      t.phase = .zerofill ∧ t.pixCount = 0 ∧ t.lzwStateWord = 0 ∧
      t.status = { s.status with
        term := cause
        ecode := if s.status.ecode = .none then .lzwFormat else s.status.ecode } ∧
      s.sameStreamMems t ∧ s.sameConfig t ∧ s.sameLast t ∧ s.sameCanvas t
    (∀ b : Byte, s.env.port.answer = .byte b → 12 ≤ b.toNat →
      ∃ t, s.blockStep = .next t ∧ stopped t .badMcs ∧ t.dec = cleared false ∧
        t.env.port = { s.env.port with pos := s.env.port.pos + 1 } ∧ t.bytesIn = s.bytesIn + 1) ∧
    (s.env.port.answer = .err →
      ∃ t, s.blockStep = .next t ∧ stopped t .truncated ∧ t.dec = cleared true ∧ t.env = s.env ∧
        t.bytesIn = s.bytesIn) ∧
    (s.env.port.answer = .waiting → s.blockStep = .next s)

/-- 40_lzw.md R113, R114, 20_memory.md R63: with pixels to go, an empty stack and fewer than CSIZE bits, the step asks for one
byte: a length byte when SBCNT = 0 (0 ends the chain with DATA_END), else a data byte, which enters the bit buffer
above the bits it holds; `Err` stops with TRUNCATED and LZW_FORMAT. -/
def Obligations.LoadTakesOneByte : Prop :=
  ∀ s : State, s.decoding = true → s.dec.pi.toNat < s.dec.npix.toNat → s.dec.top = 0 →
    s.dec.bits.toNat < s.dec.csize.toNat → s.dec.csize.toNat ≤ 12 → s.dec.datum.toNat < 2 ^ s.dec.bits.toNat →
    (∀ b : Byte, s.env.port.answer = .byte b →
      ∃ t, s.blockStep = .next t ∧ t.env.port = { s.env.port with pos := s.env.port.pos + 1 } ∧
        t.bytesIn = s.bytesIn + 1 ∧ s.sameStreamMems t ∧ s.sameConfig t ∧ s.sameLast t ∧ s.sameCanvas t ∧
        (s.dec.sbcnt = 0 → b ≠ 0 → t.dec = { s.dec with sbcnt := b } ∧ t.phase = .decode ∧ t.status = s.status ∧
          t.pixCount = s.pixCount) ∧
        (s.dec.sbcnt = 0 → b = 0 → t.dec = { s.dec with chainEnd := true } ∧ t.phase = .zerofill ∧
          t.status = { s.status with term := .dataEnd } ∧ t.pixCount = s.dec.pi) ∧
        (s.dec.sbcnt ≠ 0 → t.phase = .decode ∧ t.status = s.status ∧ t.pixCount = s.pixCount ∧
          t.dec.datum.toNat = s.dec.datum.toNat + b.toNat * 2 ^ s.dec.bits.toNat ∧
          t.dec.bits.toNat = s.dec.bits.toNat + 8 ∧ t.dec.sbcnt.toNat = s.dec.sbcnt.toNat - 1 ∧
          t.dec = { s.dec with datum := t.dec.datum, bits := t.dec.bits, sbcnt := t.dec.sbcnt })) ∧
    (s.env.port.answer = .err →
      ∃ t, s.blockStep = .next t ∧ t.dec = { s.dec with chainEnd := true } ∧ t.phase = .zerofill ∧
        t.status = { s.status with
          term := .truncated
          ecode := if s.status.ecode = .none then .lzwFormat else s.status.ecode } ∧
        t.pixCount = s.dec.pi ∧ t.env = s.env ∧ t.bytesIn = s.bytesIn ∧ s.sameStreamMems t ∧ s.sameConfig t ∧
        s.sameLast t ∧ s.sameCanvas t) ∧
    (s.env.port.answer = .waiting → s.blockStep = .next s)

/-- 40_lzw.md R113, R116: with pixels to go and bytes on the stack, the step moves the top byte to IBUF[PI] and changes nothing
else. -/
def Obligations.PopMovesOneByte : Prop :=
  ∀ s : State, s.decoding = true → s.dec.pi.toNat < s.dec.npix.toNat → 0 < s.dec.top.toNat → memWf s.ibuf →
    ∃ t, s.blockStep = .next t ∧
      (∀ i, readMem t.ibuf i =
        if i = s.dec.pi.toNat then readMem s.stack (s.dec.top.toNat - 1) else readMem s.ibuf i) ∧
      t.dec.top.toNat = s.dec.top.toNat - 1 ∧ t.dec.pi.toNat = s.dec.pi.toNat + 1 ∧
      t = { s with ibuf := t.ibuf, dec := { s.dec with top := t.dec.top, pi := t.dec.pi } }

/-- 40_lzw.md R113, R112: when PI has reached NPIX the decode phase stops with COUNT, bytes on the stack or not. -/
def Obligations.PixelCountStopsDecoding : Prop :=
  ∀ s : State, s.decoding = true → s.dec.npix.toNat ≤ s.dec.pi.toNat →
    s.blockStep = .next { s with
      status := { s.status with term := .count }, pixCount := s.dec.pi, phase := .zerofill }

/-- 40_lzw.md R128, R129, 42_commands.md R184, R185, R204: ZEROFILL zeroes IBUF[PI..NPIX-1]; then DRAIN runs if the DRAIN bit is 1
and the chain has not ended, else FRAME goes to PLACE and DECODE completes. R128 says PHASE <- DRAIN: that a DRAIN which
does not run takes no step of its own is the model's reading (log 7). -/
def Obligations.ZerofillZeroesTheRest : Prop :=
  ∀ s : State, s.phase = .zerofill →
    ∃ t, s.blockStep = .next t ∧
      (∀ i, readMem t.ibuf i = if s.dec.pi.toNat ≤ i ∧ i < s.dec.npix.toNat then 0 else readMem s.ibuf i) ∧
      (s.drainl = true → s.dec.chainEnd = false → t = { s with ibuf := t.ibuf, phase := .drain, drainLeft := 0 }) ∧
      (s.drainl = false ∨ s.dec.chainEnd = true → s.cmdl = 4 → t = { s with ibuf := t.ibuf, phase := .place }) ∧
      (s.drainl = false ∨ s.dec.chainEnd = true → s.cmdl = 3 →
        t = { s with
          ibuf := t.ibuf, phase := .idle
          status := { s.status with done := true, err := s.status.ecode != .none } })

/-- 40_lzw.md R129: one step of DRAIN in a DECODE or FRAME command takes one byte: the rest of the sub-block first, then length
bytes with their data bytes; a length of 0 ends the chain; `Err` sets DTRUNC, and ECODE if it was 0. -/
def Obligations.DrainTakesTheRestOfTheChain : Prop :=
  ∀ s : State, s.phase = .drain →
    (∀ b : Byte, s.env.port.answer = .byte b →
      ∃ t, s.blockStep = .next t ∧ t.env.port = { s.env.port with pos := s.env.port.pos + 1 } ∧
        t.bytesIn = s.bytesIn + 1 ∧ t.pixCount = s.pixCount ∧ s.sameStreamMems t ∧ s.sameConfig t ∧ s.sameLast t ∧
        s.sameCanvas t ∧
        (s.dec.sbcnt ≠ 0 → t.phase = .drain ∧ t.dec = { s.dec with sbcnt := s.dec.sbcnt - 1 } ∧
          t.drainLeft = s.drainLeft ∧ t.status = s.status) ∧
        (s.dec.sbcnt = 0 → s.drainLeft ≠ 0 → t.phase = .drain ∧ t.dec = s.dec ∧
          t.drainLeft = s.drainLeft - 1 ∧ t.status = s.status) ∧
        (s.dec.sbcnt = 0 → s.drainLeft = 0 → b ≠ 0 → t.phase = .drain ∧ t.dec = s.dec ∧ t.drainLeft = b ∧
          t.status = s.status) ∧
        (s.dec.sbcnt = 0 → s.drainLeft = 0 → b = 0 → t.dec = { s.dec with chainEnd := true } ∧
          (s.cmdl = 4 → t.phase = .place ∧ t.status = s.status) ∧
          (s.cmdl = 3 → t.phase = .idle ∧
            t.status = { s.status with done := true, err := s.status.ecode != .none }))) ∧
    (s.env.port.answer = .err →
      let ecode := if s.status.ecode = .none then .drainTrunc else s.status.ecode
      ∃ t, s.blockStep = .next t ∧ t.env = s.env ∧ t.bytesIn = s.bytesIn ∧ t.pixCount = s.pixCount ∧
        t.dec = { s.dec with chainEnd := true } ∧
        (s.cmdl = 4 → t.phase = .place ∧ t.status = { s.status with dtrunc := true, ecode := ecode }) ∧
        (s.cmdl = 3 → t.phase = .idle ∧
          t.status = { s.status with done := true, err := true, dtrunc := true, ecode := ecode }) ∧
        s.sameStreamMems t ∧ s.sameConfig t ∧ s.sameLast t ∧ s.sameCanvas t) ∧
    (s.env.port.answer = .waiting → s.blockStep = .next s)

/-- 40_lzw.md R130, 93_implementation_defined.md U13: every DECODE step after decode start ends the phase, waits without effect,
consumes an input byte and loads at most 8 bits, increases PI, or consumes CSIZE ≥ 1 bits. If the port never ends the
chain the block hangs: DRAIN goes on for ever while every byte is not 0, and DECODE goes on for ever on an endless
run of CLEAR codes (MCS 7, sub-blocks of the one byte 0x80). -/
def Obligations.DecodeStepMakesProgress : Prop :=
  (∀ s t : State, s.decoding = true → s.decoderInRange → s.blockStep = .next t →
    t.phase ≠ .decode ∨
    (t = s ∧ s.env.port.answer = .waiting) ∨
    (t.env.port.pos = s.env.port.pos + 1 ∧ t.dec.pi = s.dec.pi ∧ t.dec.bits.toNat ≤ s.dec.bits.toNat + 8) ∨
    (t.env.port.pos = s.env.port.pos ∧ t.dec.pi.toNat = s.dec.pi.toNat + 1 ∧ t.dec.bits = s.dec.bits) ∨
    (t.env.port.pos = s.env.port.pos ∧ t.dec.pi = s.dec.pi ∧ 1 ≤ s.dec.csize.toNat ∧
      t.dec.bits.toNat + s.dec.csize.toNat = s.dec.bits.toNat)) ∧
  (∀ s : State, s.phase = .drain →
    (∀ k, ∃ b : Byte, b ≠ 0 ∧ InPort.answer { s.env.port with pos := s.env.port.pos + k } = .byte b) →
    ∀ n, ∃ t, blockRun n s = .next t ∧ t.phase = .drain ∧ t.env.port.pos = s.env.port.pos + n) ∧
  (∀ s : State, s.decoding = true → s.dec.pi.toNat < s.dec.npix.toNat → s.dec.top = 0 → s.dec.mcs = 7 →
    s.dec.clear = 128 → s.dec.eoi = 129 → 130 ≤ s.dec.avail.toNat → s.dec.csize = 8 → s.dec.cmask = 0xFF →
    s.dec.datum = 0 → s.dec.bits = 0 → s.dec.sbcnt = 0 → s.env.port = ⟨[], 0, .cycle 0x01 [0x80]⟩ →
    ∀ n, ∃ t, blockRun n s = .next t ∧ t.phase = .decode ∧ t.dec.pi = s.dec.pi)

/-! ### The compositor -/

/-- 41_compositor.md R158: ILORDER(h) visits every row of the frame exactly once, pass by pass and in rising order within a
pass; decoded row k belongs to frame row ILORDER(IH)[k] of an interlaced frame, and to frame row k of another. -/
def Obligations.InterlaceOrderVisitsEveryRowOnce : Prop :=
  let pass (r : Nat) : Nat := if r % 8 = 0 then 1 else if r % 8 = 4 then 2 else if r % 4 = 2 then 3 else 4
  (∀ h : Nat, (ilorder h).Perm (List.range h) ∧
    (ilorder h).Pairwise (fun q r => pass q < pass r ∨ (pass q = pass r ∧ q < r))) ∧
  (∀ (s : State) (k : Nat), k < s.frameSize.y.toNat →
    (s.frameCtrl.interlace = true → s.rowOrder[k]? = (ilorder s.frameSize.y.toNat)[k]?) ∧
    (s.frameCtrl.interlace = false → s.rowOrder[k]? = some k))

/-- 41_compositor.md R157, R159, R160: PLACE draws decoded row k at its frame row, clipped to the canvas; a pixel whose translated
color is 0 leaves SCR as it was; every other canvas pixel is unchanged, and COMMIT follows. -/
def Obligations.PlaceDrawsTheFrame : Prop :=
  ∀ s : State, s.phase = .place → memWf s.scr →
    let order := if s.frameCtrl.interlace then ilorder s.frameSize.y.toNat else List.range s.frameSize.y.toNat
    let color (idx : Byte) : Word :=
      if s.frameCtrl.transp = true ∧ idx = s.frameCtrl.tidx then 0
      else readMem (if s.frameCtrl.lctPresent then s.lct else s.gct) idx.toNat
    ∃ t, s.blockStep = .next t ∧
      (∀ k r x, order[k]? = some r → s.framePos.y.toNat + r < s.activeSize.y.toNat →
        s.framePos.x.toNat ≤ x → x < s.framePos.x.toNat + s.frameSize.x.toNat → x < s.activeSize.x.toNat →
        let at_ := (s.framePos.y.toNat + r) * s.activeSize.x.toNat + x
        let c := color (readMem s.ibuf (k * s.frameSize.x.toNat + (x - s.framePos.x.toNat)))
        readMem t.scr at_ = if c = 0 then readMem s.scr at_ else c) ∧
      (∀ x y, x < s.activeSize.x.toNat → y < s.activeSize.y.toNat →
        (x < s.framePos.x.toNat ∨ s.framePos.x.toNat + s.frameSize.x.toNat ≤ x ∨
          y < s.framePos.y.toNat ∨ s.framePos.y.toNat + s.frameSize.y.toNat ≤ y) →
        readMem t.scr (y * s.activeSize.x.toNat + x) = readMem s.scr (y * s.activeSize.x.toNat + x)) ∧
      (∀ i, s.canvasLen ≤ i → readMem t.scr i = readMem s.scr i) ∧
      t = { s with scr := t.scr, phase := .commit }

/-- 41_compositor.md R164: an interlaced frame and its non-interlaced equivalent, whose row ILORDER(IH)[k] is the interlaced frame's
row k, give the same SCR, CUR and PREV. -/
def Obligations.InterlacedFrameEqualsItsReordering : Prop :=
  ∀ (s : State) (rows : Mem 8), s.phase = .place → s.frameCtrl.interlace = true → memWf s.scr →
    (∀ k r, (ilorder s.frameSize.y.toNat)[k]? = some r → ∀ j < s.frameSize.x.toNat,
      readMem rows (r * s.frameSize.x.toNat + j) = readMem s.ibuf (k * s.frameSize.x.toNat + j)) →
    ∃ t u, blockRun 2 s = .next t ∧
      blockRun 2 { s with ibuf := rows, frameCtrl := { s.frameCtrl with interlace := false } } = .next u ∧
      u.scr = t.scr ∧ u.cur = t.cur ∧ u.prev = t.prev

/-- 41_compositor.md R161, R162, 60_exceptions.md R204: COMMIT saves CUR in PREV, copies SCR into CUR, latches the frame as the last
one, counts it, and completes the FRAME. -/
def Obligations.CommitSavesAndLatches : Prop :=
  ∀ s : State, s.phase = .commit →
    ∃ t, s.blockStep = .next t ∧
      (∀ i < s.canvasLen, readMem t.prev i = readMem s.cur i ∧ readMem t.cur i = readMem s.scr i) ∧
      (∀ i, s.canvasLen ≤ i → readMem t.prev i = readMem s.prev i ∧ readMem t.cur i = readMem s.cur i) ∧
      t.frameCount.toNat = (s.frameCount.toNat + 1) % 2 ^ 32 ∧
      t = { s with
        prev := t.prev, cur := t.cur, lastPos := s.framePos, lastSize := s.frameSize
        lastDispose := s.frameCtrl.dispose, lastValid := true, frameCount := t.frameCount, phase := .idle
        status := { s.status with done := true, err := s.status.ecode != .none } }

/-! ### The register port -/

/-- 10_state.md R25, R28, 30_encoding.md R95, 60_exceptions.md R201: the fields of STATUS at their bits, BUSY = 1 exactly while
PHASE ≠ IDLE, and TERM and ECODE with the values of their tables. -/
def Obligations.StatusReadsItsFields : Prop :=
  ∀ s : State,
    s.statusWord.getLsbD 0 = decide (s.phase ≠ .idle) ∧ s.statusWord.getLsbD 1 = s.status.done ∧
    s.statusWord.getLsbD 2 = s.status.err ∧ s.statusWord.getLsbD 3 = s.status.bwerr ∧
    (∀ p ∈ [(Term.count, 0#4), (.eoi, 1), (.dataEnd, 2), (.badCode, 3), (.dictFull, 4), (.stackFull, 5), (.truncated, 6),
        (.badMcs, 7), (.none, 15)],
      s.status.term = p.1 → s.statusWord.extractLsb' 4 4 = p.2) ∧
    (∀ p ∈ [(Ecode.none, 0#4), (.lzwFormat, 1), (.drainTrunc, 2), (.missingCt, 3), (.frameTooLarge, 4), (.noCanvas, 5),
        (.badCanvasSize, 6), (.badCommand, 7)],
      s.status.ecode = p.1 → s.statusWord.extractLsb' 8 4 = p.2) ∧
    s.statusWord.getLsbD 12 = s.status.canvasValid ∧ s.statusWord.getLsbD 13 = s.status.dtrunc ∧
    s.statusWord.extractLsb' 14 18 = 0 ∧
    (s.hostRead (s.par.base + 4)).env.reads = s.statusWord :: s.env.reads

/-- 10_state.md R25, 60_exceptions.md R205, R210: a write to STATUS, BUSY or not, clears DONE, ERR and BWERR where a 1 is written and
changes nothing else; `irq` is DONE & DONE_IE, so it falls with DONE. -/
def Obligations.StatusWriteClearsByOne : Prop :=
  ∀ (s : State) (v : Word),
    ∃ t, s.hostWrite (s.par.base + 4) v = .next t ∧
      t = { s with status := { s.status with
        done := s.status.done && !v.getLsbD 1, err := s.status.err && !v.getLsbD 2
        bwerr := s.status.bwerr && !v.getLsbD 3 } } ∧
      t.irq = (s.status.done && !v.getLsbD 1 && s.doneIe) ∧
      (∀ n, t.irqLine n = (n == s.par.irqLine && t.irq))

/-- 60_exceptions.md R210: `irq` is the level DONE & DONE_IE on IRQ_LINE: it follows a write to IRQEN at once, and falls with a
write of 1 to DONE, with the start of a command and with RESET; DONE reads whether or not it is enabled. -/
def Obligations.IrqFollowsDoneAndItsEnable : Prop :=
  ∀ s : State,
    s.irq = (s.status.done && s.doneIe) ∧ (∀ n, s.irqLine n = (n == s.par.irqLine && s.irq)) ∧
    s.statusWord.getLsbD 1 = s.status.done ∧
    (∀ v, s.busy = false → ∃ t, s.hostWrite (s.par.base + 8) v = .next t ∧ t.irq = (s.status.done && v.getLsbD 0)) ∧
    (∀ v, ∃ t, s.hostWrite (s.par.base + 4) v = .next t ∧ t.irq = (s.irq && !v.getLsbD 1)) ∧
    (∀ v, s.busy = false → 2 ≤ v.toNat % 16 → ∃ t, s.hostWrite s.par.base v = .next t ∧ t.irq = false) ∧
    (∃ t, exec .reset s = .next t ∧ t.irq = false)

/-- 20_memory.md R69: while BUSY a write to any offset of the port but CTRL and STATUS is ignored and sets BWERR; to CTRL it is
RESET, or ignored in the same way; to STATUS it is performed. -/
def Obligations.BusyWriteIsIgnored : Prop :=
  ∀ (s : State) (a : Nat) (v : Word), s.busy = true → a < 4096 →
    let ignored : Result := .next { s with status := { s.status with bwerr := true } }
    (8 ≤ a → s.hostWrite (s.par.base + a) v = ignored) ∧
    (a < 4 → v.extractLsb' 0 4 ≠ 1 → s.hostWrite (s.par.base + a) v = ignored) ∧
    (a < 4 → v.extractLsb' 0 4 = 1 → s.hostWrite (s.par.base + a) v = exec .reset s) ∧
    (4 ≤ a → a < 8 → s.hostWrite (s.par.base + a) v = .next { s with status := { s.status with
      done := s.status.done && !v.getLsbD 1, err := s.status.err && !v.getLsbD 2
      bwerr := s.status.bwerr && !v.getLsbD 3 } })

/-- 20_memory.md R62: an access to an offset below 0x1000 reaches the aligned word that contains it; an offset at or above
0x1000 is outside the port and reaches none of its words. -/
def Obligations.AccessReachesTheAlignedWord : Prop :=
  ∀ (s : State) (a : Nat) (v : Word),
    (a < 4096 →
      s.hostWrite (s.par.base + a) v = s.hostWrite (s.par.base + a / 4 * 4) v ∧
      s.hostRead (s.par.base + a) = s.hostRead (s.par.base + a / 4 * 4)) ∧
    (4096 ≤ a → portWord s.par (s.par.base + a) = none)

/-- 10_state.md R23, R29 to R34, R41, R43: a read-write register, written while idle, reads back what was written, but for its
reserved bits, which read 0; every other word of the port reads as before (CBUF_DATA unless CBUF_SEL or CBUF_IDX was
written, IBUF_DATA unless IBUF_IDX was), and the block is unchanged. -/
def Obligations.WrittenRegisterReadsBack : Prop :=
  ∀ (s : State) (v : Word), s.busy = false →
    ∀ p ∈ [(0x008, 0x00000001#32), (0x00C, 0xFFFFFFFF#32), (0x010, 0xFFFFFFFF#32), (0x014, 0x00000001#32),
        (0x018, 0xFFFFFFFF#32), (0x01C, 0xFFFFFFFF#32), (0x020, 0x0000FF3F#32), (0x040, 0x00000003#32),
        (0x044, 0xFFFFFFFF#32), (0x04C, 0xFFFFFFFF#32)],
      ∃ t, s.hostWrite (s.par.base + p.1) v = .next t ∧
        (t.hostRead (s.par.base + p.1)).env.reads = (v &&& p.2) :: s.env.reads ∧
        (∀ a < 4096, a / 4 * 4 ≠ p.1 → (a / 4 * 4 = 0x048 → p.1 ≠ 0x040 ∧ p.1 ≠ 0x044) →
          (a / 4 * 4 = 0x050 → p.1 ≠ 0x04C) →
          (t.hostRead (s.par.base + a)).env.reads = (s.hostRead (s.par.base + a)).env.reads) ∧
        t.env = s.env ∧ t.par = s.par ∧ t.status = s.status ∧ s.sameBlock t

/-- 10_state.md R23, R42, R43: a write to a read-only or reserved word is ignored while idle, and a reserved word reads 0, BUSY
or not, with no effect on the block. -/
def Obligations.ReadOnlyWordsIgnoreWrites : Prop :=
  ∀ (s : State) (a : Nat) (v : Word), a < 4096 →
    (s.busy = false →
      a / 4 * 4 ∈ [0x024, 0x028, 0x02C, 0x030, 0x034, 0x038, 0x03C, 0x048, 0x050, 0x054, 0x058] →
      s.hostWrite (s.par.base + a) v = .next s) ∧
    ((0x05C ≤ a ∧ a < 0x400) ∨ 0xC00 ≤ a →
      (s.busy = false → s.hostWrite (s.par.base + a) v = .next s) ∧
      s.hostRead (s.par.base + a) = { s with env := { s.env with reads := 0 :: s.env.reads } })

/-- 10_state.md R46: the color-table windows: a write while idle changes the one entry it names. -/
def Obligations.ColorTableWindowsHoldWhatIsWritten : Prop :=
  ∀ (s : State) (i : Nat) (v : Word), s.busy = false → i < 256 → memWf s.gct → memWf s.lct →
    (∃ t, s.hostWrite (s.par.base + 0x400 + 4 * i) v = .next t ∧
      (∀ j, readMem t.gct j = if j = i then v else readMem s.gct j) ∧ t = { s with gct := t.gct } ∧
      (t.hostRead (s.par.base + 0x400 + 4 * i)).env.reads = v :: s.env.reads) ∧
    (∃ t, s.hostWrite (s.par.base + 0x800 + 4 * i) v = .next t ∧
      (∀ j, readMem t.lct j = if j = i then v else readMem s.lct j) ∧ t = { s with lct := t.lct } ∧
      (t.hostRead (s.par.base + 0x800 + 4 * i)).env.reads = v :: s.env.reads)

/-- 10_state.md R41, R42, R43, 20_memory.md R66: while idle, CBUF_DATA reads the selected canvas pixel (0 outside the canvas, without a
valid canvas, or with no buffer selected) and IBUF_DATA reads the index entry (0 at or past NPIX_MAX); each then
increments its index modulo 2^32, and nothing else changes; a write to either is ignored. -/
def Obligations.DataReadsAdvanceTheirIndex : Prop :=
  ∀ s : State, s.busy = false →
    (∃ v, s.hostRead (s.par.base + 0x048) =
        { s with cbufIdx := s.cbufIdx + 1, env := { s.env with reads := v :: s.env.reads } } ∧
      (s.status.canvasValid = true → s.cbufIdx.toNat < s.canvasLen →
        (s.cbufSel = 0 → v = readMem s.cur s.cbufIdx.toNat) ∧ (s.cbufSel = 1 → v = readMem s.prev s.cbufIdx.toNat) ∧
        (s.cbufSel = 2 → v = readMem s.scr s.cbufIdx.toNat)) ∧
      (s.status.canvasValid = false ∨ s.canvasLen ≤ s.cbufIdx.toNat ∨ s.cbufSel = 3 → v = 0)) ∧
    (∃ v, s.hostRead (s.par.base + 0x050) =
        { s with ibufIdx := s.ibufIdx + 1, env := { s.env with reads := v :: s.env.reads } } ∧
      (s.ibufIdx.toNat < s.par.npixMax → v.toNat = (readMem s.ibuf s.ibufIdx.toNat).toNat) ∧
      (s.par.npixMax ≤ s.ibufIdx.toNat → v = 0)) ∧
    (∀ v, s.hostWrite (s.par.base + 0x048) v = .next s ∧ s.hostWrite (s.par.base + 0x050) v = .next s)

/-- 20_memory.md R70: while BUSY a read of CBUF_DATA, IBUF_DATA or a color-table window has no side effect on the block: only the
host's list of read values and the model's count of free values change, whatever value is drawn (log 5). -/
def Obligations.BusyMemoryReadHasNoSideEffect : Prop :=
  ∀ (s : State) (a : Nat), s.busy = true → a < 4096 →
    (a / 4 * 4 = 0x048 ∨ a / 4 * 4 = 0x050 ∨ (0x400 ≤ a ∧ a < 0xC00)) →
    ∃ v, s.hostRead (s.par.base + a) =
      { s with env := { s.env with reads := v :: s.env.reads, draws := s.env.draws + 1 } }

/-- 20_memory.md R70, 10_state.md R24 to R44: every register at 0x000 to 0x058 but CBUF_DATA and IBUF_DATA returns its current
value, BUSY or not, its fields at their bits and its reserved bits 0, and the read changes nothing in the block. The
fields of STATUS stand in StatusReadsItsFields. -/
def Obligations.RegisterReadsReturnTheirValue : Prop :=
  ∀ s : State,
    let got (off : Nat) (v : Word) : Prop :=
      s.hostRead (s.par.base + off) = { s with env := { s.env with reads := v :: s.env.reads } }
    let gotPair (off : Nat) (p : XY) : Prop := ∃ v, got off v ∧ v.extractLsb' 0 16 = p.x ∧ v.extractLsb' 16 16 = p.y
    let gotBit (off : Nat) (b : Bool) : Prop := ∃ v, got off v ∧ v.getLsbD 0 = b ∧ v.extractLsb' 1 31 = 0
    got 0x000 0 ∧ got 0x004 s.statusWord ∧ gotBit 0x008 s.doneIe ∧ gotPair 0x00C s.canvasSize ∧
    got 0x010 s.bgcolor ∧ gotBit 0x014 s.gctPresent ∧ gotPair 0x018 s.framePos ∧ gotPair 0x01C s.frameSize ∧
    (∃ v, got 0x020 v ∧ v.extractLsb' 0 3 = s.frameCtrl.dispose ∧ v.getLsbD 3 = s.frameCtrl.transp ∧
      v.getLsbD 4 = s.frameCtrl.interlace ∧ v.getLsbD 5 = s.frameCtrl.lctPresent ∧ v.extractLsb' 6 2 = 0 ∧
      v.extractLsb' 8 8 = s.frameCtrl.tidx ∧ v.extractLsb' 16 16 = 0) ∧
    gotPair 0x024 s.lastPos ∧ gotPair 0x028 s.lastSize ∧
    (∃ v, got 0x02C v ∧ v.extractLsb' 0 3 = s.lastDispose ∧ v.getLsbD 31 = s.lastValid ∧ v.extractLsb' 3 28 = 0) ∧
    got 0x030 s.pixCount ∧ got 0x034 s.bytesIn ∧
    (∃ v, got 0x038 v ∧ v.extractLsb' 0 4 = s.dec.mcs ∧ v.extractLsb' 4 4 = s.dec.csize ∧
      v.extractLsb' 8 13 = s.dec.avail ∧ v.extractLsb' 21 11 = 0) ∧
    got 0x03C s.frameCount ∧ (∃ v, got 0x040 v ∧ v.extractLsb' 0 2 = s.cbufSel ∧ v.extractLsb' 2 30 = 0) ∧
    got 0x044 s.cbufIdx ∧ got 0x04C s.ibufIdx ∧ gotPair 0x054 s.activeSize ∧ got 0x058 0x4C5A5701#32

/-! ### Steps and the whole machine -/

/-- 42_commands.md R180: when the host's turn comes and its next operation writes a word to CTRL, the step is `exec` of the decoded
word, in the state with the turn and the operation used up. -/
def Obligations.StepRunsTheCtrlWord : Prop :=
  ∀ (s : State) (v : Word) (ops : List HostOp), s.nextAgent = .host → s.env.queue = .write s.par.base v :: ops →
    step s = exec (decodeCtrl v) { s with env := { s.env with queue := ops, sched := s.env.sched.tail } }

/-- 40_lzw.md R113, R115, 30_encoding.md R88: when the block's turn comes in DECODE with pixels to go, an empty stack and at least CSIZE
bits, the step is `exec` of the class of the low CSIZE bits of DATUM, in the state with those bits taken. -/
def Obligations.StepRunsTheCode : Prop :=
  ∀ s : State, s.nextAgent = .block → s.decoding = true → s.dec.pi.toNat < s.dec.npix.toNat → s.dec.top = 0 →
    s.dec.csize.toNat ≤ s.dec.bits.toNat → s.dec.csize.toNat ≤ 12 → s.dec.cmask.toNat = 2 ^ s.dec.csize.toNat - 1 →
    ∃ (code : Code) (u : State), code.toNat = s.dec.datum.toNat % 2 ^ s.dec.csize.toNat ∧
      u.dec.datum.toNat = s.dec.datum.toNat / 2 ^ s.dec.csize.toNat ∧
      u.dec.bits.toNat = s.dec.bits.toNat - s.dec.csize.toNat ∧
      u = { s with
        env := { s.env with sched := s.env.sched.tail }
        dec := { s.dec with datum := u.dec.datum, bits := u.dec.bits } } ∧
      step s = exec (classify ⟨s.dec.csize, s.dec.clear, s.dec.eoi, s.dec.avail, s.dec.old⟩ code) u

/-- 41_compositor.md R150, R155: when the block's turn comes in DISPOSE and there is a last frame, LDISPOSE selects the method
(0, 1 and 4..7 keep the image, 2 restores the background, 3 the previous canvas), and the step is its `exec`; without a
last frame it writes nothing; DECODE follows. -/
def Obligations.StepRunsTheDisposalMethod : Prop :=
  ∀ s : State, s.nextAgent = .block → s.phase = .dispose →
    let u : State := { s with env := { s.env with sched := s.env.sched.tail } }
    (s.lastValid = true →
      ∀ p ∈ [(0#3, Instr.disposeUnspecified), (1#3, .disposeNone), (2#3, .disposeBackground), (3#3, .disposePrevious),
          (4#3, .disposeReserved 4), (5#3, .disposeReserved 5), (6#3, .disposeReserved 6), (7#3, .disposeReserved 7)],
        s.lastDispose = p.1 →
          ∃ t, exec p.2 u = .next t ∧ step s = .next { t with phase := .decode, started := false }) ∧
    (s.lastValid = false → step s = .next { u with phase := .decode, started := false })

/-- 93_implementation_defined.md, section 1: the block has no case without a meaning: a step, in any state, answers a next state. -/
def Obligations.EveryStepHasANextState : Prop :=
  ∀ s : State, ∃ t, step s = .next t

/-- 20_memory.md R60, R64, 10_state.md R22, R37: a step of the block takes at most one byte, never moves the read position
backwards, changes nothing else outside the block, and counts in BYTES_IN what it takes. The port answers the bytes it
holds in order, and past them `Err`, or nothing, or bytes for ever (the form of an endless input is the model's, log 19). -/
def Obligations.BlockReadsForwardOneByteAtMost : Prop :=
  (∀ s t : State, s.blockStep = .next t →
    (t.env = s.env ∧ t.bytesIn = s.bytesIn) ∨
    (t.env = { s.env with port := { s.env.port with pos := s.env.port.pos + 1 } } ∧ t.bytesIn = s.bytesIn + 1 ∧
      (s.phase = .decode ∨ s.phase = .drain) ∧ ∃ b, s.env.port.answer = .byte b)) ∧
  (∀ (p : InPort) (b : Byte), p.buf[p.pos]? = some b → p.answer = .byte b) ∧
  (∀ p : InPort, p.buf.length ≤ p.pos →
    (p.atEnd = .err → p.answer = .err) ∧ (p.atEnd = .silent → p.answer = .waiting) ∧
    (∀ first rest b, p.atEnd = .cycle first rest →
      (first :: rest)[(p.pos - p.buf.length) % (rest.length + 1)]? = some b → p.answer = .byte b) ∧
    (∀ stream, p.atEnd = .free stream → ∃ b, p.answer = .byte b))

/-- 10_state.md R52, 20_memory.md R74: no step of the block changes a configuration register, a color table or a readback index. -/
def Obligations.BlockKeepsTheConfiguration : Prop :=
  ∀ s t : State, s.blockStep = .next t → s.sameConfig t

/-- 41_compositor.md, 10_state.md R42: an operation of the host that does not write CTRL changes nothing the block computes: phase, decoder,
TERM, ECODE, CANVAS_VALID and DTRUNC, dictionary, IBUF, canvases, LAST_* and counters. That a seek or a new stream while
BUSY = 1 is such an operation is the model's choice (log 20). -/
def Obligations.HostOperationsKeepTheBlock : Prop :=
  ∀ s t : State, (∀ addr v ops, s.env.queue = .write addr v :: ops → portWord s.par addr ≠ some .ctrl) →
    s.hostStep = .next t → s.sameBlock t

/-! ### Invariants -/

/-- Every memory stays in its canonical form, so equal contents are equal data. -/
def Obligations.StepKeepsMemoriesCanonical : Prop :=
  ∀ s t : State, s.memsCanonical → step s = .next t → t.memsCanonical

/-- 10_state.md R20, R21: every step keeps the decoder registers in their legal ranges while decoding. -/
def Obligations.StepKeepsDecoderInRange : Prop :=
  ∀ s t : State, s.decoderInRange → step s = .next t → t.decoderInRange

/-- 20_memory.md R60, R68, 41_compositor.md R153: every step keeps every memory inside its range, with the decoder registers in range. -/
def Obligations.StepKeepsMemoriesInRange : Prop :=
  ∀ s t : State, s.decoderInRange ∧ s.memsInRange → step s = .next t → t.memsInRange

/-- 42_commands.md R183 to R187: every step keeps PHASE a phase of the latched command. -/
def Obligations.StepKeepsPhaseOfCommand : Prop :=
  ∀ s t : State, s.phaseOfCommand → step s = .next t → t.phaseOfCommand

/-- 10_state.md R50: SCR = CUR entry for entry whenever the canvas is valid and no FRAME is past its CHECK, so whenever PHASE = IDLE. -/
def Obligations.StepKeepsScratchEqualToCurrent : Prop :=
  ∀ s t : State, s.phaseOfCommand ∧ s.scratchIsCurrent → step s = .next t → t.scratchIsCurrent

/-- 40_lzw.md R131: within one generation every entry above CLEAR + 2 has a link below itself. -/
def Obligations.StepKeepsLinksDescending : Prop :=
  ∀ s t : State, s.memsCanonical ∧ s.decoderInRange ∧ s.linksDescend → step s = .next t → t.linksDescend

/-- Every invariant holds after power-on. -/
def Obligations.ResetMeetsTheInvariants : Prop :=
  State.reset.memsCanonical ∧ State.reset.memsInRange ∧ State.reset.decoderInRange ∧ State.reset.phaseOfCommand ∧
  State.reset.scratchIsCurrent ∧ State.reset.linksDescend
end

