-- ==== Sys2Proof/Laws/Memory.lean ====
section
/-! SUPPORT. What one read sees after each operation over an internal memory, and that every operation keeps the
canonical form and the bound of the memory. -/

namespace Sys2Proof.Machine

variable {w : Nat}

/-! ### Reads -/

@[simp] theorem readMem_nil (i : Nat) : readMem ([] : Mem w) i = 0 := rfl

theorem readMem_of_notMem (m : Mem w) (i : Nat) (h : ∀ c ∈ m, c.1 ≠ i) : readMem m i = 0 := by
  induction m with
  | nil => rfl
  | cons c m ih =>
    have hc : i ≠ c.1 := fun e => h c (by simp) e.symm
    simp only [readMem, hc, if_false]
    exact ih fun d hd => h d (by simp [hd])

theorem readMem_of_le {n : Nat} {m : Mem w} (h : memBelow n m) {i : Nat} (hi : n ≤ i) : readMem m i = 0 :=
  readMem_of_notMem m i fun c hc => by have := h c hc; omega

theorem readMem_append_left {a b : Mem w} {i : Nat} (h : ∀ c ∈ b, c.1 ≠ i) : readMem (a ++ b) i = readMem a i := by
  induction a with
  | nil => exact readMem_of_notMem b i h
  | cons c a ih => simp only [List.cons_append, readMem, ih]

theorem readMem_append_right {a b : Mem w} {i : Nat} (h : ∀ c ∈ a, c.1 ≠ i) : readMem (a ++ b) i = readMem b i := by
  induction a with
  | nil => rfl
  | cons c a ih =>
    have hc : i ≠ c.1 := fun e => h c (by simp) e.symm
    simp only [List.cons_append, readMem, hc, if_false]
    exact ih fun d hd => h d (by simp [hd])

theorem readMem_filter (p : Nat → Bool) (m : Mem w) (i : Nat) :
    readMem (m.filter fun c => p c.1) i = if p i then readMem m i else 0 := by
  induction m with
  | nil => simp
  | cons c m ih =>
    by_cases hp : p c.1 <;> by_cases hi : i = c.1 <;> simp_all [readMem]

theorem readMem_map (f : Nat → BitVec w) (l : List Nat) (i : Nat) :
    readMem (l.map fun j => (j, f j)) i = if i ∈ l then f i else 0 := by
  induction l with
  | nil => simp
  | cons a l ih => by_cases h : i = a <;> simp_all [readMem]

/-! ### writeMem -/

theorem mem_writeMem {m : Mem w} {i : Nat} {v : BitVec w} {c : Nat × BitVec w} (h : c ∈ writeMem m i v) :
    c ∈ m ∨ (c = (i, v) ∧ v ≠ 0) := by
  induction m with
  | nil => by_cases hv : v = 0 <;> simp_all [writeMem]
  | cons d m ih =>
    obtain ⟨b, x⟩ := d
    simp only [writeMem] at h
    split at h
    · split at h <;> simp_all
      tauto
    · split at h
      · split at h <;> simp_all
        tauto
      · simp only [List.mem_cons] at h ⊢
        rcases h with h | h
        · exact .inl (.inl h)
        · rcases ih h with h | h
          · exact .inl (.inr h)
          · exact .inr h

theorem writeMem_wf {m : Mem w} (h : memWf m) (i : Nat) (v : BitVec w) : memWf (writeMem m i v) := by
  constructor
  · obtain ⟨hs, -⟩ := h
    induction m with
    | nil => by_cases hv : v = 0 <;> simp_all [writeMem]
    | cons d m ih =>
      obtain ⟨b, x⟩ := d
      rw [List.pairwise_cons] at hs
      simp only [writeMem]
      split
      · rename_i hib
        split
        · exact List.pairwise_cons.2 hs
        · refine List.pairwise_cons.2 ⟨?_, List.pairwise_cons.2 hs⟩
          rintro c hc
          rcases List.mem_cons.1 hc with rfl | hc
          · exact hib
          · exact Nat.lt_trans hib (hs.1 c hc)
      · split
        · rename_i hib
          split
          · exact hs.2
          · subst hib; exact List.pairwise_cons.2 hs
        · refine List.pairwise_cons.2 ⟨?_, ih hs.2⟩
          intro c hc
          rcases mem_writeMem hc with hc | ⟨rfl, -⟩
          · exact hs.1 c hc
          · show b < i
            omega
  · intro c hc
    rcases mem_writeMem hc with hc | ⟨rfl, hv⟩
    · exact h.2 c hc
    · exact hv

theorem writeMem_below {n : Nat} {m : Mem w} (h : memBelow n m) {i : Nat} (hi : i < n) (v : BitVec w) :
    memBelow n (writeMem m i v) := by
  intro c hc
  rcases mem_writeMem hc with hc | ⟨rfl, -⟩
  · exact h c hc
  · exact hi

/-- A read after a write: the written entry holds the value, every other entry is as before. -/
theorem readMem_writeMem {m : Mem w} (h : memWf m) (i : Nat) (v : BitVec w) (j : Nat) :
    readMem (writeMem m i v) j = if j = i then v else readMem m j := by
  obtain ⟨hs, -⟩ := h
  induction m with
  | nil => by_cases hv : v = 0 <;> by_cases hj : j = i <;> simp_all [writeMem, readMem]
  | cons d m ih =>
    obtain ⟨b, x⟩ := d
    rw [List.pairwise_cons] at hs
    have hz : i ≤ b → readMem m i = 0 := fun hib =>
      readMem_of_notMem m i fun c hc => by have := hs.1 c hc; simp only at this; omega
    simp only [writeMem]
    split
    · rename_i hib
      have : i ≠ b := by omega
      have hz := hz (by omega)
      by_cases hv : v = 0 <;> by_cases hj : j = i <;> simp_all [readMem]
    · split
      · rename_i hib
        subst hib
        have hz := hz (by omega)
        by_cases hv : v = 0 <;> by_cases hj : j = i <;> simp_all [readMem]
      · have ih := ih hs.2
        by_cases hj : j = b
        · have : j ≠ i := by omega
          simp_all [readMem]
        · simp only [readMem, hj, if_false, ih]

@[simp] theorem readMem_writeMem_self {m : Mem w} (h : memWf m) (i : Nat) (v : BitVec w) :
    readMem (writeMem m i v) i = v := by
  simp [readMem_writeMem h]

theorem readMem_writeMem_of_ne (m : Mem w) {i j : Nat} (v : BitVec w) (hj : j ≠ i) :
    readMem (writeMem m i v) j = readMem m j := by
  induction m with
  | nil =>
    rw [writeMem]
    split
    · rfl
    · exact if_neg hj
  | cons c m ih =>
    rw [writeMem]
    split
    · split
      · rfl
      · exact if_neg hj
    · split
      · have hc : readMem (c :: m) j = readMem m j := if_neg (fun h => hj (h.trans (Eq.symm ‹i = c.1›)))
        rw [hc]
        split
        · rfl
        · exact if_neg hj
      · simp only [readMem, ih]

/-! ### Ranges -/

theorem filter_wf {m : Mem w} (h : memWf m) (p : Nat × BitVec w → Bool) : memWf (m.filter p) :=
  ⟨h.1.filter p, fun c hc => h.2 c (List.mem_of_mem_filter hc)⟩

theorem filter_below {n : Nat} {m : Mem w} (h : memBelow n m) (p : Nat × BitVec w → Bool) : memBelow n (m.filter p) :=
  fun c hc => h c (List.mem_of_mem_filter hc)

theorem append_wf {a b : Mem w} (ha : memWf a) (hb : memWf b) (n : Nat) (h1 : ∀ c ∈ a, c.1 < n)
    (h2 : ∀ c ∈ b, n ≤ c.1) : memWf (a ++ b) := by
  refine ⟨List.pairwise_append.2 ⟨ha.1, hb.1, fun c hc d hd => ?_⟩, fun c hc => ?_⟩
  · exact Nat.lt_of_lt_of_le (h1 c hc) (h2 d hd)
  · rcases List.mem_append.1 hc with hc | hc
    · exact ha.2 c hc
    · exact hb.2 c hc

theorem readMem_copyBelow (n : Nat) (src dst : Mem w) (i : Nat) :
    readMem (copyBelow n src dst) i = if i < n then readMem src i else readMem dst i := by
  unfold copyBelow
  split
  · rename_i h
    rw [readMem_append_left (by simp; omega), readMem_filter (fun k => decide (k < n))]
    simp [h]
  · rename_i h
    rw [readMem_append_right (by simp; omega), readMem_filter (fun k => decide (n ≤ k))]
    simp [Nat.le_of_not_lt h]

theorem copyBelow_wf (n : Nat) {src dst : Mem w} (hs : memWf src) (hd : memWf dst) : memWf (copyBelow n src dst) :=
  append_wf (filter_wf hs _) (filter_wf hd _) n (by simp) (by simp)

theorem copyBelow_below {n k : Nat} {src dst : Mem w} (hs : memBelow k src) (hd : memBelow k dst) :
    memBelow k (copyBelow n src dst) := by
  intro c hc
  rcases List.mem_append.1 hc with hc | hc
  · exact filter_below hs _ c hc
  · exact filter_below hd _ c hc

/-- Between two memories of at most `n` entries the copy of `n` entries is the source. -/
theorem copyBelow_eq {n : Nat} {src dst : Mem w} (hs : memBelow n src) (hd : memBelow n dst) :
    copyBelow n src dst = src := by
  unfold copyBelow
  rw [List.filter_eq_self.2 (by simpa using fun a b h => hs (a, b) h),
    List.filter_eq_nil_iff.2 (by simpa using fun a b h => hd (a, b) h), List.append_nil]

theorem readMem_clearRange (lo hi : Nat) (m : Mem w) (i : Nat) :
    readMem (clearRange lo hi m) i = if lo ≤ i ∧ i < hi then 0 else readMem m i := by
  unfold clearRange
  rw [readMem_filter (fun k => k < lo || hi ≤ k)]
  by_cases h : lo ≤ i ∧ i < hi
  · rw [if_pos h, if_neg (by simp; omega)]
  · rw [if_neg h, if_pos (by simp; omega)]

theorem clearRange_wf (lo hi : Nat) {m : Mem w} (h : memWf m) : memWf (clearRange lo hi m) := filter_wf h _

theorem clearRange_below (lo hi : Nat) {n : Nat} {m : Mem w} (h : memBelow n m) : memBelow n (clearRange lo hi m) :=
  filter_below h _

theorem readMem_setBelow (n : Nat) (f : Nat → BitVec w) (m : Mem w) (i : Nat) :
    readMem (setBelow n f m) i = if i < n then f i else readMem m i := by
  unfold setBelow
  split
  · rename_i h
    rw [readMem_append_left (by simp; omega), readMem_map f]
    by_cases hf : f i = 0 <;> simp_all
  · rename_i h
    rw [readMem_append_right (by simp; omega), readMem_filter (fun k => decide (n ≤ k))]
    simp [Nat.le_of_not_lt h]

theorem setBelow_wf (n : Nat) (f : Nat → BitVec w) {m : Mem w} (h : memWf m) : memWf (setBelow n f m) := by
  refine append_wf ⟨?_, ?_⟩ (filter_wf h _) n ?_ (by simp)
  · rw [List.pairwise_map]
    exact List.Pairwise.filter _ List.pairwise_lt_range
  all_goals
    intro c hc
    obtain ⟨i, hi, rfl⟩ := List.mem_map.1 hc
    have := List.mem_filter.1 hi
    simp_all

theorem setBelow_below {n k : Nat} (f : Nat → BitVec w) {m : Mem w} (h : memBelow k m) (hn : n ≤ k) :
    memBelow k (setBelow n f m) := by
  intro c hc
  rcases List.mem_append.1 hc with hc | hc
  · simp only [List.mem_map, List.mem_filter, List.mem_range] at hc
    obtain ⟨i, ⟨hi, -⟩, rfl⟩ := hc
    show i < k
    omega
  · exact filter_below h _ c hc

/-! ### Rows -/

theorem fillRow_wf (base : Nat) (v : BitVec w) (n : Nat) {m : Mem w} (h : memWf m) : memWf (fillRow base v n m) := by
  induction n with
  | zero => exact h
  | succ n ih => exact writeMem_wf ih _ _

theorem readMem_fillRow (base : Nat) (v : BitVec w) (n : Nat) {m : Mem w} (h : memWf m) (i : Nat) :
    readMem (fillRow base v n m) i = if base ≤ i ∧ i < base + n then v else readMem m i := by
  induction n with
  | zero => rw [if_neg (by omega)]; rfl
  | succ n ih =>
    rw [fillRow, readMem_writeMem (fillRow_wf base v n h), ih]
    by_cases h1 : i = base + n
    · rw [if_pos h1, if_pos (by omega)]
    · rw [if_neg h1]
      by_cases h2 : base ≤ i ∧ i < base + n
      · rw [if_pos h2, if_pos (by omega)]
      · rw [if_neg h2, if_neg (by omega)]

theorem fillRow_below {k : Nat} (base : Nat) (v : BitVec w) (n : Nat) {m : Mem w} (h : memBelow k m)
    (hb : base + n ≤ k) : memBelow k (fillRow base v n m) := by
  induction n with
  | zero => exact h
  | succ n ih => exact writeMem_below (ih (by omega)) (by omega) v

theorem drawRow_wf (base : Nat) (f : Nat → BitVec w) (n : Nat) {m : Mem w} (h : memWf m) :
    memWf (drawRow base f n m) := by
  induction n with
  | zero => exact h
  | succ n ih =>
    rw [drawRow]
    split
    · exact ih
    · exact writeMem_wf ih _ _

theorem readMem_drawRow (base : Nat) (f : Nat → BitVec w) (n : Nat) {m : Mem w} (h : memWf m) (i : Nat) :
    readMem (drawRow base f n m) i =
      if base ≤ i ∧ i < base + n ∧ f (i - base) ≠ 0 then f (i - base) else readMem m i := by
  induction n with
  | zero => rw [if_neg (by omega)]; rfl
  | succ n ih =>
    rw [drawRow]
    by_cases hi : i = base + n
    · subst hi
      have e : base + n - base = n := by omega
      split
      · rename_i hf
        rw [ih, if_neg (by omega), if_neg (by rw [e]; tauto)]
      · rename_i hf
        rw [readMem_writeMem (drawRow_wf base f n h), if_pos rfl, e, if_pos ⟨by omega, by omega, hf⟩]
    · have e : (base ≤ i ∧ i < base + (n + 1) ∧ f (i - base) ≠ 0) ↔ (base ≤ i ∧ i < base + n ∧ f (i - base) ≠ 0) := by
        constructor <;> rintro ⟨h1, h2, h3⟩ <;> exact ⟨h1, by omega, h3⟩
      simp only [e]
      split
      · exact ih
      · rw [readMem_writeMem (drawRow_wf base f n h), if_neg hi, ih]

theorem drawRow_below {k : Nat} (base : Nat) (f : Nat → BitVec w) (n : Nat) {m : Mem w} (h : memBelow k m)
    (hb : base + n ≤ k) : memBelow k (drawRow base f n m) := by
  induction n with
  | zero => exact h
  | succ n ih =>
    rw [drawRow]
    split
    · exact ih (by omega)
    · exact writeMem_below (ih (by omega)) (by omega) _

/-! ### Equal reads are equal memories -/

/-- Canonical memories that read alike are the same data. -/
theorem memWf_ext {a b : Mem w} (ha : memWf a) (hb : memWf b) (h : ∀ i, readMem a i = readMem b i) : a = b := by
  induction a generalizing b with
  | nil =>
    cases b with
    | nil => rfl
    | cons d b =>
      have := h d.1
      simp only [readMem, if_true] at this
      exact absurd this.symm (hb.2 d (by simp))
  | cons c a ih =>
    cases b with
    | nil =>
      have := h c.1
      simp only [readMem, if_true] at this
      exact absurd this (ha.2 c (by simp))
    | cons d b =>
      obtain ⟨hsa, hna⟩ := ha
      obtain ⟨hsb, hnb⟩ := hb
      rw [List.pairwise_cons] at hsa hsb
      have hc0 : c.2 ≠ 0 := hna c (by simp)
      have hd0 : d.2 ≠ 0 := hnb d (by simp)
      have za : ∀ i, i ≤ c.1 → readMem a i = 0 := fun i hi =>
        readMem_of_notMem a i fun e he => by have := hsa.1 e he; omega
      have zb : ∀ i, i ≤ d.1 → readMem b i = 0 := fun i hi =>
        readMem_of_notMem b i fun e he => by have := hsb.1 e he; omega
      have hkey : c.1 = d.1 := by
        have h1 := h c.1
        have h2 := h d.1
        simp only [readMem, if_true] at h1 h2
        rcases Nat.lt_trichotomy c.1 d.1 with hlt | heq | hgt
        · rw [if_neg (by omega), zb _ (by omega)] at h1
          exact absurd h1 hc0
        · exact heq
        · rw [if_neg (by omega), za _ (by omega)] at h2
          exact absurd h2.symm hd0
      have hval : c.2 = d.2 := by
        have h1 := h c.1
        simpa only [readMem, if_true, hkey] using h1
      have hcd : c = d := Prod.ext hkey hval
      subst hcd
      congr 1
      refine ih ⟨hsa.2, fun e he => hna e (by simp [he])⟩ ⟨hsb.2, fun e he => hnb e (by simp [he])⟩ fun i => ?_
      by_cases hi : i = c.1
      · rw [za i (by omega), zb i (by omega)]
      · have := h i
        simpa only [readMem, hi, if_false] using this

end Sys2Proof.Machine
end

