-- ==== Sys2Proof/Laws/Canvas.lean ====
section
/-! SUPPORT. What one pixel of a canvas reads as after a rectangle is filled or a frame is drawn (spec/41_compositor.md R152, R153,
R157 to R160), and that both keep the canonical form and the bound of the canvas. -/

namespace Sys2Proof.Machine

/-! ### Pixel addresses -/

/-- On a canvas `cw` wide, the pixel (x, y) lies in a stretch of row `r` exactly when y = r and x lies in it. -/
theorem pixel_in_row {cw x y r x0 n : Nat} (hx : x < cw) (hn : n = 0 ∨ x0 + n ≤ cw) :
    (r * cw + x0 ≤ y * cw + x ∧ y * cw + x < r * cw + x0 + n) ↔ (y = r ∧ x0 ≤ x ∧ x < x0 + n) := by
  constructor
  · rintro ⟨h1, h2⟩
    rcases hn with rfl | hn
    · omega
    · rcases Nat.lt_trichotomy y r with h | rfl | h
      · have := Nat.mul_le_mul_right cw (Nat.succ_le_of_lt h)
        rw [Nat.succ_mul] at this
        omega
      · exact ⟨rfl, by omega, by omega⟩
      · have := Nat.mul_le_mul_right cw (Nat.succ_le_of_lt h)
        rw [Nat.succ_mul] at this
        omega
  · rintro ⟨rfl, h1, h2⟩
    omega

/-- A stretch of a row of the canvas ends within the canvas. -/
theorem row_end_le {cw ch x0 r n : Nat} (hn : x0 + n ≤ cw) (hr : r < ch) : r * cw + x0 + n ≤ cw * ch := by
  have := Nat.mul_le_mul_right cw (Nat.succ_le_of_lt hr)
  rw [Nat.succ_mul, Nat.mul_comm ch] at this
  omega

/-- The pixel (x, y) of the canvas is an entry of a canvas buffer (10_state.md R49). -/
theorem State.pixel_lt_canvasLen (s : State) {x y : Nat} (hx : x < s.activeSize.x.toNat)
    (hy : y < s.activeSize.y.toNat) : y * s.activeSize.x.toNat + x < s.canvasLen := by
  have := row_end_le (x0 := x) (n := 1) hx hy
  rw [State.canvasLen]
  omega

/-- A clipped width (R153): empty, or ending within the canvas. -/
theorem clip_le (w cw x0 : Nat) : min w (cw - x0) = 0 ∨ x0 + min w (cw - x0) ≤ cw := by omega

/-! ### Filling a rectangle -/

theorem fillRect_wf (cw x0 y0 n : Nat) (v : Word) (rows : Nat) {m : Mem 32} (h : memWf m) :
    memWf (fillRect cw x0 y0 n v rows m) := by
  induction rows with
  | zero => exact h
  | succ k ih => exact fillRow_wf _ _ _ ih

theorem readMem_fillRect {cw x0 n x : Nat} (y0 : Nat) (v : Word) (rows : Nat) {m : Mem 32} (h : memWf m) (y : Nat)
    (hx : x < cw) (hn : n = 0 ∨ x0 + n ≤ cw) :
    readMem (fillRect cw x0 y0 n v rows m) (y * cw + x) =
      if x0 ≤ x ∧ x < x0 + n ∧ y0 ≤ y ∧ y < y0 + rows then v else readMem m (y * cw + x) := by
  induction rows with
  | zero => rw [if_neg (by omega)]; rfl
  | succ k ih =>
    rw [fillRect, readMem_fillRow _ _ _ (fillRect_wf cw x0 y0 n v k h), ih, if_congr (pixel_in_row hx hn) rfl rfl]
    by_cases h1 : y = y0 + k ∧ x0 ≤ x ∧ x < x0 + n
    · rw [if_pos h1, if_pos (by omega)]
    · rw [if_neg h1]
      by_cases h2 : x0 ≤ x ∧ x < x0 + n ∧ y0 ≤ y ∧ y < y0 + k
      · rw [if_pos h2, if_pos (by omega)]
      · rw [if_neg h2, if_neg (by omega)]

theorem fillRow_zero {w : Nat} (base : Nat) (v : BitVec w) (m : Mem w) : fillRow base v 0 m = m := rfl

theorem fillRect_below {k cw ch x0 y0 n : Nat} (v : Word) (rows : Nat) {m : Mem 32} (h : memBelow k m)
    (hk : cw * ch ≤ k) (hn : n = 0 ∨ x0 + n ≤ cw) (hr : rows = 0 ∨ y0 + rows ≤ ch) :
    memBelow k (fillRect cw x0 y0 n v rows m) := by
  induction rows with
  | zero => exact h
  | succ j ih =>
    rw [fillRect]
    rcases hn with rfl | hn
    · rw [fillRow_zero]; exact ih (by omega)
    · exact fillRow_below _ _ _ (ih (by omega)) (Nat.le_trans (row_end_le hn (by omega)) hk)

/-- Outside the canvas a clipped rectangle changes nothing. -/
theorem readMem_fillRect_outside {cw ch x0 y0 n i : Nat} (v : Word) (rows : Nat) {m : Mem 32} (h : memWf m)
    (hn : n = 0 ∨ x0 + n ≤ cw) (hr : rows = 0 ∨ y0 + rows ≤ ch) (hi : cw * ch ≤ i) :
    readMem (fillRect cw x0 y0 n v rows m) i = readMem m i := by
  induction rows with
  | zero => rfl
  | succ j ih =>
    rw [fillRect]
    rcases hn with rfl | hn
    · rw [fillRow_zero]; exact ih (by omega)
    · have := row_end_le hn (show y0 + j < ch by omega)
      rw [readMem_fillRow _ _ _ (fillRect_wf cw x0 y0 n v j h), if_neg (by omega)]
      exact ih (by omega)

/-! ### Drawing a frame -/

theorem State.placeRow_wf (s : State) (k y : Nat) {m : Mem 32} (h : memWf m) : memWf (s.placeRow k y m) :=
  drawRow_wf _ _ _ h

theorem State.placeRows_wf (s : State) (rows : List Nat) (k : Nat) {m : Mem 32} (h : memWf m) :
    memWf (s.placeRows rows k m) := by
  induction rows generalizing k m with
  | nil => exact h
  | cons r rows ih =>
    rw [State.placeRows]
    apply ih
    split
    · exact s.placeRow_wf k _ h
    · exact h

/-- The color decoded row `k` gives the canvas column `x` (R157). -/
def State.colorAt (s : State) (k x : Nat) : Word :=
  s.translate (readMem s.ibuf (k * s.frameSize.x.toNat + (x - s.framePos.x.toNat)))

/-- One decoded row: a pixel of the row, within the frame's columns and with a nonzero color, takes the color. -/
theorem State.readMem_placeRow (s : State) (k r : Nat) {m : Mem 32} (h : memWf m) {x : Nat} (y : Nat)
    (hx : x < s.activeSize.x.toNat) :
    readMem (s.placeRow k r m) (y * s.activeSize.x.toNat + x) =
      if y = r ∧ s.framePos.x.toNat ≤ x ∧ x < s.framePos.x.toNat + s.frameSize.x.toNat ∧ s.colorAt k x ≠ 0 then
        s.colorAt k x
      else readMem m (y * s.activeSize.x.toNat + x) := by
  rw [State.placeRow, readMem_drawRow _ _ _ h]
  have hp := pixel_in_row (y := y) (r := r) hx
    (clip_le s.frameSize.x.toNat s.activeSize.x.toNat s.framePos.x.toNat)
  by_cases hin : y = r ∧ s.framePos.x.toNat ≤ x ∧ x < s.framePos.x.toNat + s.frameSize.x.toNat
  · obtain ⟨rfl, h1, h2⟩ := hin
    have e : y * s.activeSize.x.toNat + x - (y * s.activeSize.x.toNat + s.framePos.x.toNat) =
        x - s.framePos.x.toNat := by omega
    rw [e]
    by_cases hc : s.colorAt k x = 0
    · rw [if_neg (fun hh => hh.2.2 hc), if_neg (fun hh => hh.2.2.2 hc)]
    · have := hp.2 ⟨rfl, h1, by omega⟩
      rw [if_pos ⟨this.1, this.2, hc⟩, if_pos ⟨rfl, h1, h2, hc⟩]
      rfl
  · rw [if_neg (fun hh => ?_), if_neg (fun hh => hin ⟨hh.1, hh.2.1, hh.2.2.1⟩)]
    have := hp.1 ⟨hh.1, hh.2.1⟩
    omega

/-- A pixel in no row of the list, or outside the frame's columns, keeps its value. -/
theorem State.readMem_placeRows_miss (s : State) (rows : List Nat) (k : Nat) {m : Mem 32} (h : memWf m) {x : Nat}
    (y : Nat) (hx : x < s.activeSize.x.toNat)
    (hm : (∀ r ∈ rows, y ≠ s.framePos.y.toNat + r) ∨
      ¬ (s.framePos.x.toNat ≤ x ∧ x < s.framePos.x.toNat + s.frameSize.x.toNat)) :
    readMem (s.placeRows rows k m) (y * s.activeSize.x.toNat + x) = readMem m (y * s.activeSize.x.toNat + x) := by
  induction rows generalizing k m with
  | nil => rfl
  | cons r rows ih =>
    have hm' : (∀ r ∈ rows, y ≠ s.framePos.y.toNat + r) ∨
        ¬ (s.framePos.x.toNat ≤ x ∧ x < s.framePos.x.toNat + s.frameSize.x.toNat) :=
      hm.imp_left fun hm r hr => hm r (List.mem_cons_of_mem _ hr)
    rw [State.placeRows]
    split
    · rw [ih (k + 1) (s.placeRow_wf k _ h) hm', s.readMem_placeRow k _ h y hx, if_neg]
      rintro ⟨h1, h2, h3, -⟩
      rcases hm with hm | hm
      · exact hm r (List.mem_cons_self ..) h1
      · exact hm ⟨h2, h3⟩
    · exact ih (k + 1) h hm'

/-- A pixel of the frame's row `r`, the `j`-th row of a list without repeats, takes the color of decoded row k + j, unless
that is 0. -/
theorem State.readMem_placeRows_hit (s : State) (rows : List Nat) (k : Nat) {m : Mem 32} (h : memWf m) {x : Nat}
    (hx : x < s.activeSize.x.toNat) (hnd : rows.Nodup) {j r : Nat} (hj : rows[j]? = some r)
    (hy : s.framePos.y.toNat + r < s.activeSize.y.toNat)
    (h1 : s.framePos.x.toNat ≤ x) (h2 : x < s.framePos.x.toNat + s.frameSize.x.toNat) :
    readMem (s.placeRows rows k m) ((s.framePos.y.toNat + r) * s.activeSize.x.toNat + x) =
      if s.colorAt (k + j) x = 0 then readMem m ((s.framePos.y.toNat + r) * s.activeSize.x.toNat + x)
      else s.colorAt (k + j) x := by
  induction rows generalizing k j m with
  | nil => simp at hj
  | cons a rows ih =>
    rw [List.nodup_cons] at hnd
    rw [State.placeRows]
    cases j with
    | zero =>
      simp only [List.getElem?_cons_zero, Option.some.injEq] at hj
      subst hj
      rw [if_pos hy, s.readMem_placeRows_miss rows (k + 1) (s.placeRow_wf k _ h) _ hx
        (.inl fun r hr e => hnd.1 (by rwa [show a = r by omega])), s.readMem_placeRow k _ h _ hx]
      by_cases hc : s.colorAt k x = 0
      · rw [if_neg (fun hh => hh.2.2.2 hc), Nat.add_zero, if_pos hc]
      · rw [if_pos ⟨rfl, h1, h2, hc⟩, Nat.add_zero, if_neg hc]
    | succ j =>
      simp only [List.getElem?_cons_succ] at hj
      have hne : a ≠ r := fun e => hnd.1 (by rw [e]; exact List.mem_of_getElem? hj)
      have e : k + 1 + j = k + (j + 1) := by omega
      split
      · have hkeep := s.readMem_placeRow k (s.framePos.y.toNat + a) h (s.framePos.y.toNat + r) hx
        rw [if_neg (by omega)] at hkeep
        rw [ih (k + 1) (s.placeRow_wf k _ h) hnd.2 hj, e, hkeep]
      · rw [ih (k + 1) h hnd.2 hj, e]

theorem State.placeRows_below (s : State) (rows : List Nat) (k : Nat) {n : Nat} {m : Mem 32} (h : memBelow n m)
    (hn : s.canvasLen ≤ n) : memBelow n (s.placeRows rows k m) := by
  induction rows generalizing k m with
  | nil => exact h
  | cons r rows ih =>
    rw [State.placeRows]
    apply ih
    split
    · rename_i hy
      rcases clip_le s.frameSize.x.toNat s.activeSize.x.toNat s.framePos.x.toNat with h0 | h0
      · rw [State.placeRow, h0]; exact h
      · exact drawRow_below _ _ _ h (Nat.le_trans (row_end_le h0 hy) hn)
    · exact h

/-- Outside the canvas a frame changes nothing. -/
theorem State.readMem_placeRows_outside (s : State) (rows : List Nat) (k : Nat) {m : Mem 32} (h : memWf m) {i : Nat}
    (hi : s.canvasLen ≤ i) : readMem (s.placeRows rows k m) i = readMem m i := by
  induction rows generalizing k m with
  | nil => rfl
  | cons r rows ih =>
    rw [State.placeRows]
    split
    · rename_i hy
      rw [ih (k + 1) (s.placeRow_wf k _ h)]
      rcases clip_le s.frameSize.x.toNat s.activeSize.x.toNat s.framePos.x.toNat with h0 | h0
      · rw [State.placeRow, h0]; rfl
      · have := row_end_le h0 hy
        rw [State.canvasLen] at hi
        rw [State.placeRow, readMem_drawRow _ _ _ h, if_neg (by omega)]
    · exact ih (k + 1) h

/-! ### The interlaced row order -/

theorem count_filter_range (p : Nat → Bool) (h a : Nat) :
    ((List.range h).filter p).count a = if a < h ∧ p a then 1 else 0 := by
  by_cases hp : p a
  · rw [List.count_filter (by exact hp), List.Nodup.count List.nodup_range]
    simp [hp]
  · rw [List.count_eq_zero_of_not_mem (by simp [hp])]
    simp [hp]

/-- Every row of the frame stands once in ILORDER (R158). -/
theorem ilorder_perm (h : Nat) : (ilorder h).Perm (List.range h) := by
  rw [List.perm_iff_count]
  intro a
  simp only [ilorder, List.count_append, count_filter_range, beq_iff_eq]
  rw [List.Nodup.count List.nodup_range]
  by_cases ha : a < h
  · simp only [ha, true_and, List.mem_range, if_true]
    have : a % 8 < 8 := Nat.mod_lt _ (by decide)
    by_cases h1 : a % 8 = 0
    · rw [if_pos h1, if_neg (by omega), if_neg (by omega), if_neg (by omega)]
    by_cases h2 : a % 8 = 4
    · rw [if_neg h1, if_pos h2, if_neg (by omega), if_neg (by omega)]
    by_cases h3 : a % 4 = 2
    · rw [if_neg h1, if_neg h2, if_pos h3, if_neg (by omega)]
    · rw [if_neg h1, if_neg h2, if_neg h3, if_pos (by omega)]
  · simp [ha]

theorem ilorder_nodup (h : Nat) : (ilorder h).Nodup :=
  (ilorder_perm h).nodup_iff.2 List.nodup_range

theorem mem_ilorder {h r : Nat} : r ∈ ilorder h ↔ r < h := by
  rw [(ilorder_perm h).mem_iff, List.mem_range]

theorem State.rowOrder_nodup (s : State) : s.rowOrder.Nodup := by
  rw [State.rowOrder]
  split
  · exact ilorder_nodup _
  · exact List.nodup_range

theorem State.mem_rowOrder (s : State) (r : Nat) : r ∈ s.rowOrder ↔ r < s.frameSize.y.toNat := by
  rw [State.rowOrder]
  split
  · exact mem_ilorder
  · exact List.mem_range

end Sys2Proof.Machine
end

