-- ==== Sys2Proof/Laws/State.lean ====
section
/-! SUPPORT. For each named update of State, the fields it leaves alone, and the value it gives the fields it writes, as
rewriting rules, so that no proof unfolds a record update. -/

namespace Sys2Proof.Machine

@[simp] theorem State.toPhase_unchanged (p : Phase) (s : State) :
    (s.toPhase p).par = s.par ∧ (s.toPhase p).env = s.env ∧ (s.toPhase p).cmdl = s.cmdl ∧
    (s.toPhase p).drainl = s.drainl ∧ (s.toPhase p).started = s.started ∧ (s.toPhase p).drainLeft = s.drainLeft ∧
    (s.toPhase p).status = s.status ∧ (s.toPhase p).doneIe = s.doneIe ∧ (s.toPhase p).canvasSize = s.canvasSize ∧
    (s.toPhase p).bgcolor = s.bgcolor ∧ (s.toPhase p).gctPresent = s.gctPresent ∧
    (s.toPhase p).framePos = s.framePos ∧ (s.toPhase p).frameSize = s.frameSize ∧
    (s.toPhase p).frameCtrl = s.frameCtrl ∧ (s.toPhase p).lastPos = s.lastPos ∧
    (s.toPhase p).lastSize = s.lastSize ∧ (s.toPhase p).lastDispose = s.lastDispose ∧
    (s.toPhase p).lastValid = s.lastValid ∧ (s.toPhase p).pixCount = s.pixCount ∧
    (s.toPhase p).bytesIn = s.bytesIn ∧ (s.toPhase p).frameCount = s.frameCount ∧
    (s.toPhase p).activeSize = s.activeSize ∧ (s.toPhase p).cbufSel = s.cbufSel ∧
    (s.toPhase p).cbufIdx = s.cbufIdx ∧ (s.toPhase p).ibufIdx = s.ibufIdx ∧ (s.toPhase p).dec = s.dec ∧
    (s.toPhase p).prefixMem = s.prefixMem ∧ (s.toPhase p).suffixMem = s.suffixMem ∧
    (s.toPhase p).stack = s.stack ∧ (s.toPhase p).ibuf = s.ibuf ∧ (s.toPhase p).gct = s.gct ∧
    (s.toPhase p).lct = s.lct ∧ (s.toPhase p).cur = s.cur ∧ (s.toPhase p).prev = s.prev ∧ (s.toPhase p).scr = s.scr :=
  ⟨rfl, rfl, rfl, rfl, rfl, rfl, rfl, rfl, rfl, rfl, rfl, rfl, rfl, rfl, rfl, rfl, rfl, rfl, rfl, rfl, rfl,
    rfl, rfl, rfl, rfl, rfl, rfl, rfl, rfl, rfl, rfl, rfl, rfl, rfl, rfl⟩

@[simp] theorem State.toDecode_unchanged (s : State) :
    s.toDecode.par = s.par ∧ s.toDecode.env = s.env ∧ s.toDecode.cmdl = s.cmdl ∧ s.toDecode.drainl = s.drainl ∧
    s.toDecode.drainLeft = s.drainLeft ∧ s.toDecode.status = s.status ∧ s.toDecode.doneIe = s.doneIe ∧
    s.toDecode.canvasSize = s.canvasSize ∧ s.toDecode.bgcolor = s.bgcolor ∧ s.toDecode.gctPresent = s.gctPresent ∧
    s.toDecode.framePos = s.framePos ∧ s.toDecode.frameSize = s.frameSize ∧ s.toDecode.frameCtrl = s.frameCtrl ∧
    s.toDecode.lastPos = s.lastPos ∧ s.toDecode.lastSize = s.lastSize ∧ s.toDecode.lastDispose = s.lastDispose ∧
    s.toDecode.lastValid = s.lastValid ∧ s.toDecode.pixCount = s.pixCount ∧ s.toDecode.bytesIn = s.bytesIn ∧
    s.toDecode.frameCount = s.frameCount ∧ s.toDecode.activeSize = s.activeSize ∧ s.toDecode.cbufSel = s.cbufSel ∧
    s.toDecode.cbufIdx = s.cbufIdx ∧ s.toDecode.ibufIdx = s.ibufIdx ∧ s.toDecode.dec = s.dec ∧
    s.toDecode.prefixMem = s.prefixMem ∧ s.toDecode.suffixMem = s.suffixMem ∧ s.toDecode.stack = s.stack ∧
    s.toDecode.ibuf = s.ibuf ∧ s.toDecode.gct = s.gct ∧ s.toDecode.lct = s.lct ∧ s.toDecode.cur = s.cur ∧
    s.toDecode.prev = s.prev ∧ s.toDecode.scr = s.scr :=
  ⟨rfl, rfl, rfl, rfl, rfl, rfl, rfl, rfl, rfl, rfl, rfl, rfl, rfl, rfl, rfl, rfl, rfl, rfl, rfl, rfl, rfl,
    rfl, rfl, rfl, rfl, rfl, rfl, rfl, rfl, rfl, rfl, rfl, rfl, rfl⟩

@[simp] theorem State.setBwerr_unchanged (s : State) :
    s.setBwerr.par = s.par ∧ s.setBwerr.env = s.env ∧ s.setBwerr.phase = s.phase ∧ s.setBwerr.cmdl = s.cmdl ∧
    s.setBwerr.drainl = s.drainl ∧ s.setBwerr.started = s.started ∧ s.setBwerr.drainLeft = s.drainLeft ∧
    s.setBwerr.doneIe = s.doneIe ∧ s.setBwerr.canvasSize = s.canvasSize ∧ s.setBwerr.bgcolor = s.bgcolor ∧
    s.setBwerr.gctPresent = s.gctPresent ∧ s.setBwerr.framePos = s.framePos ∧ s.setBwerr.frameSize = s.frameSize ∧
    s.setBwerr.frameCtrl = s.frameCtrl ∧ s.setBwerr.lastPos = s.lastPos ∧ s.setBwerr.lastSize = s.lastSize ∧
    s.setBwerr.lastDispose = s.lastDispose ∧ s.setBwerr.lastValid = s.lastValid ∧
    s.setBwerr.pixCount = s.pixCount ∧ s.setBwerr.bytesIn = s.bytesIn ∧ s.setBwerr.frameCount = s.frameCount ∧
    s.setBwerr.activeSize = s.activeSize ∧ s.setBwerr.cbufSel = s.cbufSel ∧ s.setBwerr.cbufIdx = s.cbufIdx ∧
    s.setBwerr.ibufIdx = s.ibufIdx ∧ s.setBwerr.dec = s.dec ∧ s.setBwerr.prefixMem = s.prefixMem ∧
    s.setBwerr.suffixMem = s.suffixMem ∧ s.setBwerr.stack = s.stack ∧ s.setBwerr.ibuf = s.ibuf ∧
    s.setBwerr.gct = s.gct ∧ s.setBwerr.lct = s.lct ∧ s.setBwerr.cur = s.cur ∧ s.setBwerr.prev = s.prev ∧
    s.setBwerr.scr = s.scr :=
  ⟨rfl, rfl, rfl, rfl, rfl, rfl, rfl, rfl, rfl, rfl, rfl, rfl, rfl, rfl, rfl, rfl, rfl, rfl, rfl, rfl, rfl,
    rfl, rfl, rfl, rfl, rfl, rfl, rfl, rfl, rfl, rfl, rfl, rfl, rfl, rfl⟩

@[simp] theorem State.clearOnStart_unchanged (s : State) :
    s.clearOnStart.par = s.par ∧ s.clearOnStart.env = s.env ∧ s.clearOnStart.phase = s.phase ∧
    s.clearOnStart.cmdl = s.cmdl ∧ s.clearOnStart.drainl = s.drainl ∧ s.clearOnStart.started = s.started ∧
    s.clearOnStart.drainLeft = s.drainLeft ∧ s.clearOnStart.doneIe = s.doneIe ∧
    s.clearOnStart.canvasSize = s.canvasSize ∧ s.clearOnStart.bgcolor = s.bgcolor ∧
    s.clearOnStart.gctPresent = s.gctPresent ∧ s.clearOnStart.framePos = s.framePos ∧
    s.clearOnStart.frameSize = s.frameSize ∧ s.clearOnStart.frameCtrl = s.frameCtrl ∧
    s.clearOnStart.lastPos = s.lastPos ∧ s.clearOnStart.lastSize = s.lastSize ∧
    s.clearOnStart.lastDispose = s.lastDispose ∧ s.clearOnStart.lastValid = s.lastValid ∧
    s.clearOnStart.frameCount = s.frameCount ∧ s.clearOnStart.activeSize = s.activeSize ∧
    s.clearOnStart.cbufSel = s.cbufSel ∧ s.clearOnStart.cbufIdx = s.cbufIdx ∧ s.clearOnStart.ibufIdx = s.ibufIdx ∧
    s.clearOnStart.dec = s.dec ∧ s.clearOnStart.prefixMem = s.prefixMem ∧ s.clearOnStart.suffixMem = s.suffixMem ∧
    s.clearOnStart.stack = s.stack ∧ s.clearOnStart.ibuf = s.ibuf ∧ s.clearOnStart.gct = s.gct ∧
    s.clearOnStart.lct = s.lct ∧ s.clearOnStart.cur = s.cur ∧ s.clearOnStart.prev = s.prev ∧
    s.clearOnStart.scr = s.scr :=
  ⟨rfl, rfl, rfl, rfl, rfl, rfl, rfl, rfl, rfl, rfl, rfl, rfl, rfl, rfl, rfl, rfl, rfl, rfl, rfl, rfl, rfl,
    rfl, rfl, rfl, rfl, rfl, rfl, rfl, rfl, rfl, rfl, rfl, rfl⟩

@[simp] theorem State.accept_unchanged (cmd : BitVec 4) (drain : Bool) (s : State) :
    (s.accept cmd drain).par = s.par ∧ (s.accept cmd drain).env = s.env ∧
    (s.accept cmd drain).started = s.started ∧ (s.accept cmd drain).drainLeft = s.drainLeft ∧
    (s.accept cmd drain).doneIe = s.doneIe ∧ (s.accept cmd drain).canvasSize = s.canvasSize ∧
    (s.accept cmd drain).bgcolor = s.bgcolor ∧ (s.accept cmd drain).gctPresent = s.gctPresent ∧
    (s.accept cmd drain).framePos = s.framePos ∧ (s.accept cmd drain).frameSize = s.frameSize ∧
    (s.accept cmd drain).frameCtrl = s.frameCtrl ∧ (s.accept cmd drain).lastPos = s.lastPos ∧
    (s.accept cmd drain).lastSize = s.lastSize ∧ (s.accept cmd drain).lastDispose = s.lastDispose ∧
    (s.accept cmd drain).lastValid = s.lastValid ∧ (s.accept cmd drain).frameCount = s.frameCount ∧
    (s.accept cmd drain).activeSize = s.activeSize ∧ (s.accept cmd drain).cbufSel = s.cbufSel ∧
    (s.accept cmd drain).cbufIdx = s.cbufIdx ∧ (s.accept cmd drain).ibufIdx = s.ibufIdx ∧
    (s.accept cmd drain).dec = s.dec ∧ (s.accept cmd drain).prefixMem = s.prefixMem ∧
    (s.accept cmd drain).suffixMem = s.suffixMem ∧ (s.accept cmd drain).stack = s.stack ∧
    (s.accept cmd drain).ibuf = s.ibuf ∧ (s.accept cmd drain).gct = s.gct ∧ (s.accept cmd drain).lct = s.lct ∧
    (s.accept cmd drain).cur = s.cur ∧ (s.accept cmd drain).prev = s.prev ∧ (s.accept cmd drain).scr = s.scr :=
  ⟨rfl, rfl, rfl, rfl, rfl, rfl, rfl, rfl, rfl, rfl, rfl, rfl, rfl, rfl, rfl, rfl, rfl, rfl, rfl, rfl, rfl,
    rfl, rfl, rfl, rfl, rfl, rfl, rfl, rfl, rfl⟩

@[simp] theorem State.complete_unchanged (s : State) :
    s.complete.par = s.par ∧ s.complete.env = s.env ∧ s.complete.cmdl = s.cmdl ∧ s.complete.drainl = s.drainl ∧
    s.complete.started = s.started ∧ s.complete.drainLeft = s.drainLeft ∧ s.complete.doneIe = s.doneIe ∧
    s.complete.canvasSize = s.canvasSize ∧ s.complete.bgcolor = s.bgcolor ∧ s.complete.gctPresent = s.gctPresent ∧
    s.complete.framePos = s.framePos ∧ s.complete.frameSize = s.frameSize ∧ s.complete.frameCtrl = s.frameCtrl ∧
    s.complete.lastPos = s.lastPos ∧ s.complete.lastSize = s.lastSize ∧ s.complete.lastDispose = s.lastDispose ∧
    s.complete.lastValid = s.lastValid ∧ s.complete.pixCount = s.pixCount ∧ s.complete.bytesIn = s.bytesIn ∧
    s.complete.frameCount = s.frameCount ∧ s.complete.activeSize = s.activeSize ∧ s.complete.cbufSel = s.cbufSel ∧
    s.complete.cbufIdx = s.cbufIdx ∧ s.complete.ibufIdx = s.ibufIdx ∧ s.complete.dec = s.dec ∧
    s.complete.prefixMem = s.prefixMem ∧ s.complete.suffixMem = s.suffixMem ∧ s.complete.stack = s.stack ∧
    s.complete.ibuf = s.ibuf ∧ s.complete.gct = s.gct ∧ s.complete.lct = s.lct ∧ s.complete.cur = s.cur ∧
    s.complete.prev = s.prev ∧ s.complete.scr = s.scr :=
  ⟨rfl, rfl, rfl, rfl, rfl, rfl, rfl, rfl, rfl, rfl, rfl, rfl, rfl, rfl, rfl, rfl, rfl, rfl, rfl, rfl, rfl,
    rfl, rfl, rfl, rfl, rfl, rfl, rfl, rfl, rfl, rfl, rfl, rfl, rfl⟩

@[simp] theorem State.raiseError_unchanged (code : Ecode) (s : State) :
    (s.raiseError code).par = s.par ∧ (s.raiseError code).env = s.env ∧ (s.raiseError code).cmdl = s.cmdl ∧
    (s.raiseError code).drainl = s.drainl ∧ (s.raiseError code).started = s.started ∧
    (s.raiseError code).drainLeft = s.drainLeft ∧ (s.raiseError code).doneIe = s.doneIe ∧
    (s.raiseError code).canvasSize = s.canvasSize ∧ (s.raiseError code).bgcolor = s.bgcolor ∧
    (s.raiseError code).gctPresent = s.gctPresent ∧ (s.raiseError code).framePos = s.framePos ∧
    (s.raiseError code).frameSize = s.frameSize ∧ (s.raiseError code).frameCtrl = s.frameCtrl ∧
    (s.raiseError code).lastPos = s.lastPos ∧ (s.raiseError code).lastSize = s.lastSize ∧
    (s.raiseError code).lastDispose = s.lastDispose ∧ (s.raiseError code).lastValid = s.lastValid ∧
    (s.raiseError code).pixCount = s.pixCount ∧ (s.raiseError code).bytesIn = s.bytesIn ∧
    (s.raiseError code).frameCount = s.frameCount ∧ (s.raiseError code).activeSize = s.activeSize ∧
    (s.raiseError code).cbufSel = s.cbufSel ∧ (s.raiseError code).cbufIdx = s.cbufIdx ∧
    (s.raiseError code).ibufIdx = s.ibufIdx ∧ (s.raiseError code).dec = s.dec ∧
    (s.raiseError code).prefixMem = s.prefixMem ∧ (s.raiseError code).suffixMem = s.suffixMem ∧
    (s.raiseError code).stack = s.stack ∧ (s.raiseError code).ibuf = s.ibuf ∧ (s.raiseError code).gct = s.gct ∧
    (s.raiseError code).lct = s.lct ∧ (s.raiseError code).cur = s.cur ∧ (s.raiseError code).prev = s.prev ∧
    (s.raiseError code).scr = s.scr :=
  ⟨rfl, rfl, rfl, rfl, rfl, rfl, rfl, rfl, rfl, rfl, rfl, rfl, rfl, rfl, rfl, rfl, rfl, rfl, rfl, rfl, rfl,
    rfl, rfl, rfl, rfl, rfl, rfl, rfl, rfl, rfl, rfl, rfl, rfl, rfl⟩

@[simp] theorem State.w1cStatus_unchanged (v : Word) (s : State) :
    (s.w1cStatus v).par = s.par ∧ (s.w1cStatus v).env = s.env ∧ (s.w1cStatus v).phase = s.phase ∧
    (s.w1cStatus v).cmdl = s.cmdl ∧ (s.w1cStatus v).drainl = s.drainl ∧ (s.w1cStatus v).started = s.started ∧
    (s.w1cStatus v).drainLeft = s.drainLeft ∧ (s.w1cStatus v).doneIe = s.doneIe ∧
    (s.w1cStatus v).canvasSize = s.canvasSize ∧ (s.w1cStatus v).bgcolor = s.bgcolor ∧
    (s.w1cStatus v).gctPresent = s.gctPresent ∧ (s.w1cStatus v).framePos = s.framePos ∧
    (s.w1cStatus v).frameSize = s.frameSize ∧ (s.w1cStatus v).frameCtrl = s.frameCtrl ∧
    (s.w1cStatus v).lastPos = s.lastPos ∧ (s.w1cStatus v).lastSize = s.lastSize ∧
    (s.w1cStatus v).lastDispose = s.lastDispose ∧ (s.w1cStatus v).lastValid = s.lastValid ∧
    (s.w1cStatus v).pixCount = s.pixCount ∧ (s.w1cStatus v).bytesIn = s.bytesIn ∧
    (s.w1cStatus v).frameCount = s.frameCount ∧ (s.w1cStatus v).activeSize = s.activeSize ∧
    (s.w1cStatus v).cbufSel = s.cbufSel ∧ (s.w1cStatus v).cbufIdx = s.cbufIdx ∧
    (s.w1cStatus v).ibufIdx = s.ibufIdx ∧ (s.w1cStatus v).dec = s.dec ∧ (s.w1cStatus v).prefixMem = s.prefixMem ∧
    (s.w1cStatus v).suffixMem = s.suffixMem ∧ (s.w1cStatus v).stack = s.stack ∧ (s.w1cStatus v).ibuf = s.ibuf ∧
    (s.w1cStatus v).gct = s.gct ∧ (s.w1cStatus v).lct = s.lct ∧ (s.w1cStatus v).cur = s.cur ∧
    (s.w1cStatus v).prev = s.prev ∧ (s.w1cStatus v).scr = s.scr :=
  ⟨rfl, rfl, rfl, rfl, rfl, rfl, rfl, rfl, rfl, rfl, rfl, rfl, rfl, rfl, rfl, rfl, rfl, rfl, rfl, rfl, rfl,
    rfl, rfl, rfl, rfl, rfl, rfl, rfl, rfl, rfl, rfl, rfl, rfl, rfl, rfl⟩

@[simp] theorem State.consumeByte_unchanged (s : State) :
    s.consumeByte.par = s.par ∧ s.consumeByte.phase = s.phase ∧ s.consumeByte.cmdl = s.cmdl ∧
    s.consumeByte.drainl = s.drainl ∧ s.consumeByte.started = s.started ∧ s.consumeByte.drainLeft = s.drainLeft ∧
    s.consumeByte.status = s.status ∧ s.consumeByte.doneIe = s.doneIe ∧ s.consumeByte.canvasSize = s.canvasSize ∧
    s.consumeByte.bgcolor = s.bgcolor ∧ s.consumeByte.gctPresent = s.gctPresent ∧
    s.consumeByte.framePos = s.framePos ∧ s.consumeByte.frameSize = s.frameSize ∧
    s.consumeByte.frameCtrl = s.frameCtrl ∧ s.consumeByte.lastPos = s.lastPos ∧
    s.consumeByte.lastSize = s.lastSize ∧ s.consumeByte.lastDispose = s.lastDispose ∧
    s.consumeByte.lastValid = s.lastValid ∧ s.consumeByte.pixCount = s.pixCount ∧
    s.consumeByte.frameCount = s.frameCount ∧ s.consumeByte.activeSize = s.activeSize ∧
    s.consumeByte.cbufSel = s.cbufSel ∧ s.consumeByte.cbufIdx = s.cbufIdx ∧ s.consumeByte.ibufIdx = s.ibufIdx ∧
    s.consumeByte.dec = s.dec ∧ s.consumeByte.prefixMem = s.prefixMem ∧ s.consumeByte.suffixMem = s.suffixMem ∧
    s.consumeByte.stack = s.stack ∧ s.consumeByte.ibuf = s.ibuf ∧ s.consumeByte.gct = s.gct ∧
    s.consumeByte.lct = s.lct ∧ s.consumeByte.cur = s.cur ∧ s.consumeByte.prev = s.prev ∧ s.consumeByte.scr = s.scr :=
  ⟨rfl, rfl, rfl, rfl, rfl, rfl, rfl, rfl, rfl, rfl, rfl, rfl, rfl, rfl, rfl, rfl, rfl, rfl, rfl, rfl, rfl,
    rfl, rfl, rfl, rfl, rfl, rfl, rfl, rfl, rfl, rfl, rfl, rfl, rfl⟩

@[simp] theorem State.stop_unchanged (cause : Term) (s : State) :
    (s.stop cause).par = s.par ∧ (s.stop cause).env = s.env ∧ (s.stop cause).cmdl = s.cmdl ∧
    (s.stop cause).drainl = s.drainl ∧ (s.stop cause).started = s.started ∧
    (s.stop cause).drainLeft = s.drainLeft ∧ (s.stop cause).doneIe = s.doneIe ∧
    (s.stop cause).canvasSize = s.canvasSize ∧ (s.stop cause).bgcolor = s.bgcolor ∧
    (s.stop cause).gctPresent = s.gctPresent ∧ (s.stop cause).framePos = s.framePos ∧
    (s.stop cause).frameSize = s.frameSize ∧ (s.stop cause).frameCtrl = s.frameCtrl ∧
    (s.stop cause).lastPos = s.lastPos ∧ (s.stop cause).lastSize = s.lastSize ∧
    (s.stop cause).lastDispose = s.lastDispose ∧ (s.stop cause).lastValid = s.lastValid ∧
    (s.stop cause).bytesIn = s.bytesIn ∧ (s.stop cause).frameCount = s.frameCount ∧
    (s.stop cause).activeSize = s.activeSize ∧ (s.stop cause).cbufSel = s.cbufSel ∧
    (s.stop cause).cbufIdx = s.cbufIdx ∧ (s.stop cause).ibufIdx = s.ibufIdx ∧ (s.stop cause).dec = s.dec ∧
    (s.stop cause).prefixMem = s.prefixMem ∧ (s.stop cause).suffixMem = s.suffixMem ∧
    (s.stop cause).stack = s.stack ∧ (s.stop cause).ibuf = s.ibuf ∧ (s.stop cause).gct = s.gct ∧
    (s.stop cause).lct = s.lct ∧ (s.stop cause).cur = s.cur ∧ (s.stop cause).prev = s.prev ∧
    (s.stop cause).scr = s.scr :=
  ⟨rfl, rfl, rfl, rfl, rfl, rfl, rfl, rfl, rfl, rfl, rfl, rfl, rfl, rfl, rfl, rfl, rfl, rfl, rfl, rfl, rfl,
    rfl, rfl, rfl, rfl, rfl, rfl, rfl, rfl, rfl, rfl, rfl, rfl⟩

@[simp] theorem State.stopChain_unchanged (cause : Term) (s : State) :
    (s.stopChain cause).par = s.par ∧ (s.stopChain cause).env = s.env ∧ (s.stopChain cause).cmdl = s.cmdl ∧
    (s.stopChain cause).drainl = s.drainl ∧ (s.stopChain cause).started = s.started ∧
    (s.stopChain cause).drainLeft = s.drainLeft ∧ (s.stopChain cause).doneIe = s.doneIe ∧
    (s.stopChain cause).canvasSize = s.canvasSize ∧ (s.stopChain cause).bgcolor = s.bgcolor ∧
    (s.stopChain cause).gctPresent = s.gctPresent ∧ (s.stopChain cause).framePos = s.framePos ∧
    (s.stopChain cause).frameSize = s.frameSize ∧ (s.stopChain cause).frameCtrl = s.frameCtrl ∧
    (s.stopChain cause).lastPos = s.lastPos ∧ (s.stopChain cause).lastSize = s.lastSize ∧
    (s.stopChain cause).lastDispose = s.lastDispose ∧ (s.stopChain cause).lastValid = s.lastValid ∧
    (s.stopChain cause).bytesIn = s.bytesIn ∧ (s.stopChain cause).frameCount = s.frameCount ∧
    (s.stopChain cause).activeSize = s.activeSize ∧ (s.stopChain cause).cbufSel = s.cbufSel ∧
    (s.stopChain cause).cbufIdx = s.cbufIdx ∧ (s.stopChain cause).ibufIdx = s.ibufIdx ∧
    (s.stopChain cause).prefixMem = s.prefixMem ∧ (s.stopChain cause).suffixMem = s.suffixMem ∧
    (s.stopChain cause).stack = s.stack ∧ (s.stopChain cause).ibuf = s.ibuf ∧ (s.stopChain cause).gct = s.gct ∧
    (s.stopChain cause).lct = s.lct ∧ (s.stopChain cause).cur = s.cur ∧ (s.stopChain cause).prev = s.prev ∧
    (s.stopChain cause).scr = s.scr :=
  ⟨rfl, rfl, rfl, rfl, rfl, rfl, rfl, rfl, rfl, rfl, rfl, rfl, rfl, rfl, rfl, rfl, rfl, rfl, rfl, rfl, rfl,
    rfl, rfl, rfl, rfl, rfl, rfl, rfl, rfl, rfl, rfl, rfl⟩

@[simp] theorem State.pop_unchanged (s : State) :
    s.pop.par = s.par ∧ s.pop.env = s.env ∧ s.pop.phase = s.phase ∧ s.pop.cmdl = s.cmdl ∧
    s.pop.drainl = s.drainl ∧ s.pop.started = s.started ∧ s.pop.drainLeft = s.drainLeft ∧
    s.pop.status = s.status ∧ s.pop.doneIe = s.doneIe ∧ s.pop.canvasSize = s.canvasSize ∧
    s.pop.bgcolor = s.bgcolor ∧ s.pop.gctPresent = s.gctPresent ∧ s.pop.framePos = s.framePos ∧
    s.pop.frameSize = s.frameSize ∧ s.pop.frameCtrl = s.frameCtrl ∧ s.pop.lastPos = s.lastPos ∧
    s.pop.lastSize = s.lastSize ∧ s.pop.lastDispose = s.lastDispose ∧ s.pop.lastValid = s.lastValid ∧
    s.pop.pixCount = s.pixCount ∧ s.pop.bytesIn = s.bytesIn ∧ s.pop.frameCount = s.frameCount ∧
    s.pop.activeSize = s.activeSize ∧ s.pop.cbufSel = s.cbufSel ∧ s.pop.cbufIdx = s.cbufIdx ∧
    s.pop.ibufIdx = s.ibufIdx ∧ s.pop.prefixMem = s.prefixMem ∧ s.pop.suffixMem = s.suffixMem ∧
    s.pop.stack = s.stack ∧ s.pop.gct = s.gct ∧ s.pop.lct = s.lct ∧ s.pop.cur = s.cur ∧ s.pop.prev = s.prev ∧
    s.pop.scr = s.scr :=
  ⟨rfl, rfl, rfl, rfl, rfl, rfl, rfl, rfl, rfl, rfl, rfl, rfl, rfl, rfl, rfl, rfl, rfl, rfl, rfl, rfl, rfl,
    rfl, rfl, rfl, rfl, rfl, rfl, rfl, rfl, rfl, rfl, rfl, rfl, rfl⟩

@[simp] theorem State.takeCode_unchanged (s : State) :
    s.takeCode.par = s.par ∧ s.takeCode.env = s.env ∧ s.takeCode.phase = s.phase ∧ s.takeCode.cmdl = s.cmdl ∧
    s.takeCode.drainl = s.drainl ∧ s.takeCode.started = s.started ∧ s.takeCode.drainLeft = s.drainLeft ∧
    s.takeCode.status = s.status ∧ s.takeCode.doneIe = s.doneIe ∧ s.takeCode.canvasSize = s.canvasSize ∧
    s.takeCode.bgcolor = s.bgcolor ∧ s.takeCode.gctPresent = s.gctPresent ∧ s.takeCode.framePos = s.framePos ∧
    s.takeCode.frameSize = s.frameSize ∧ s.takeCode.frameCtrl = s.frameCtrl ∧ s.takeCode.lastPos = s.lastPos ∧
    s.takeCode.lastSize = s.lastSize ∧ s.takeCode.lastDispose = s.lastDispose ∧
    s.takeCode.lastValid = s.lastValid ∧ s.takeCode.pixCount = s.pixCount ∧ s.takeCode.bytesIn = s.bytesIn ∧
    s.takeCode.frameCount = s.frameCount ∧ s.takeCode.activeSize = s.activeSize ∧ s.takeCode.cbufSel = s.cbufSel ∧
    s.takeCode.cbufIdx = s.cbufIdx ∧ s.takeCode.ibufIdx = s.ibufIdx ∧ s.takeCode.prefixMem = s.prefixMem ∧
    s.takeCode.suffixMem = s.suffixMem ∧ s.takeCode.stack = s.stack ∧ s.takeCode.ibuf = s.ibuf ∧
    s.takeCode.gct = s.gct ∧ s.takeCode.lct = s.lct ∧ s.takeCode.cur = s.cur ∧ s.takeCode.prev = s.prev ∧
    s.takeCode.scr = s.scr :=
  ⟨rfl, rfl, rfl, rfl, rfl, rfl, rfl, rfl, rfl, rfl, rfl, rfl, rfl, rfl, rfl, rfl, rfl, rfl, rfl, rfl, rfl,
    rfl, rfl, rfl, rfl, rfl, rfl, rfl, rfl, rfl, rfl, rfl, rfl, rfl, rfl⟩

@[simp] theorem State.setIncode_unchanged (code : Code) (s : State) :
    (s.setIncode code).par = s.par ∧ (s.setIncode code).env = s.env ∧ (s.setIncode code).phase = s.phase ∧
    (s.setIncode code).cmdl = s.cmdl ∧ (s.setIncode code).drainl = s.drainl ∧
    (s.setIncode code).started = s.started ∧ (s.setIncode code).drainLeft = s.drainLeft ∧
    (s.setIncode code).status = s.status ∧ (s.setIncode code).doneIe = s.doneIe ∧
    (s.setIncode code).canvasSize = s.canvasSize ∧ (s.setIncode code).bgcolor = s.bgcolor ∧
    (s.setIncode code).gctPresent = s.gctPresent ∧ (s.setIncode code).framePos = s.framePos ∧
    (s.setIncode code).frameSize = s.frameSize ∧ (s.setIncode code).frameCtrl = s.frameCtrl ∧
    (s.setIncode code).lastPos = s.lastPos ∧ (s.setIncode code).lastSize = s.lastSize ∧
    (s.setIncode code).lastDispose = s.lastDispose ∧ (s.setIncode code).lastValid = s.lastValid ∧
    (s.setIncode code).pixCount = s.pixCount ∧ (s.setIncode code).bytesIn = s.bytesIn ∧
    (s.setIncode code).frameCount = s.frameCount ∧ (s.setIncode code).activeSize = s.activeSize ∧
    (s.setIncode code).cbufSel = s.cbufSel ∧ (s.setIncode code).cbufIdx = s.cbufIdx ∧
    (s.setIncode code).ibufIdx = s.ibufIdx ∧ (s.setIncode code).prefixMem = s.prefixMem ∧
    (s.setIncode code).suffixMem = s.suffixMem ∧ (s.setIncode code).stack = s.stack ∧
    (s.setIncode code).ibuf = s.ibuf ∧ (s.setIncode code).gct = s.gct ∧ (s.setIncode code).lct = s.lct ∧
    (s.setIncode code).cur = s.cur ∧ (s.setIncode code).prev = s.prev ∧ (s.setIncode code).scr = s.scr :=
  ⟨rfl, rfl, rfl, rfl, rfl, rfl, rfl, rfl, rfl, rfl, rfl, rfl, rfl, rfl, rfl, rfl, rfl, rfl, rfl, rfl, rfl,
    rfl, rfl, rfl, rfl, rfl, rfl, rfl, rfl, rfl, rfl, rfl, rfl, rfl, rfl⟩

@[simp] theorem State.setFirst_unchanged (f : Byte) (s : State) :
    (s.setFirst f).par = s.par ∧ (s.setFirst f).env = s.env ∧ (s.setFirst f).phase = s.phase ∧
    (s.setFirst f).cmdl = s.cmdl ∧ (s.setFirst f).drainl = s.drainl ∧ (s.setFirst f).started = s.started ∧
    (s.setFirst f).drainLeft = s.drainLeft ∧ (s.setFirst f).status = s.status ∧ (s.setFirst f).doneIe = s.doneIe ∧
    (s.setFirst f).canvasSize = s.canvasSize ∧ (s.setFirst f).bgcolor = s.bgcolor ∧
    (s.setFirst f).gctPresent = s.gctPresent ∧ (s.setFirst f).framePos = s.framePos ∧
    (s.setFirst f).frameSize = s.frameSize ∧ (s.setFirst f).frameCtrl = s.frameCtrl ∧
    (s.setFirst f).lastPos = s.lastPos ∧ (s.setFirst f).lastSize = s.lastSize ∧
    (s.setFirst f).lastDispose = s.lastDispose ∧ (s.setFirst f).lastValid = s.lastValid ∧
    (s.setFirst f).pixCount = s.pixCount ∧ (s.setFirst f).bytesIn = s.bytesIn ∧
    (s.setFirst f).frameCount = s.frameCount ∧ (s.setFirst f).activeSize = s.activeSize ∧
    (s.setFirst f).cbufSel = s.cbufSel ∧ (s.setFirst f).cbufIdx = s.cbufIdx ∧ (s.setFirst f).ibufIdx = s.ibufIdx ∧
    (s.setFirst f).prefixMem = s.prefixMem ∧ (s.setFirst f).suffixMem = s.suffixMem ∧
    (s.setFirst f).stack = s.stack ∧ (s.setFirst f).ibuf = s.ibuf ∧ (s.setFirst f).gct = s.gct ∧
    (s.setFirst f).lct = s.lct ∧ (s.setFirst f).cur = s.cur ∧ (s.setFirst f).prev = s.prev ∧
    (s.setFirst f).scr = s.scr :=
  ⟨rfl, rfl, rfl, rfl, rfl, rfl, rfl, rfl, rfl, rfl, rfl, rfl, rfl, rfl, rfl, rfl, rfl, rfl, rfl, rfl, rfl,
    rfl, rfl, rfl, rfl, rfl, rfl, rfl, rfl, rfl, rfl, rfl, rfl, rfl, rfl⟩

@[simp] theorem State.setOld_unchanged (code : Code) (s : State) :
    (s.setOld code).par = s.par ∧ (s.setOld code).env = s.env ∧ (s.setOld code).phase = s.phase ∧
    (s.setOld code).cmdl = s.cmdl ∧ (s.setOld code).drainl = s.drainl ∧ (s.setOld code).started = s.started ∧
    (s.setOld code).drainLeft = s.drainLeft ∧ (s.setOld code).status = s.status ∧
    (s.setOld code).doneIe = s.doneIe ∧ (s.setOld code).canvasSize = s.canvasSize ∧
    (s.setOld code).bgcolor = s.bgcolor ∧ (s.setOld code).gctPresent = s.gctPresent ∧
    (s.setOld code).framePos = s.framePos ∧ (s.setOld code).frameSize = s.frameSize ∧
    (s.setOld code).frameCtrl = s.frameCtrl ∧ (s.setOld code).lastPos = s.lastPos ∧
    (s.setOld code).lastSize = s.lastSize ∧ (s.setOld code).lastDispose = s.lastDispose ∧
    (s.setOld code).lastValid = s.lastValid ∧ (s.setOld code).pixCount = s.pixCount ∧
    (s.setOld code).bytesIn = s.bytesIn ∧ (s.setOld code).frameCount = s.frameCount ∧
    (s.setOld code).activeSize = s.activeSize ∧ (s.setOld code).cbufSel = s.cbufSel ∧
    (s.setOld code).cbufIdx = s.cbufIdx ∧ (s.setOld code).ibufIdx = s.ibufIdx ∧
    (s.setOld code).prefixMem = s.prefixMem ∧ (s.setOld code).suffixMem = s.suffixMem ∧
    (s.setOld code).stack = s.stack ∧ (s.setOld code).ibuf = s.ibuf ∧ (s.setOld code).gct = s.gct ∧
    (s.setOld code).lct = s.lct ∧ (s.setOld code).cur = s.cur ∧ (s.setOld code).prev = s.prev ∧
    (s.setOld code).scr = s.scr :=
  ⟨rfl, rfl, rfl, rfl, rfl, rfl, rfl, rfl, rfl, rfl, rfl, rfl, rfl, rfl, rfl, rfl, rfl, rfl, rfl, rfl, rfl,
    rfl, rfl, rfl, rfl, rfl, rfl, rfl, rfl, rfl, rfl, rfl, rfl, rfl, rfl⟩

@[simp] theorem State.widen_unchanged (s : State) :
    s.widen.par = s.par ∧ s.widen.env = s.env ∧ s.widen.phase = s.phase ∧ s.widen.cmdl = s.cmdl ∧
    s.widen.drainl = s.drainl ∧ s.widen.started = s.started ∧ s.widen.drainLeft = s.drainLeft ∧
    s.widen.status = s.status ∧ s.widen.doneIe = s.doneIe ∧ s.widen.canvasSize = s.canvasSize ∧
    s.widen.bgcolor = s.bgcolor ∧ s.widen.gctPresent = s.gctPresent ∧ s.widen.framePos = s.framePos ∧
    s.widen.frameSize = s.frameSize ∧ s.widen.frameCtrl = s.frameCtrl ∧ s.widen.lastPos = s.lastPos ∧
    s.widen.lastSize = s.lastSize ∧ s.widen.lastDispose = s.lastDispose ∧ s.widen.lastValid = s.lastValid ∧
    s.widen.pixCount = s.pixCount ∧ s.widen.bytesIn = s.bytesIn ∧ s.widen.frameCount = s.frameCount ∧
    s.widen.activeSize = s.activeSize ∧ s.widen.cbufSel = s.cbufSel ∧ s.widen.cbufIdx = s.cbufIdx ∧
    s.widen.ibufIdx = s.ibufIdx ∧ s.widen.prefixMem = s.prefixMem ∧ s.widen.suffixMem = s.suffixMem ∧
    s.widen.stack = s.stack ∧ s.widen.ibuf = s.ibuf ∧ s.widen.gct = s.gct ∧ s.widen.lct = s.lct ∧
    s.widen.cur = s.cur ∧ s.widen.prev = s.prev ∧ s.widen.scr = s.scr :=
  ⟨rfl, rfl, rfl, rfl, rfl, rfl, rfl, rfl, rfl, rfl, rfl, rfl, rfl, rfl, rfl, rfl, rfl, rfl, rfl, rfl, rfl,
    rfl, rfl, rfl, rfl, rfl, rfl, rfl, rfl, rfl, rfl, rfl, rfl, rfl, rfl⟩

@[simp] theorem State.clearDict_unchanged (s : State) :
    s.clearDict.par = s.par ∧ s.clearDict.env = s.env ∧ s.clearDict.phase = s.phase ∧ s.clearDict.cmdl = s.cmdl ∧
    s.clearDict.drainl = s.drainl ∧ s.clearDict.started = s.started ∧ s.clearDict.drainLeft = s.drainLeft ∧
    s.clearDict.status = s.status ∧ s.clearDict.doneIe = s.doneIe ∧ s.clearDict.canvasSize = s.canvasSize ∧
    s.clearDict.bgcolor = s.bgcolor ∧ s.clearDict.gctPresent = s.gctPresent ∧ s.clearDict.framePos = s.framePos ∧
    s.clearDict.frameSize = s.frameSize ∧ s.clearDict.frameCtrl = s.frameCtrl ∧ s.clearDict.lastPos = s.lastPos ∧
    s.clearDict.lastSize = s.lastSize ∧ s.clearDict.lastDispose = s.lastDispose ∧
    s.clearDict.lastValid = s.lastValid ∧ s.clearDict.pixCount = s.pixCount ∧ s.clearDict.bytesIn = s.bytesIn ∧
    s.clearDict.frameCount = s.frameCount ∧ s.clearDict.activeSize = s.activeSize ∧
    s.clearDict.cbufSel = s.cbufSel ∧ s.clearDict.cbufIdx = s.cbufIdx ∧ s.clearDict.ibufIdx = s.ibufIdx ∧
    s.clearDict.prefixMem = s.prefixMem ∧ s.clearDict.suffixMem = s.suffixMem ∧ s.clearDict.stack = s.stack ∧
    s.clearDict.ibuf = s.ibuf ∧ s.clearDict.gct = s.gct ∧ s.clearDict.lct = s.lct ∧ s.clearDict.cur = s.cur ∧
    s.clearDict.prev = s.prev ∧ s.clearDict.scr = s.scr :=
  ⟨rfl, rfl, rfl, rfl, rfl, rfl, rfl, rfl, rfl, rfl, rfl, rfl, rfl, rfl, rfl, rfl, rfl, rfl, rfl, rfl, rfl,
    rfl, rfl, rfl, rfl, rfl, rfl, rfl, rfl, rfl, rfl, rfl, rfl, rfl, rfl⟩

@[simp] theorem State.writeEntry_unchanged (old : Code) (s : State) :
    (s.writeEntry old).par = s.par ∧ (s.writeEntry old).env = s.env ∧ (s.writeEntry old).phase = s.phase ∧
    (s.writeEntry old).cmdl = s.cmdl ∧ (s.writeEntry old).drainl = s.drainl ∧
    (s.writeEntry old).started = s.started ∧ (s.writeEntry old).drainLeft = s.drainLeft ∧
    (s.writeEntry old).status = s.status ∧ (s.writeEntry old).doneIe = s.doneIe ∧
    (s.writeEntry old).canvasSize = s.canvasSize ∧ (s.writeEntry old).bgcolor = s.bgcolor ∧
    (s.writeEntry old).gctPresent = s.gctPresent ∧ (s.writeEntry old).framePos = s.framePos ∧
    (s.writeEntry old).frameSize = s.frameSize ∧ (s.writeEntry old).frameCtrl = s.frameCtrl ∧
    (s.writeEntry old).lastPos = s.lastPos ∧ (s.writeEntry old).lastSize = s.lastSize ∧
    (s.writeEntry old).lastDispose = s.lastDispose ∧ (s.writeEntry old).lastValid = s.lastValid ∧
    (s.writeEntry old).pixCount = s.pixCount ∧ (s.writeEntry old).bytesIn = s.bytesIn ∧
    (s.writeEntry old).frameCount = s.frameCount ∧ (s.writeEntry old).activeSize = s.activeSize ∧
    (s.writeEntry old).cbufSel = s.cbufSel ∧ (s.writeEntry old).cbufIdx = s.cbufIdx ∧
    (s.writeEntry old).ibufIdx = s.ibufIdx ∧ (s.writeEntry old).stack = s.stack ∧
    (s.writeEntry old).ibuf = s.ibuf ∧ (s.writeEntry old).gct = s.gct ∧ (s.writeEntry old).lct = s.lct ∧
    (s.writeEntry old).cur = s.cur ∧ (s.writeEntry old).prev = s.prev ∧ (s.writeEntry old).scr = s.scr :=
  ⟨rfl, rfl, rfl, rfl, rfl, rfl, rfl, rfl, rfl, rfl, rfl, rfl, rfl, rfl, rfl, rfl, rfl, rfl, rfl, rfl, rfl,
    rfl, rfl, rfl, rfl, rfl, rfl, rfl, rfl, rfl, rfl, rfl, rfl⟩

@[simp] theorem State.pushRaw_unchanged (v : Byte) (s : State) :
    (s.pushRaw v).par = s.par ∧ (s.pushRaw v).env = s.env ∧ (s.pushRaw v).phase = s.phase ∧
    (s.pushRaw v).cmdl = s.cmdl ∧ (s.pushRaw v).drainl = s.drainl ∧ (s.pushRaw v).started = s.started ∧
    (s.pushRaw v).drainLeft = s.drainLeft ∧ (s.pushRaw v).status = s.status ∧ (s.pushRaw v).doneIe = s.doneIe ∧
    (s.pushRaw v).canvasSize = s.canvasSize ∧ (s.pushRaw v).bgcolor = s.bgcolor ∧
    (s.pushRaw v).gctPresent = s.gctPresent ∧ (s.pushRaw v).framePos = s.framePos ∧
    (s.pushRaw v).frameSize = s.frameSize ∧ (s.pushRaw v).frameCtrl = s.frameCtrl ∧
    (s.pushRaw v).lastPos = s.lastPos ∧ (s.pushRaw v).lastSize = s.lastSize ∧
    (s.pushRaw v).lastDispose = s.lastDispose ∧ (s.pushRaw v).lastValid = s.lastValid ∧
    (s.pushRaw v).pixCount = s.pixCount ∧ (s.pushRaw v).bytesIn = s.bytesIn ∧
    (s.pushRaw v).frameCount = s.frameCount ∧ (s.pushRaw v).activeSize = s.activeSize ∧
    (s.pushRaw v).cbufSel = s.cbufSel ∧ (s.pushRaw v).cbufIdx = s.cbufIdx ∧ (s.pushRaw v).ibufIdx = s.ibufIdx ∧
    (s.pushRaw v).prefixMem = s.prefixMem ∧ (s.pushRaw v).suffixMem = s.suffixMem ∧ (s.pushRaw v).ibuf = s.ibuf ∧
    (s.pushRaw v).gct = s.gct ∧ (s.pushRaw v).lct = s.lct ∧ (s.pushRaw v).cur = s.cur ∧
    (s.pushRaw v).prev = s.prev ∧ (s.pushRaw v).scr = s.scr :=
  ⟨rfl, rfl, rfl, rfl, rfl, rfl, rfl, rfl, rfl, rfl, rfl, rfl, rfl, rfl, rfl, rfl, rfl, rfl, rfl, rfl, rfl,
    rfl, rfl, rfl, rfl, rfl, rfl, rfl, rfl, rfl, rfl, rfl, rfl, rfl⟩

@[simp] theorem State.setSbcnt_unchanged (n : Byte) (s : State) :
    (s.setSbcnt n).par = s.par ∧ (s.setSbcnt n).env = s.env ∧ (s.setSbcnt n).phase = s.phase ∧
    (s.setSbcnt n).cmdl = s.cmdl ∧ (s.setSbcnt n).drainl = s.drainl ∧ (s.setSbcnt n).started = s.started ∧
    (s.setSbcnt n).drainLeft = s.drainLeft ∧ (s.setSbcnt n).status = s.status ∧ (s.setSbcnt n).doneIe = s.doneIe ∧
    (s.setSbcnt n).canvasSize = s.canvasSize ∧ (s.setSbcnt n).bgcolor = s.bgcolor ∧
    (s.setSbcnt n).gctPresent = s.gctPresent ∧ (s.setSbcnt n).framePos = s.framePos ∧
    (s.setSbcnt n).frameSize = s.frameSize ∧ (s.setSbcnt n).frameCtrl = s.frameCtrl ∧
    (s.setSbcnt n).lastPos = s.lastPos ∧ (s.setSbcnt n).lastSize = s.lastSize ∧
    (s.setSbcnt n).lastDispose = s.lastDispose ∧ (s.setSbcnt n).lastValid = s.lastValid ∧
    (s.setSbcnt n).pixCount = s.pixCount ∧ (s.setSbcnt n).bytesIn = s.bytesIn ∧
    (s.setSbcnt n).frameCount = s.frameCount ∧ (s.setSbcnt n).activeSize = s.activeSize ∧
    (s.setSbcnt n).cbufSel = s.cbufSel ∧ (s.setSbcnt n).cbufIdx = s.cbufIdx ∧ (s.setSbcnt n).ibufIdx = s.ibufIdx ∧
    (s.setSbcnt n).prefixMem = s.prefixMem ∧ (s.setSbcnt n).suffixMem = s.suffixMem ∧
    (s.setSbcnt n).stack = s.stack ∧ (s.setSbcnt n).ibuf = s.ibuf ∧ (s.setSbcnt n).gct = s.gct ∧
    (s.setSbcnt n).lct = s.lct ∧ (s.setSbcnt n).cur = s.cur ∧ (s.setSbcnt n).prev = s.prev ∧
    (s.setSbcnt n).scr = s.scr :=
  ⟨rfl, rfl, rfl, rfl, rfl, rfl, rfl, rfl, rfl, rfl, rfl, rfl, rfl, rfl, rfl, rfl, rfl, rfl, rfl, rfl, rfl,
    rfl, rfl, rfl, rfl, rfl, rfl, rfl, rfl, rfl, rfl, rfl, rfl, rfl, rfl⟩

@[simp] theorem State.zerofill_unchanged (s : State) :
    s.zerofill.par = s.par ∧ s.zerofill.env = s.env ∧ s.zerofill.phase = s.phase ∧ s.zerofill.cmdl = s.cmdl ∧
    s.zerofill.drainl = s.drainl ∧ s.zerofill.started = s.started ∧ s.zerofill.drainLeft = s.drainLeft ∧
    s.zerofill.status = s.status ∧ s.zerofill.doneIe = s.doneIe ∧ s.zerofill.canvasSize = s.canvasSize ∧
    s.zerofill.bgcolor = s.bgcolor ∧ s.zerofill.gctPresent = s.gctPresent ∧ s.zerofill.framePos = s.framePos ∧
    s.zerofill.frameSize = s.frameSize ∧ s.zerofill.frameCtrl = s.frameCtrl ∧ s.zerofill.lastPos = s.lastPos ∧
    s.zerofill.lastSize = s.lastSize ∧ s.zerofill.lastDispose = s.lastDispose ∧
    s.zerofill.lastValid = s.lastValid ∧ s.zerofill.pixCount = s.pixCount ∧ s.zerofill.bytesIn = s.bytesIn ∧
    s.zerofill.frameCount = s.frameCount ∧ s.zerofill.activeSize = s.activeSize ∧ s.zerofill.cbufSel = s.cbufSel ∧
    s.zerofill.cbufIdx = s.cbufIdx ∧ s.zerofill.ibufIdx = s.ibufIdx ∧ s.zerofill.dec = s.dec ∧
    s.zerofill.prefixMem = s.prefixMem ∧ s.zerofill.suffixMem = s.suffixMem ∧ s.zerofill.stack = s.stack ∧
    s.zerofill.gct = s.gct ∧ s.zerofill.lct = s.lct ∧ s.zerofill.cur = s.cur ∧ s.zerofill.prev = s.prev ∧
    s.zerofill.scr = s.scr :=
  ⟨rfl, rfl, rfl, rfl, rfl, rfl, rfl, rfl, rfl, rfl, rfl, rfl, rfl, rfl, rfl, rfl, rfl, rfl, rfl, rfl, rfl,
    rfl, rfl, rfl, rfl, rfl, rfl, rfl, rfl, rfl, rfl, rfl, rfl, rfl, rfl⟩

@[simp] theorem State.toDrain_unchanged (s : State) :
    s.toDrain.par = s.par ∧ s.toDrain.env = s.env ∧ s.toDrain.cmdl = s.cmdl ∧ s.toDrain.drainl = s.drainl ∧
    s.toDrain.started = s.started ∧ s.toDrain.status = s.status ∧ s.toDrain.doneIe = s.doneIe ∧
    s.toDrain.canvasSize = s.canvasSize ∧ s.toDrain.bgcolor = s.bgcolor ∧ s.toDrain.gctPresent = s.gctPresent ∧
    s.toDrain.framePos = s.framePos ∧ s.toDrain.frameSize = s.frameSize ∧ s.toDrain.frameCtrl = s.frameCtrl ∧
    s.toDrain.lastPos = s.lastPos ∧ s.toDrain.lastSize = s.lastSize ∧ s.toDrain.lastDispose = s.lastDispose ∧
    s.toDrain.lastValid = s.lastValid ∧ s.toDrain.pixCount = s.pixCount ∧ s.toDrain.bytesIn = s.bytesIn ∧
    s.toDrain.frameCount = s.frameCount ∧ s.toDrain.activeSize = s.activeSize ∧ s.toDrain.cbufSel = s.cbufSel ∧
    s.toDrain.cbufIdx = s.cbufIdx ∧ s.toDrain.ibufIdx = s.ibufIdx ∧ s.toDrain.dec = s.dec ∧
    s.toDrain.prefixMem = s.prefixMem ∧ s.toDrain.suffixMem = s.suffixMem ∧ s.toDrain.stack = s.stack ∧
    s.toDrain.ibuf = s.ibuf ∧ s.toDrain.gct = s.gct ∧ s.toDrain.lct = s.lct ∧ s.toDrain.cur = s.cur ∧
    s.toDrain.prev = s.prev ∧ s.toDrain.scr = s.scr :=
  ⟨rfl, rfl, rfl, rfl, rfl, rfl, rfl, rfl, rfl, rfl, rfl, rfl, rfl, rfl, rfl, rfl, rfl, rfl, rfl, rfl, rfl,
    rfl, rfl, rfl, rfl, rfl, rfl, rfl, rfl, rfl, rfl, rfl, rfl, rfl⟩

@[simp] theorem State.endChain_unchanged (s : State) :
    s.endChain.par = s.par ∧ s.endChain.env = s.env ∧ s.endChain.phase = s.phase ∧ s.endChain.cmdl = s.cmdl ∧
    s.endChain.drainl = s.drainl ∧ s.endChain.started = s.started ∧ s.endChain.drainLeft = s.drainLeft ∧
    s.endChain.status = s.status ∧ s.endChain.doneIe = s.doneIe ∧ s.endChain.canvasSize = s.canvasSize ∧
    s.endChain.bgcolor = s.bgcolor ∧ s.endChain.gctPresent = s.gctPresent ∧ s.endChain.framePos = s.framePos ∧
    s.endChain.frameSize = s.frameSize ∧ s.endChain.frameCtrl = s.frameCtrl ∧ s.endChain.lastPos = s.lastPos ∧
    s.endChain.lastSize = s.lastSize ∧ s.endChain.lastDispose = s.lastDispose ∧
    s.endChain.lastValid = s.lastValid ∧ s.endChain.pixCount = s.pixCount ∧ s.endChain.bytesIn = s.bytesIn ∧
    s.endChain.frameCount = s.frameCount ∧ s.endChain.activeSize = s.activeSize ∧ s.endChain.cbufSel = s.cbufSel ∧
    s.endChain.cbufIdx = s.cbufIdx ∧ s.endChain.ibufIdx = s.ibufIdx ∧ s.endChain.prefixMem = s.prefixMem ∧
    s.endChain.suffixMem = s.suffixMem ∧ s.endChain.stack = s.stack ∧ s.endChain.ibuf = s.ibuf ∧
    s.endChain.gct = s.gct ∧ s.endChain.lct = s.lct ∧ s.endChain.cur = s.cur ∧ s.endChain.prev = s.prev ∧
    s.endChain.scr = s.scr :=
  ⟨rfl, rfl, rfl, rfl, rfl, rfl, rfl, rfl, rfl, rfl, rfl, rfl, rfl, rfl, rfl, rfl, rfl, rfl, rfl, rfl, rfl,
    rfl, rfl, rfl, rfl, rfl, rfl, rfl, rfl, rfl, rfl, rfl, rfl, rfl, rfl⟩

@[simp] theorem State.markTruncated_unchanged (s : State) :
    s.markTruncated.par = s.par ∧ s.markTruncated.env = s.env ∧ s.markTruncated.phase = s.phase ∧
    s.markTruncated.cmdl = s.cmdl ∧ s.markTruncated.drainl = s.drainl ∧ s.markTruncated.started = s.started ∧
    s.markTruncated.drainLeft = s.drainLeft ∧ s.markTruncated.doneIe = s.doneIe ∧
    s.markTruncated.canvasSize = s.canvasSize ∧ s.markTruncated.bgcolor = s.bgcolor ∧
    s.markTruncated.gctPresent = s.gctPresent ∧ s.markTruncated.framePos = s.framePos ∧
    s.markTruncated.frameSize = s.frameSize ∧ s.markTruncated.frameCtrl = s.frameCtrl ∧
    s.markTruncated.lastPos = s.lastPos ∧ s.markTruncated.lastSize = s.lastSize ∧
    s.markTruncated.lastDispose = s.lastDispose ∧ s.markTruncated.lastValid = s.lastValid ∧
    s.markTruncated.pixCount = s.pixCount ∧ s.markTruncated.bytesIn = s.bytesIn ∧
    s.markTruncated.frameCount = s.frameCount ∧ s.markTruncated.activeSize = s.activeSize ∧
    s.markTruncated.cbufSel = s.cbufSel ∧ s.markTruncated.cbufIdx = s.cbufIdx ∧
    s.markTruncated.ibufIdx = s.ibufIdx ∧ s.markTruncated.dec = s.dec ∧ s.markTruncated.prefixMem = s.prefixMem ∧
    s.markTruncated.suffixMem = s.suffixMem ∧ s.markTruncated.stack = s.stack ∧ s.markTruncated.ibuf = s.ibuf ∧
    s.markTruncated.gct = s.gct ∧ s.markTruncated.lct = s.lct ∧ s.markTruncated.cur = s.cur ∧
    s.markTruncated.prev = s.prev ∧ s.markTruncated.scr = s.scr :=
  ⟨rfl, rfl, rfl, rfl, rfl, rfl, rfl, rfl, rfl, rfl, rfl, rfl, rfl, rfl, rfl, rfl, rfl, rfl, rfl, rfl, rfl,
    rfl, rfl, rfl, rfl, rfl, rfl, rfl, rfl, rfl, rfl, rfl, rfl, rfl, rfl⟩

@[simp] theorem State.takeRest_unchanged (s : State) :
    s.takeRest.par = s.par ∧ s.takeRest.env = s.env ∧ s.takeRest.phase = s.phase ∧ s.takeRest.cmdl = s.cmdl ∧
    s.takeRest.drainl = s.drainl ∧ s.takeRest.started = s.started ∧ s.takeRest.drainLeft = s.drainLeft ∧
    s.takeRest.status = s.status ∧ s.takeRest.doneIe = s.doneIe ∧ s.takeRest.canvasSize = s.canvasSize ∧
    s.takeRest.bgcolor = s.bgcolor ∧ s.takeRest.gctPresent = s.gctPresent ∧ s.takeRest.framePos = s.framePos ∧
    s.takeRest.frameSize = s.frameSize ∧ s.takeRest.frameCtrl = s.frameCtrl ∧ s.takeRest.lastPos = s.lastPos ∧
    s.takeRest.lastSize = s.lastSize ∧ s.takeRest.lastDispose = s.lastDispose ∧
    s.takeRest.lastValid = s.lastValid ∧ s.takeRest.pixCount = s.pixCount ∧ s.takeRest.bytesIn = s.bytesIn ∧
    s.takeRest.frameCount = s.frameCount ∧ s.takeRest.activeSize = s.activeSize ∧ s.takeRest.cbufSel = s.cbufSel ∧
    s.takeRest.cbufIdx = s.cbufIdx ∧ s.takeRest.ibufIdx = s.ibufIdx ∧ s.takeRest.prefixMem = s.prefixMem ∧
    s.takeRest.suffixMem = s.suffixMem ∧ s.takeRest.stack = s.stack ∧ s.takeRest.ibuf = s.ibuf ∧
    s.takeRest.gct = s.gct ∧ s.takeRest.lct = s.lct ∧ s.takeRest.cur = s.cur ∧ s.takeRest.prev = s.prev ∧
    s.takeRest.scr = s.scr :=
  ⟨rfl, rfl, rfl, rfl, rfl, rfl, rfl, rfl, rfl, rfl, rfl, rfl, rfl, rfl, rfl, rfl, rfl, rfl, rfl, rfl, rfl,
    rfl, rfl, rfl, rfl, rfl, rfl, rfl, rfl, rfl, rfl, rfl, rfl, rfl, rfl⟩

@[simp] theorem State.setDrainLeft_unchanged (n : Byte) (s : State) :
    (s.setDrainLeft n).par = s.par ∧ (s.setDrainLeft n).env = s.env ∧ (s.setDrainLeft n).phase = s.phase ∧
    (s.setDrainLeft n).cmdl = s.cmdl ∧ (s.setDrainLeft n).drainl = s.drainl ∧
    (s.setDrainLeft n).started = s.started ∧ (s.setDrainLeft n).status = s.status ∧
    (s.setDrainLeft n).doneIe = s.doneIe ∧ (s.setDrainLeft n).canvasSize = s.canvasSize ∧
    (s.setDrainLeft n).bgcolor = s.bgcolor ∧ (s.setDrainLeft n).gctPresent = s.gctPresent ∧
    (s.setDrainLeft n).framePos = s.framePos ∧ (s.setDrainLeft n).frameSize = s.frameSize ∧
    (s.setDrainLeft n).frameCtrl = s.frameCtrl ∧ (s.setDrainLeft n).lastPos = s.lastPos ∧
    (s.setDrainLeft n).lastSize = s.lastSize ∧ (s.setDrainLeft n).lastDispose = s.lastDispose ∧
    (s.setDrainLeft n).lastValid = s.lastValid ∧ (s.setDrainLeft n).pixCount = s.pixCount ∧
    (s.setDrainLeft n).bytesIn = s.bytesIn ∧ (s.setDrainLeft n).frameCount = s.frameCount ∧
    (s.setDrainLeft n).activeSize = s.activeSize ∧ (s.setDrainLeft n).cbufSel = s.cbufSel ∧
    (s.setDrainLeft n).cbufIdx = s.cbufIdx ∧ (s.setDrainLeft n).ibufIdx = s.ibufIdx ∧
    (s.setDrainLeft n).dec = s.dec ∧ (s.setDrainLeft n).prefixMem = s.prefixMem ∧
    (s.setDrainLeft n).suffixMem = s.suffixMem ∧ (s.setDrainLeft n).stack = s.stack ∧
    (s.setDrainLeft n).ibuf = s.ibuf ∧ (s.setDrainLeft n).gct = s.gct ∧ (s.setDrainLeft n).lct = s.lct ∧
    (s.setDrainLeft n).cur = s.cur ∧ (s.setDrainLeft n).prev = s.prev ∧ (s.setDrainLeft n).scr = s.scr :=
  ⟨rfl, rfl, rfl, rfl, rfl, rfl, rfl, rfl, rfl, rfl, rfl, rfl, rfl, rfl, rfl, rfl, rfl, rfl, rfl, rfl, rfl,
    rfl, rfl, rfl, rfl, rfl, rfl, rfl, rfl, rfl, rfl, rfl, rfl, rfl, rfl⟩

@[simp] theorem State.copyPrevToScr_unchanged (s : State) :
    s.copyPrevToScr.par = s.par ∧ s.copyPrevToScr.env = s.env ∧ s.copyPrevToScr.phase = s.phase ∧
    s.copyPrevToScr.cmdl = s.cmdl ∧ s.copyPrevToScr.drainl = s.drainl ∧ s.copyPrevToScr.started = s.started ∧
    s.copyPrevToScr.drainLeft = s.drainLeft ∧ s.copyPrevToScr.status = s.status ∧
    s.copyPrevToScr.doneIe = s.doneIe ∧ s.copyPrevToScr.canvasSize = s.canvasSize ∧
    s.copyPrevToScr.bgcolor = s.bgcolor ∧ s.copyPrevToScr.gctPresent = s.gctPresent ∧
    s.copyPrevToScr.framePos = s.framePos ∧ s.copyPrevToScr.frameSize = s.frameSize ∧
    s.copyPrevToScr.frameCtrl = s.frameCtrl ∧ s.copyPrevToScr.lastPos = s.lastPos ∧
    s.copyPrevToScr.lastSize = s.lastSize ∧ s.copyPrevToScr.lastDispose = s.lastDispose ∧
    s.copyPrevToScr.lastValid = s.lastValid ∧ s.copyPrevToScr.pixCount = s.pixCount ∧
    s.copyPrevToScr.bytesIn = s.bytesIn ∧ s.copyPrevToScr.frameCount = s.frameCount ∧
    s.copyPrevToScr.activeSize = s.activeSize ∧ s.copyPrevToScr.cbufSel = s.cbufSel ∧
    s.copyPrevToScr.cbufIdx = s.cbufIdx ∧ s.copyPrevToScr.ibufIdx = s.ibufIdx ∧ s.copyPrevToScr.dec = s.dec ∧
    s.copyPrevToScr.prefixMem = s.prefixMem ∧ s.copyPrevToScr.suffixMem = s.suffixMem ∧
    s.copyPrevToScr.stack = s.stack ∧ s.copyPrevToScr.ibuf = s.ibuf ∧ s.copyPrevToScr.gct = s.gct ∧
    s.copyPrevToScr.lct = s.lct ∧ s.copyPrevToScr.cur = s.cur ∧ s.copyPrevToScr.prev = s.prev :=
  ⟨rfl, rfl, rfl, rfl, rfl, rfl, rfl, rfl, rfl, rfl, rfl, rfl, rfl, rfl, rfl, rfl, rfl, rfl, rfl, rfl, rfl,
    rfl, rfl, rfl, rfl, rfl, rfl, rfl, rfl, rfl, rfl, rfl, rfl, rfl, rfl⟩

@[simp] theorem State.setNpix_unchanged (s : State) :
    s.setNpix.par = s.par ∧ s.setNpix.env = s.env ∧ s.setNpix.phase = s.phase ∧ s.setNpix.cmdl = s.cmdl ∧
    s.setNpix.drainl = s.drainl ∧ s.setNpix.started = s.started ∧ s.setNpix.drainLeft = s.drainLeft ∧
    s.setNpix.status = s.status ∧ s.setNpix.doneIe = s.doneIe ∧ s.setNpix.canvasSize = s.canvasSize ∧
    s.setNpix.bgcolor = s.bgcolor ∧ s.setNpix.gctPresent = s.gctPresent ∧ s.setNpix.framePos = s.framePos ∧
    s.setNpix.frameSize = s.frameSize ∧ s.setNpix.frameCtrl = s.frameCtrl ∧ s.setNpix.lastPos = s.lastPos ∧
    s.setNpix.lastSize = s.lastSize ∧ s.setNpix.lastDispose = s.lastDispose ∧ s.setNpix.lastValid = s.lastValid ∧
    s.setNpix.pixCount = s.pixCount ∧ s.setNpix.bytesIn = s.bytesIn ∧ s.setNpix.frameCount = s.frameCount ∧
    s.setNpix.activeSize = s.activeSize ∧ s.setNpix.cbufSel = s.cbufSel ∧ s.setNpix.cbufIdx = s.cbufIdx ∧
    s.setNpix.ibufIdx = s.ibufIdx ∧ s.setNpix.prefixMem = s.prefixMem ∧ s.setNpix.suffixMem = s.suffixMem ∧
    s.setNpix.stack = s.stack ∧ s.setNpix.ibuf = s.ibuf ∧ s.setNpix.gct = s.gct ∧ s.setNpix.lct = s.lct ∧
    s.setNpix.cur = s.cur ∧ s.setNpix.prev = s.prev ∧ s.setNpix.scr = s.scr :=
  ⟨rfl, rfl, rfl, rfl, rfl, rfl, rfl, rfl, rfl, rfl, rfl, rfl, rfl, rfl, rfl, rfl, rfl, rfl, rfl, rfl, rfl,
    rfl, rfl, rfl, rfl, rfl, rfl, rfl, rfl, rfl, rfl, rfl, rfl, rfl, rfl⟩

@[simp] theorem State.clearDecoder_unchanged (s : State) :
    s.clearDecoder.par = s.par ∧ s.clearDecoder.env = s.env ∧ s.clearDecoder.phase = s.phase ∧
    s.clearDecoder.cmdl = s.cmdl ∧ s.clearDecoder.drainl = s.drainl ∧ s.clearDecoder.started = s.started ∧
    s.clearDecoder.drainLeft = s.drainLeft ∧ s.clearDecoder.status = s.status ∧ s.clearDecoder.doneIe = s.doneIe ∧
    s.clearDecoder.canvasSize = s.canvasSize ∧ s.clearDecoder.bgcolor = s.bgcolor ∧
    s.clearDecoder.gctPresent = s.gctPresent ∧ s.clearDecoder.framePos = s.framePos ∧
    s.clearDecoder.frameSize = s.frameSize ∧ s.clearDecoder.frameCtrl = s.frameCtrl ∧
    s.clearDecoder.lastPos = s.lastPos ∧ s.clearDecoder.lastSize = s.lastSize ∧
    s.clearDecoder.lastDispose = s.lastDispose ∧ s.clearDecoder.lastValid = s.lastValid ∧
    s.clearDecoder.pixCount = s.pixCount ∧ s.clearDecoder.bytesIn = s.bytesIn ∧
    s.clearDecoder.frameCount = s.frameCount ∧ s.clearDecoder.activeSize = s.activeSize ∧
    s.clearDecoder.cbufSel = s.cbufSel ∧ s.clearDecoder.cbufIdx = s.cbufIdx ∧ s.clearDecoder.ibufIdx = s.ibufIdx ∧
    s.clearDecoder.prefixMem = s.prefixMem ∧ s.clearDecoder.suffixMem = s.suffixMem ∧
    s.clearDecoder.stack = s.stack ∧ s.clearDecoder.ibuf = s.ibuf ∧ s.clearDecoder.gct = s.gct ∧
    s.clearDecoder.lct = s.lct ∧ s.clearDecoder.cur = s.cur ∧ s.clearDecoder.prev = s.prev ∧
    s.clearDecoder.scr = s.scr :=
  ⟨rfl, rfl, rfl, rfl, rfl, rfl, rfl, rfl, rfl, rfl, rfl, rfl, rfl, rfl, rfl, rfl, rfl, rfl, rfl, rfl, rfl,
    rfl, rfl, rfl, rfl, rfl, rfl, rfl, rfl, rfl, rfl, rfl, rfl, rfl, rfl⟩

@[simp] theorem State.setCodeSize_unchanged (b : Byte) (s : State) :
    (s.setCodeSize b).par = s.par ∧ (s.setCodeSize b).env = s.env ∧ (s.setCodeSize b).phase = s.phase ∧
    (s.setCodeSize b).cmdl = s.cmdl ∧ (s.setCodeSize b).drainl = s.drainl ∧
    (s.setCodeSize b).drainLeft = s.drainLeft ∧ (s.setCodeSize b).status = s.status ∧
    (s.setCodeSize b).doneIe = s.doneIe ∧ (s.setCodeSize b).canvasSize = s.canvasSize ∧
    (s.setCodeSize b).bgcolor = s.bgcolor ∧ (s.setCodeSize b).gctPresent = s.gctPresent ∧
    (s.setCodeSize b).framePos = s.framePos ∧ (s.setCodeSize b).frameSize = s.frameSize ∧
    (s.setCodeSize b).frameCtrl = s.frameCtrl ∧ (s.setCodeSize b).lastPos = s.lastPos ∧
    (s.setCodeSize b).lastSize = s.lastSize ∧ (s.setCodeSize b).lastDispose = s.lastDispose ∧
    (s.setCodeSize b).lastValid = s.lastValid ∧ (s.setCodeSize b).pixCount = s.pixCount ∧
    (s.setCodeSize b).bytesIn = s.bytesIn ∧ (s.setCodeSize b).frameCount = s.frameCount ∧
    (s.setCodeSize b).activeSize = s.activeSize ∧ (s.setCodeSize b).cbufSel = s.cbufSel ∧
    (s.setCodeSize b).cbufIdx = s.cbufIdx ∧ (s.setCodeSize b).ibufIdx = s.ibufIdx ∧
    (s.setCodeSize b).stack = s.stack ∧ (s.setCodeSize b).ibuf = s.ibuf ∧ (s.setCodeSize b).gct = s.gct ∧
    (s.setCodeSize b).lct = s.lct ∧ (s.setCodeSize b).cur = s.cur ∧ (s.setCodeSize b).prev = s.prev ∧
    (s.setCodeSize b).scr = s.scr :=
  ⟨rfl, rfl, rfl, rfl, rfl, rfl, rfl, rfl, rfl, rfl, rfl, rfl, rfl, rfl, rfl, rfl, rfl, rfl, rfl, rfl, rfl,
    rfl, rfl, rfl, rfl, rfl, rfl, rfl, rfl, rfl, rfl, rfl⟩

@[simp] theorem State.loadData_unchanged (b : Byte) (s : State) :
    (s.loadData b).par = s.par ∧ (s.loadData b).env = s.env ∧ (s.loadData b).phase = s.phase ∧
    (s.loadData b).cmdl = s.cmdl ∧ (s.loadData b).drainl = s.drainl ∧ (s.loadData b).started = s.started ∧
    (s.loadData b).drainLeft = s.drainLeft ∧ (s.loadData b).status = s.status ∧ (s.loadData b).doneIe = s.doneIe ∧
    (s.loadData b).canvasSize = s.canvasSize ∧ (s.loadData b).bgcolor = s.bgcolor ∧
    (s.loadData b).gctPresent = s.gctPresent ∧ (s.loadData b).framePos = s.framePos ∧
    (s.loadData b).frameSize = s.frameSize ∧ (s.loadData b).frameCtrl = s.frameCtrl ∧
    (s.loadData b).lastPos = s.lastPos ∧ (s.loadData b).lastSize = s.lastSize ∧
    (s.loadData b).lastDispose = s.lastDispose ∧ (s.loadData b).lastValid = s.lastValid ∧
    (s.loadData b).pixCount = s.pixCount ∧ (s.loadData b).bytesIn = s.bytesIn ∧
    (s.loadData b).frameCount = s.frameCount ∧ (s.loadData b).activeSize = s.activeSize ∧
    (s.loadData b).cbufSel = s.cbufSel ∧ (s.loadData b).cbufIdx = s.cbufIdx ∧ (s.loadData b).ibufIdx = s.ibufIdx ∧
    (s.loadData b).prefixMem = s.prefixMem ∧ (s.loadData b).suffixMem = s.suffixMem ∧
    (s.loadData b).stack = s.stack ∧ (s.loadData b).ibuf = s.ibuf ∧ (s.loadData b).gct = s.gct ∧
    (s.loadData b).lct = s.lct ∧ (s.loadData b).cur = s.cur ∧ (s.loadData b).prev = s.prev ∧
    (s.loadData b).scr = s.scr :=
  ⟨rfl, rfl, rfl, rfl, rfl, rfl, rfl, rfl, rfl, rfl, rfl, rfl, rfl, rfl, rfl, rfl, rfl, rfl, rfl, rfl, rfl,
    rfl, rfl, rfl, rfl, rfl, rfl, rfl, rfl, rfl, rfl, rfl, rfl, rfl, rfl⟩

@[simp] theorem State.copyCurToScr_unchanged (s : State) :
    s.copyCurToScr.par = s.par ∧ s.copyCurToScr.env = s.env ∧ s.copyCurToScr.phase = s.phase ∧
    s.copyCurToScr.cmdl = s.cmdl ∧ s.copyCurToScr.drainl = s.drainl ∧ s.copyCurToScr.started = s.started ∧
    s.copyCurToScr.drainLeft = s.drainLeft ∧ s.copyCurToScr.status = s.status ∧ s.copyCurToScr.doneIe = s.doneIe ∧
    s.copyCurToScr.canvasSize = s.canvasSize ∧ s.copyCurToScr.bgcolor = s.bgcolor ∧
    s.copyCurToScr.gctPresent = s.gctPresent ∧ s.copyCurToScr.framePos = s.framePos ∧
    s.copyCurToScr.frameSize = s.frameSize ∧ s.copyCurToScr.frameCtrl = s.frameCtrl ∧
    s.copyCurToScr.lastPos = s.lastPos ∧ s.copyCurToScr.lastSize = s.lastSize ∧
    s.copyCurToScr.lastDispose = s.lastDispose ∧ s.copyCurToScr.lastValid = s.lastValid ∧
    s.copyCurToScr.pixCount = s.pixCount ∧ s.copyCurToScr.bytesIn = s.bytesIn ∧
    s.copyCurToScr.frameCount = s.frameCount ∧ s.copyCurToScr.activeSize = s.activeSize ∧
    s.copyCurToScr.cbufSel = s.cbufSel ∧ s.copyCurToScr.cbufIdx = s.cbufIdx ∧ s.copyCurToScr.ibufIdx = s.ibufIdx ∧
    s.copyCurToScr.dec = s.dec ∧ s.copyCurToScr.prefixMem = s.prefixMem ∧ s.copyCurToScr.suffixMem = s.suffixMem ∧
    s.copyCurToScr.stack = s.stack ∧ s.copyCurToScr.ibuf = s.ibuf ∧ s.copyCurToScr.gct = s.gct ∧
    s.copyCurToScr.lct = s.lct ∧ s.copyCurToScr.cur = s.cur ∧ s.copyCurToScr.prev = s.prev :=
  ⟨rfl, rfl, rfl, rfl, rfl, rfl, rfl, rfl, rfl, rfl, rfl, rfl, rfl, rfl, rfl, rfl, rfl, rfl, rfl, rfl, rfl,
    rfl, rfl, rfl, rfl, rfl, rfl, rfl, rfl, rfl, rfl, rfl, rfl, rfl, rfl⟩

@[simp] theorem State.fillLast_unchanged (v : Word) (s : State) :
    (s.fillLast v).par = s.par ∧ (s.fillLast v).env = s.env ∧ (s.fillLast v).phase = s.phase ∧
    (s.fillLast v).cmdl = s.cmdl ∧ (s.fillLast v).drainl = s.drainl ∧ (s.fillLast v).started = s.started ∧
    (s.fillLast v).drainLeft = s.drainLeft ∧ (s.fillLast v).status = s.status ∧ (s.fillLast v).doneIe = s.doneIe ∧
    (s.fillLast v).canvasSize = s.canvasSize ∧ (s.fillLast v).bgcolor = s.bgcolor ∧
    (s.fillLast v).gctPresent = s.gctPresent ∧ (s.fillLast v).framePos = s.framePos ∧
    (s.fillLast v).frameSize = s.frameSize ∧ (s.fillLast v).frameCtrl = s.frameCtrl ∧
    (s.fillLast v).lastPos = s.lastPos ∧ (s.fillLast v).lastSize = s.lastSize ∧
    (s.fillLast v).lastDispose = s.lastDispose ∧ (s.fillLast v).lastValid = s.lastValid ∧
    (s.fillLast v).pixCount = s.pixCount ∧ (s.fillLast v).bytesIn = s.bytesIn ∧
    (s.fillLast v).frameCount = s.frameCount ∧ (s.fillLast v).activeSize = s.activeSize ∧
    (s.fillLast v).cbufSel = s.cbufSel ∧ (s.fillLast v).cbufIdx = s.cbufIdx ∧ (s.fillLast v).ibufIdx = s.ibufIdx ∧
    (s.fillLast v).dec = s.dec ∧ (s.fillLast v).prefixMem = s.prefixMem ∧ (s.fillLast v).suffixMem = s.suffixMem ∧
    (s.fillLast v).stack = s.stack ∧ (s.fillLast v).ibuf = s.ibuf ∧ (s.fillLast v).gct = s.gct ∧
    (s.fillLast v).lct = s.lct ∧ (s.fillLast v).cur = s.cur ∧ (s.fillLast v).prev = s.prev :=
  ⟨rfl, rfl, rfl, rfl, rfl, rfl, rfl, rfl, rfl, rfl, rfl, rfl, rfl, rfl, rfl, rfl, rfl, rfl, rfl, rfl, rfl,
    rfl, rfl, rfl, rfl, rfl, rfl, rfl, rfl, rfl, rfl, rfl, rfl, rfl, rfl⟩

@[simp] theorem State.placeStep_unchanged (s : State) :
    s.placeStep.par = s.par ∧ s.placeStep.env = s.env ∧ s.placeStep.cmdl = s.cmdl ∧
    s.placeStep.drainl = s.drainl ∧ s.placeStep.started = s.started ∧ s.placeStep.drainLeft = s.drainLeft ∧
    s.placeStep.status = s.status ∧ s.placeStep.doneIe = s.doneIe ∧ s.placeStep.canvasSize = s.canvasSize ∧
    s.placeStep.bgcolor = s.bgcolor ∧ s.placeStep.gctPresent = s.gctPresent ∧ s.placeStep.framePos = s.framePos ∧
    s.placeStep.frameSize = s.frameSize ∧ s.placeStep.frameCtrl = s.frameCtrl ∧ s.placeStep.lastPos = s.lastPos ∧
    s.placeStep.lastSize = s.lastSize ∧ s.placeStep.lastDispose = s.lastDispose ∧
    s.placeStep.lastValid = s.lastValid ∧ s.placeStep.pixCount = s.pixCount ∧ s.placeStep.bytesIn = s.bytesIn ∧
    s.placeStep.frameCount = s.frameCount ∧ s.placeStep.activeSize = s.activeSize ∧
    s.placeStep.cbufSel = s.cbufSel ∧ s.placeStep.cbufIdx = s.cbufIdx ∧ s.placeStep.ibufIdx = s.ibufIdx ∧
    s.placeStep.dec = s.dec ∧ s.placeStep.prefixMem = s.prefixMem ∧ s.placeStep.suffixMem = s.suffixMem ∧
    s.placeStep.stack = s.stack ∧ s.placeStep.ibuf = s.ibuf ∧ s.placeStep.gct = s.gct ∧ s.placeStep.lct = s.lct ∧
    s.placeStep.cur = s.cur ∧ s.placeStep.prev = s.prev :=
  ⟨rfl, rfl, rfl, rfl, rfl, rfl, rfl, rfl, rfl, rfl, rfl, rfl, rfl, rfl, rfl, rfl, rfl, rfl, rfl, rfl, rfl,
    rfl, rfl, rfl, rfl, rfl, rfl, rfl, rfl, rfl, rfl, rfl, rfl, rfl⟩

@[simp] theorem State.commitStep_unchanged (s : State) :
    s.commitStep.par = s.par ∧ s.commitStep.env = s.env ∧ s.commitStep.cmdl = s.cmdl ∧
    s.commitStep.drainl = s.drainl ∧ s.commitStep.started = s.started ∧ s.commitStep.drainLeft = s.drainLeft ∧
    s.commitStep.doneIe = s.doneIe ∧ s.commitStep.canvasSize = s.canvasSize ∧ s.commitStep.bgcolor = s.bgcolor ∧
    s.commitStep.gctPresent = s.gctPresent ∧ s.commitStep.framePos = s.framePos ∧
    s.commitStep.frameSize = s.frameSize ∧ s.commitStep.frameCtrl = s.frameCtrl ∧
    s.commitStep.pixCount = s.pixCount ∧ s.commitStep.bytesIn = s.bytesIn ∧
    s.commitStep.activeSize = s.activeSize ∧ s.commitStep.cbufSel = s.cbufSel ∧ s.commitStep.cbufIdx = s.cbufIdx ∧
    s.commitStep.ibufIdx = s.ibufIdx ∧ s.commitStep.dec = s.dec ∧ s.commitStep.prefixMem = s.prefixMem ∧
    s.commitStep.suffixMem = s.suffixMem ∧ s.commitStep.stack = s.stack ∧ s.commitStep.ibuf = s.ibuf ∧
    s.commitStep.gct = s.gct ∧ s.commitStep.lct = s.lct ∧ s.commitStep.scr = s.scr :=
  ⟨rfl, rfl, rfl, rfl, rfl, rfl, rfl, rfl, rfl, rfl, rfl, rfl, rfl, rfl, rfl, rfl, rfl, rfl, rfl, rfl, rfl,
    rfl, rfl, rfl, rfl, rfl, rfl⟩

@[simp] theorem State.initStep_unchanged (s : State) :
    s.initStep.par = s.par ∧ s.initStep.env = s.env ∧ s.initStep.cmdl = s.cmdl ∧ s.initStep.drainl = s.drainl ∧
    s.initStep.started = s.started ∧ s.initStep.drainLeft = s.drainLeft ∧ s.initStep.doneIe = s.doneIe ∧
    s.initStep.canvasSize = s.canvasSize ∧ s.initStep.bgcolor = s.bgcolor ∧ s.initStep.gctPresent = s.gctPresent ∧
    s.initStep.framePos = s.framePos ∧ s.initStep.frameSize = s.frameSize ∧ s.initStep.frameCtrl = s.frameCtrl ∧
    s.initStep.pixCount = s.pixCount ∧ s.initStep.bytesIn = s.bytesIn ∧ s.initStep.cbufSel = s.cbufSel ∧
    s.initStep.cbufIdx = s.cbufIdx ∧ s.initStep.ibufIdx = s.ibufIdx ∧ s.initStep.dec = s.dec ∧
    s.initStep.prefixMem = s.prefixMem ∧ s.initStep.suffixMem = s.suffixMem ∧ s.initStep.stack = s.stack ∧
    s.initStep.ibuf = s.ibuf ∧ s.initStep.gct = s.gct ∧ s.initStep.lct = s.lct :=
  ⟨rfl, rfl, rfl, rfl, rfl, rfl, rfl, rfl, rfl, rfl, rfl, rfl, rfl, rfl, rfl, rfl, rfl, rfl, rfl, rfl, rfl,
    rfl, rfl, rfl, rfl⟩

@[simp] theorem State.takeTurn_unchanged (s : State) :
    s.takeTurn.par = s.par ∧ s.takeTurn.phase = s.phase ∧ s.takeTurn.cmdl = s.cmdl ∧
    s.takeTurn.drainl = s.drainl ∧ s.takeTurn.started = s.started ∧ s.takeTurn.drainLeft = s.drainLeft ∧
    s.takeTurn.status = s.status ∧ s.takeTurn.doneIe = s.doneIe ∧ s.takeTurn.canvasSize = s.canvasSize ∧
    s.takeTurn.bgcolor = s.bgcolor ∧ s.takeTurn.gctPresent = s.gctPresent ∧ s.takeTurn.framePos = s.framePos ∧
    s.takeTurn.frameSize = s.frameSize ∧ s.takeTurn.frameCtrl = s.frameCtrl ∧ s.takeTurn.lastPos = s.lastPos ∧
    s.takeTurn.lastSize = s.lastSize ∧ s.takeTurn.lastDispose = s.lastDispose ∧
    s.takeTurn.lastValid = s.lastValid ∧ s.takeTurn.pixCount = s.pixCount ∧ s.takeTurn.bytesIn = s.bytesIn ∧
    s.takeTurn.frameCount = s.frameCount ∧ s.takeTurn.activeSize = s.activeSize ∧ s.takeTurn.cbufSel = s.cbufSel ∧
    s.takeTurn.cbufIdx = s.cbufIdx ∧ s.takeTurn.ibufIdx = s.ibufIdx ∧ s.takeTurn.dec = s.dec ∧
    s.takeTurn.prefixMem = s.prefixMem ∧ s.takeTurn.suffixMem = s.suffixMem ∧ s.takeTurn.stack = s.stack ∧
    s.takeTurn.ibuf = s.ibuf ∧ s.takeTurn.gct = s.gct ∧ s.takeTurn.lct = s.lct ∧ s.takeTurn.cur = s.cur ∧
    s.takeTurn.prev = s.prev ∧ s.takeTurn.scr = s.scr :=
  ⟨rfl, rfl, rfl, rfl, rfl, rfl, rfl, rfl, rfl, rfl, rfl, rfl, rfl, rfl, rfl, rfl, rfl, rfl, rfl, rfl, rfl,
    rfl, rfl, rfl, rfl, rfl, rfl, rfl, rfl, rfl, rfl, rfl, rfl, rfl, rfl⟩

@[simp] theorem State.setQueue_unchanged (ops : List HostOp) (s : State) :
    (s.setQueue ops).par = s.par ∧ (s.setQueue ops).phase = s.phase ∧ (s.setQueue ops).cmdl = s.cmdl ∧
    (s.setQueue ops).drainl = s.drainl ∧ (s.setQueue ops).started = s.started ∧
    (s.setQueue ops).drainLeft = s.drainLeft ∧ (s.setQueue ops).status = s.status ∧
    (s.setQueue ops).doneIe = s.doneIe ∧ (s.setQueue ops).canvasSize = s.canvasSize ∧
    (s.setQueue ops).bgcolor = s.bgcolor ∧ (s.setQueue ops).gctPresent = s.gctPresent ∧
    (s.setQueue ops).framePos = s.framePos ∧ (s.setQueue ops).frameSize = s.frameSize ∧
    (s.setQueue ops).frameCtrl = s.frameCtrl ∧ (s.setQueue ops).lastPos = s.lastPos ∧
    (s.setQueue ops).lastSize = s.lastSize ∧ (s.setQueue ops).lastDispose = s.lastDispose ∧
    (s.setQueue ops).lastValid = s.lastValid ∧ (s.setQueue ops).pixCount = s.pixCount ∧
    (s.setQueue ops).bytesIn = s.bytesIn ∧ (s.setQueue ops).frameCount = s.frameCount ∧
    (s.setQueue ops).activeSize = s.activeSize ∧ (s.setQueue ops).cbufSel = s.cbufSel ∧
    (s.setQueue ops).cbufIdx = s.cbufIdx ∧ (s.setQueue ops).ibufIdx = s.ibufIdx ∧ (s.setQueue ops).dec = s.dec ∧
    (s.setQueue ops).prefixMem = s.prefixMem ∧ (s.setQueue ops).suffixMem = s.suffixMem ∧
    (s.setQueue ops).stack = s.stack ∧ (s.setQueue ops).ibuf = s.ibuf ∧ (s.setQueue ops).gct = s.gct ∧
    (s.setQueue ops).lct = s.lct ∧ (s.setQueue ops).cur = s.cur ∧ (s.setQueue ops).prev = s.prev ∧
    (s.setQueue ops).scr = s.scr :=
  ⟨rfl, rfl, rfl, rfl, rfl, rfl, rfl, rfl, rfl, rfl, rfl, rfl, rfl, rfl, rfl, rfl, rfl, rfl, rfl, rfl, rfl,
    rfl, rfl, rfl, rfl, rfl, rfl, rfl, rfl, rfl, rfl, rfl, rfl, rfl, rfl⟩

@[simp] theorem State.setStream_unchanged (bytes : List Byte) (atEnd : PortEnd) (s : State) :
    (s.setStream bytes atEnd).par = s.par ∧ (s.setStream bytes atEnd).phase = s.phase ∧
    (s.setStream bytes atEnd).cmdl = s.cmdl ∧ (s.setStream bytes atEnd).drainl = s.drainl ∧
    (s.setStream bytes atEnd).started = s.started ∧ (s.setStream bytes atEnd).drainLeft = s.drainLeft ∧
    (s.setStream bytes atEnd).status = s.status ∧ (s.setStream bytes atEnd).doneIe = s.doneIe ∧
    (s.setStream bytes atEnd).canvasSize = s.canvasSize ∧ (s.setStream bytes atEnd).bgcolor = s.bgcolor ∧
    (s.setStream bytes atEnd).gctPresent = s.gctPresent ∧ (s.setStream bytes atEnd).framePos = s.framePos ∧
    (s.setStream bytes atEnd).frameSize = s.frameSize ∧ (s.setStream bytes atEnd).frameCtrl = s.frameCtrl ∧
    (s.setStream bytes atEnd).lastPos = s.lastPos ∧ (s.setStream bytes atEnd).lastSize = s.lastSize ∧
    (s.setStream bytes atEnd).lastDispose = s.lastDispose ∧ (s.setStream bytes atEnd).lastValid = s.lastValid ∧
    (s.setStream bytes atEnd).pixCount = s.pixCount ∧ (s.setStream bytes atEnd).bytesIn = s.bytesIn ∧
    (s.setStream bytes atEnd).frameCount = s.frameCount ∧ (s.setStream bytes atEnd).activeSize = s.activeSize ∧
    (s.setStream bytes atEnd).cbufSel = s.cbufSel ∧ (s.setStream bytes atEnd).cbufIdx = s.cbufIdx ∧
    (s.setStream bytes atEnd).ibufIdx = s.ibufIdx ∧ (s.setStream bytes atEnd).dec = s.dec ∧
    (s.setStream bytes atEnd).prefixMem = s.prefixMem ∧ (s.setStream bytes atEnd).suffixMem = s.suffixMem ∧
    (s.setStream bytes atEnd).stack = s.stack ∧ (s.setStream bytes atEnd).ibuf = s.ibuf ∧
    (s.setStream bytes atEnd).gct = s.gct ∧ (s.setStream bytes atEnd).lct = s.lct ∧
    (s.setStream bytes atEnd).cur = s.cur ∧ (s.setStream bytes atEnd).prev = s.prev ∧
    (s.setStream bytes atEnd).scr = s.scr :=
  ⟨rfl, rfl, rfl, rfl, rfl, rfl, rfl, rfl, rfl, rfl, rfl, rfl, rfl, rfl, rfl, rfl, rfl, rfl, rfl, rfl, rfl,
    rfl, rfl, rfl, rfl, rfl, rfl, rfl, rfl, rfl, rfl, rfl, rfl, rfl, rfl⟩

@[simp] theorem State.seekPort_unchanged (pos : Nat) (s : State) :
    (s.seekPort pos).par = s.par ∧ (s.seekPort pos).phase = s.phase ∧ (s.seekPort pos).cmdl = s.cmdl ∧
    (s.seekPort pos).drainl = s.drainl ∧ (s.seekPort pos).started = s.started ∧
    (s.seekPort pos).drainLeft = s.drainLeft ∧ (s.seekPort pos).status = s.status ∧
    (s.seekPort pos).doneIe = s.doneIe ∧ (s.seekPort pos).canvasSize = s.canvasSize ∧
    (s.seekPort pos).bgcolor = s.bgcolor ∧ (s.seekPort pos).gctPresent = s.gctPresent ∧
    (s.seekPort pos).framePos = s.framePos ∧ (s.seekPort pos).frameSize = s.frameSize ∧
    (s.seekPort pos).frameCtrl = s.frameCtrl ∧ (s.seekPort pos).lastPos = s.lastPos ∧
    (s.seekPort pos).lastSize = s.lastSize ∧ (s.seekPort pos).lastDispose = s.lastDispose ∧
    (s.seekPort pos).lastValid = s.lastValid ∧ (s.seekPort pos).pixCount = s.pixCount ∧
    (s.seekPort pos).bytesIn = s.bytesIn ∧ (s.seekPort pos).frameCount = s.frameCount ∧
    (s.seekPort pos).activeSize = s.activeSize ∧ (s.seekPort pos).cbufSel = s.cbufSel ∧
    (s.seekPort pos).cbufIdx = s.cbufIdx ∧ (s.seekPort pos).ibufIdx = s.ibufIdx ∧ (s.seekPort pos).dec = s.dec ∧
    (s.seekPort pos).prefixMem = s.prefixMem ∧ (s.seekPort pos).suffixMem = s.suffixMem ∧
    (s.seekPort pos).stack = s.stack ∧ (s.seekPort pos).ibuf = s.ibuf ∧ (s.seekPort pos).gct = s.gct ∧
    (s.seekPort pos).lct = s.lct ∧ (s.seekPort pos).cur = s.cur ∧ (s.seekPort pos).prev = s.prev ∧
    (s.seekPort pos).scr = s.scr :=
  ⟨rfl, rfl, rfl, rfl, rfl, rfl, rfl, rfl, rfl, rfl, rfl, rfl, rfl, rfl, rfl, rfl, rfl, rfl, rfl, rfl, rfl,
    rfl, rfl, rfl, rfl, rfl, rfl, rfl, rfl, rfl, rfl, rfl, rfl, rfl, rfl⟩

@[simp] theorem State.deliver_unchanged (v : Word) (s : State) :
    (s.deliver v).par = s.par ∧ (s.deliver v).phase = s.phase ∧ (s.deliver v).cmdl = s.cmdl ∧
    (s.deliver v).drainl = s.drainl ∧ (s.deliver v).started = s.started ∧ (s.deliver v).drainLeft = s.drainLeft ∧
    (s.deliver v).status = s.status ∧ (s.deliver v).doneIe = s.doneIe ∧ (s.deliver v).canvasSize = s.canvasSize ∧
    (s.deliver v).bgcolor = s.bgcolor ∧ (s.deliver v).gctPresent = s.gctPresent ∧
    (s.deliver v).framePos = s.framePos ∧ (s.deliver v).frameSize = s.frameSize ∧
    (s.deliver v).frameCtrl = s.frameCtrl ∧ (s.deliver v).lastPos = s.lastPos ∧
    (s.deliver v).lastSize = s.lastSize ∧ (s.deliver v).lastDispose = s.lastDispose ∧
    (s.deliver v).lastValid = s.lastValid ∧ (s.deliver v).pixCount = s.pixCount ∧
    (s.deliver v).bytesIn = s.bytesIn ∧ (s.deliver v).frameCount = s.frameCount ∧
    (s.deliver v).activeSize = s.activeSize ∧ (s.deliver v).cbufSel = s.cbufSel ∧
    (s.deliver v).cbufIdx = s.cbufIdx ∧ (s.deliver v).ibufIdx = s.ibufIdx ∧ (s.deliver v).dec = s.dec ∧
    (s.deliver v).prefixMem = s.prefixMem ∧ (s.deliver v).suffixMem = s.suffixMem ∧
    (s.deliver v).stack = s.stack ∧ (s.deliver v).ibuf = s.ibuf ∧ (s.deliver v).gct = s.gct ∧
    (s.deliver v).lct = s.lct ∧ (s.deliver v).cur = s.cur ∧ (s.deliver v).prev = s.prev ∧ (s.deliver v).scr = s.scr :=
  ⟨rfl, rfl, rfl, rfl, rfl, rfl, rfl, rfl, rfl, rfl, rfl, rfl, rfl, rfl, rfl, rfl, rfl, rfl, rfl, rfl, rfl,
    rfl, rfl, rfl, rfl, rfl, rfl, rfl, rfl, rfl, rfl, rfl, rfl, rfl, rfl⟩

@[simp] theorem State.deliverFree_unchanged (free : Nat → Word) (s : State) :
    (s.deliverFree free).par = s.par ∧ (s.deliverFree free).phase = s.phase ∧ (s.deliverFree free).cmdl = s.cmdl ∧
    (s.deliverFree free).drainl = s.drainl ∧ (s.deliverFree free).started = s.started ∧
    (s.deliverFree free).drainLeft = s.drainLeft ∧ (s.deliverFree free).status = s.status ∧
    (s.deliverFree free).doneIe = s.doneIe ∧ (s.deliverFree free).canvasSize = s.canvasSize ∧
    (s.deliverFree free).bgcolor = s.bgcolor ∧ (s.deliverFree free).gctPresent = s.gctPresent ∧
    (s.deliverFree free).framePos = s.framePos ∧ (s.deliverFree free).frameSize = s.frameSize ∧
    (s.deliverFree free).frameCtrl = s.frameCtrl ∧ (s.deliverFree free).lastPos = s.lastPos ∧
    (s.deliverFree free).lastSize = s.lastSize ∧ (s.deliverFree free).lastDispose = s.lastDispose ∧
    (s.deliverFree free).lastValid = s.lastValid ∧ (s.deliverFree free).pixCount = s.pixCount ∧
    (s.deliverFree free).bytesIn = s.bytesIn ∧ (s.deliverFree free).frameCount = s.frameCount ∧
    (s.deliverFree free).activeSize = s.activeSize ∧ (s.deliverFree free).cbufSel = s.cbufSel ∧
    (s.deliverFree free).cbufIdx = s.cbufIdx ∧ (s.deliverFree free).ibufIdx = s.ibufIdx ∧
    (s.deliverFree free).dec = s.dec ∧ (s.deliverFree free).prefixMem = s.prefixMem ∧
    (s.deliverFree free).suffixMem = s.suffixMem ∧ (s.deliverFree free).stack = s.stack ∧
    (s.deliverFree free).ibuf = s.ibuf ∧ (s.deliverFree free).gct = s.gct ∧ (s.deliverFree free).lct = s.lct ∧
    (s.deliverFree free).cur = s.cur ∧ (s.deliverFree free).prev = s.prev ∧ (s.deliverFree free).scr = s.scr :=
  ⟨rfl, rfl, rfl, rfl, rfl, rfl, rfl, rfl, rfl, rfl, rfl, rfl, rfl, rfl, rfl, rfl, rfl, rfl, rfl, rfl, rfl,
    rfl, rfl, rfl, rfl, rfl, rfl, rfl, rfl, rfl, rfl, rfl, rfl, rfl, rfl⟩

/-! ### The fields an update writes -/

@[simp] theorem State.toPhase_phase (p : Phase) (s : State) : (s.toPhase p).phase = p := rfl
@[simp] theorem State.toDecode_phase (s : State) : s.toDecode.phase = .decode := rfl
@[simp] theorem State.toDecode_started (s : State) : s.toDecode.started = false := rfl
@[simp] theorem State.accept_phase (cmd : BitVec 4) (drain : Bool) (s : State) : (s.accept cmd drain).phase = .check := rfl
@[simp] theorem State.accept_cmdl (cmd : BitVec 4) (drain : Bool) (s : State) : (s.accept cmd drain).cmdl = cmd := rfl
@[simp] theorem State.accept_drainl (cmd : BitVec 4) (drain : Bool) (s : State) :
    (s.accept cmd drain).drainl = drain := rfl
@[simp] theorem State.complete_phase (s : State) : s.complete.phase = .idle := rfl
@[simp] theorem State.raiseError_phase (code : Ecode) (s : State) : (s.raiseError code).phase = .idle := rfl
@[simp] theorem State.stop_phase (cause : Term) (s : State) : (s.stop cause).phase = .zerofill := rfl
@[simp] theorem State.stop_pixCount (cause : Term) (s : State) : (s.stop cause).pixCount = s.dec.pi := rfl
@[simp] theorem State.stop_term (cause : Term) (s : State) : (s.stop cause).status.term = cause := rfl
@[simp] theorem State.stopChain_phase (cause : Term) (s : State) : (s.stopChain cause).phase = .zerofill := rfl
@[simp] theorem State.stopChain_pixCount (cause : Term) (s : State) : (s.stopChain cause).pixCount = s.dec.pi := rfl
@[simp] theorem State.stopChain_dec (cause : Term) (s : State) :
    (s.stopChain cause).dec = { s.dec with chainEnd := true } := rfl
@[simp] theorem State.pop_ibuf (s : State) :
    s.pop.ibuf = writeMem s.ibuf s.dec.pi.toNat (readMem s.stack (s.dec.top - 1).toNat) := rfl
@[simp] theorem State.pop_dec (s : State) : s.pop.dec = { s.dec with top := s.dec.top - 1, pi := s.dec.pi + 1 } := rfl
@[simp] theorem State.setIncode_dec (code : Code) (s : State) : (s.setIncode code).dec = { s.dec with incode := code } :=
  rfl
@[simp] theorem State.setFirst_dec (f : Byte) (s : State) : (s.setFirst f).dec = { s.dec with first := f } := rfl
@[simp] theorem State.setOld_dec (code : Code) (s : State) : (s.setOld code).dec = { s.dec with old := some code } := rfl
@[simp] theorem State.setSbcnt_dec (n : Byte) (s : State) : (s.setSbcnt n).dec = { s.dec with sbcnt := n } := rfl
@[simp] theorem State.endChain_dec (s : State) : s.endChain.dec = { s.dec with chainEnd := true } := rfl
@[simp] theorem State.takeRest_dec (s : State) : s.takeRest.dec = { s.dec with sbcnt := s.dec.sbcnt - 1 } := rfl
@[simp] theorem State.takeCode_dec (s : State) : s.takeCode.dec =
    { s.dec with datum := s.dec.datum >>> s.dec.csize.toNat, bits := s.dec.bits - s.dec.csize.setWidth 5 } := rfl
@[simp] theorem State.toDrain_phase (s : State) : s.toDrain.phase = .drain := rfl
@[simp] theorem State.zerofill_ibuf (s : State) :
    s.zerofill.ibuf = clearRange s.dec.pi.toNat s.dec.npix.toNat s.ibuf := rfl
@[simp] theorem State.copyPrevToScr_scr (s : State) : s.copyPrevToScr.scr = copyBelow s.canvasLen s.prev s.scr := rfl
@[simp] theorem State.setNpix_dec (s : State) :
    s.setNpix.dec = { s.dec with npix := BitVec.ofNat 32 s.framePixels } := rfl
@[simp] theorem State.placeStep_phase (s : State) : s.placeStep.phase = .commit := rfl
@[simp] theorem State.placeStep_scr (s : State) : s.placeStep.scr = s.placeRows s.rowOrder 0 s.scr := rfl
@[simp] theorem State.commitStep_phase (s : State) : s.commitStep.phase = .idle := rfl
@[simp] theorem State.commitStep_prev (s : State) : s.commitStep.prev = copyBelow s.canvasLen s.cur s.prev := rfl
@[simp] theorem State.commitStep_cur (s : State) : s.commitStep.cur = copyBelow s.canvasLen s.scr s.cur := rfl
@[simp] theorem State.initStep_phase (s : State) : s.initStep.phase = .idle := rfl
@[simp] theorem State.initStep_activeSize (s : State) : s.initStep.activeSize = s.canvasSize := rfl
@[simp] theorem State.initStep_canvases (s : State) :
    s.initStep.cur = [] ∧ s.initStep.prev = [] ∧ s.initStep.scr = [] := ⟨rfl, rfl, rfl⟩
@[simp] theorem State.copyCurToScr_scr (s : State) : s.copyCurToScr.scr = copyBelow s.canvasLen s.cur s.scr := rfl
@[simp] theorem State.takeTurn_queue (s : State) : s.takeTurn.env.queue = s.env.queue := rfl
@[simp] theorem State.takeTurn_port (s : State) : s.takeTurn.env.port = s.env.port := rfl
@[simp] theorem State.setQueue_port (ops : List HostOp) (s : State) : (s.setQueue ops).env.port = s.env.port := rfl
@[simp] theorem State.consumeByte_pos (s : State) : s.consumeByte.env.port.pos = s.env.port.pos + 1 := rfl
@[simp] theorem State.consumeByte_bytesIn (s : State) : s.consumeByte.bytesIn = s.bytesIn + 1 := rfl

/-! ### BUSY -/

@[simp] theorem State.busy_eq_false {s : State} : s.busy = false ↔ s.phase = .idle := by
  cases h : s.phase <;> simp [State.busy, h]

@[simp] theorem State.busy_eq_true {s : State} : s.busy = true ↔ s.phase ≠ .idle := by
  cases h : s.phase <;> simp [State.busy, h]

/-- CW * CH depends on ACTIVE_SIZE alone (use this, not unfolding, to compare the canvases of two states). -/
theorem State.canvasLen_eq {s t : State} (h : t.activeSize = s.activeSize) : t.canvasLen = s.canvasLen := by
  rw [State.canvasLen, h, State.canvasLen]

end Sys2Proof.Machine
end

