-- ==== Sys2Proof/Laws/Codes.lean ====
section
/-! SUPPORT. What push, the prefix walk, EXPAND_AND_ADD and each code class can do (spec/40_lzw.md R117 to R127), said once: a
code changes only the stack, TOP, FIRST and INCODE before it stops, becomes OLD, or adds its entry. -/

namespace Sys2Proof.Machine

/-- The state a code has reached before it stops or adds its entry. -/
def State.scratch (st : Mem 8) (tp : BitVec 13) (f : Byte) (inc : Code) (s : State) : State :=
  { s with stack := st, dec := { s.dec with top := tp, first := f, incode := inc } }

theorem State.scratch_self (s : State) : s.scratch s.stack s.dec.top s.dec.first s.dec.incode = s := rfl

theorem State.scratch_scratch (s : State) (st st' : Mem 8) (tp tp' : BitVec 13) (f f' : Byte) (inc inc' : Code) :
    (s.scratch st tp f inc).scratch st' tp' f' inc' = s.scratch st' tp' f' inc' := rfl

theorem State.setIncode_eq_scratch (s : State) (code : Code) :
    s.setIncode code = s.scratch s.stack s.dec.top s.dec.first code := rfl

/-! ### push -/

theorem State.push_ok {s : State} (v : Byte) (h : s.dec.top.toNat < 4096) :
    s.push v = .ok (s.scratch (writeMem s.stack s.dec.top.toNat v) (s.dec.top + 1) s.dec.first s.dec.incode) :=
  if_pos h

theorem State.push_full {s : State} (v : Byte) (h : 4096 ≤ s.dec.top.toNat) : s.push v = .error (s.stop .stackFull) :=
  if_neg (Nat.not_lt.2 h)

theorem top_add_one {top : BitVec 13} (h : top.toNat < 4096) : (top + 1).toNat = top.toNat + 1 := by
  rw [BitVec.toNat_add]; simp; omega

/-! ### The walk -/

/-- What a walk or a push does to the stack: the canonical form and the bound are kept, and TOP stays in range. -/
def State.stackKept (s : State) (st : Mem 8) (tp : BitVec 13) : Prop :=
  (memWf s.stack → memWf st) ∧ (memBelow Config.stackCap s.stack → memBelow Config.stackCap st) ∧
  (s.dec.top.toNat ≤ Config.stackCap → tp.toNat ≤ Config.stackCap)

theorem State.stackKept_self (s : State) : s.stackKept s.stack s.dec.top := ⟨id, id, id⟩

theorem State.stackKept_push {s : State} {st : Mem 8} {tp : BitVec 13} (h : s.stackKept st tp)
    (hp : tp.toNat < 4096) (v : Byte) : s.stackKept (writeMem st tp.toNat v) (tp + 1) :=
  ⟨fun hw => writeMem_wf (h.1 hw) _ _, fun hb => writeMem_below (h.2.1 hb) hp v,
    fun _ => by rw [top_add_one hp]; exact hp⟩

theorem State.walk_cases (room : Nat) (c : Code) (s : State) (st : Mem 8) (tp : BitVec 13) (f : Byte) (inc : Code)
    (h : s.stackKept st tp) :
    ∃ st' tp', s.stackKept st' tp' ∧
      ((∃ base : Code, base.toNat ≤ s.dec.clear.toNat ∧
          State.walk room c (s.scratch st tp f inc) = .ok (base, s.scratch st' tp' f inc)) ∨
        State.walk room c (s.scratch st tp f inc) = .error ((s.scratch st' tp' f inc).stop .stackFull)) := by
  induction room generalizing c st tp with
  | zero =>
    refine ⟨st, tp, h, ?_⟩
    rw [State.walk]
    by_cases hc : c.toNat ≤ s.dec.clear.toNat
    · exact .inl ⟨c, hc, if_pos hc⟩
    · exact .inr (if_neg hc)
  | succ room ih =>
    rw [State.walk]
    by_cases hc : c.toNat ≤ s.dec.clear.toNat
    · exact ⟨st, tp, h, .inl ⟨c, hc, if_pos hc⟩⟩
    · have e : ¬ c.toNat ≤ (s.scratch st tp f inc).dec.clear.toNat := hc
      simp only [e, if_false]
      by_cases ht : tp.toNat < 4096
      · rw [State.push_ok (s := s.scratch st tp f inc) _ ht]
        exact ih _ _ _ (State.stackKept_push h ht _)
      · rw [State.push_full (s := s.scratch st tp f inc) _ (Nat.le_of_not_lt ht)]
        exact ⟨st, tp, h, .inr rfl⟩

/-- EXPAND_AND_ADD stops with STACK_FULL, or adds the entry. -/
theorem State.expandAndAdd_cases (old c : Code) (s : State) (st : Mem 8) (tp : BitVec 13) (f : Byte) (inc : Code)
    (h : s.stackKept st tp) :
    ∃ st' tp' f', s.stackKept st' tp' ∧
      (State.expandAndAdd old c (s.scratch st tp f inc) = .error ((s.scratch st' tp' f' inc).stop .stackFull) ∨
        State.expandAndAdd old c (s.scratch st tp f inc) = .ok ((s.scratch st' tp' f' inc).addEntry old)) := by
  obtain ⟨st', tp', hk, ⟨base, -, hw⟩ | hw⟩ :=
    State.walk_cases (Config.stackCap - (s.scratch st tp f inc).dec.top.toNat) c s st tp f inc h
  · have e : (s.scratch st' tp' f inc).setFirst (readMem s.suffixMem base.toNat) =
        s.scratch st' tp' (readMem s.suffixMem base.toNat) inc := rfl
    by_cases ht : tp'.toNat < 4096
    · refine ⟨_, tp' + 1, readMem s.suffixMem base.toNat,
        State.stackKept_push hk ht (readMem s.suffixMem base.toNat), .inr ?_⟩
      rw [State.expandAndAdd, hw]
      show (match ((s.scratch st' tp' f inc).setFirst (readMem s.suffixMem base.toNat)).push
          (readMem s.suffixMem base.toNat) with
        | .error u => Except.error u
        | .ok u => .ok (u.addEntry old)) = _
      rw [e, State.push_ok (s := s.scratch st' tp' _ inc) _ ht]
      rfl
    · refine ⟨st', tp', readMem s.suffixMem base.toNat, hk, .inl ?_⟩
      rw [State.expandAndAdd, hw]
      show (match ((s.scratch st' tp' f inc).setFirst (readMem s.suffixMem base.toNat)).push
          (readMem s.suffixMem base.toNat) with
        | .error u => Except.error u
        | .ok u => .ok (u.addEntry old)) = _
      rw [e, State.push_full (s := s.scratch st' tp' _ inc) _ (Nat.le_of_not_lt ht)]
  · exact ⟨st', tp', f, hk, .inl (by rw [State.expandAndAdd, hw])⟩

/-! ### The classes -/

/-- The causes a class stops with (40_lzw.md R112): its own, or STACK_FULL at a push. -/
inductive MayStopWith : Instr → Term → Prop where
  | badcode (c : Code) : MayStopWith (.badcode c) .badCode
  | eoi : MayStopWith .eoi .eoi
  | dictfull (c : Code) : MayStopWith (.dictfull c) .dictFull
  | push (i : Instr) : MayStopWith i .stackFull

/-- Everything a code class can do to a state: it stops, resets the dictionary, becomes OLD as the first code, or adds
its entry. -/
inductive CodeOutcome (s : State) : Instr → State → Prop where
  | stop (i : Instr) (cause : Term) (hcause : MayStopWith i cause) (st : Mem 8) (tp : BitVec 13) (f : Byte) (inc : Code)
      (h : s.stackKept st tp) :
      CodeOutcome s i ((s.scratch st tp f inc).stop cause)
  | clear : CodeOutcome s .clear s.clearDict
  | first (code : Code) (st : Mem 8) (tp : BitVec 13) (f : Byte) (h : s.stackKept st tp) :
      CodeOutcome s (.first code) ((s.scratch st tp f s.dec.incode).setOld code)
  | add (i : Instr) (old : Code) (hold : s.dec.old = some old) (code : Code)
      (hi : i = .kwkwk code ∨ i = .literal code ∨ i = .dict code)
      (st : Mem 8) (tp : BitVec 13) (f : Byte) (h : s.stackKept st tp) :
      CodeOutcome s i ((s.scratch st tp f code).addEntry old)

theorem settle_next {r : Except State State} {t : State} (h : settle r = .next t) : r = .ok t ∨ r = .error t := by
  cases r <;> simp_all [settle]

theorem expandAndAdd_outcome {s t : State} {old code c : Code} (i : Instr) (hold : s.dec.old = some old)
    (hi : i = .kwkwk code ∨ i = .literal code ∨ i = .dict code) (st : Mem 8) (tp : BitVec 13) (f : Byte)
    (hk : s.stackKept st tp)
    (h : settle (State.expandAndAdd old c (s.scratch st tp f code)) = .next t) : CodeOutcome s i t := by
  obtain ⟨st', tp', f', hk', he | he⟩ := State.expandAndAdd_cases old c s st tp f code hk
  · rw [he] at h
    cases h
    exact .stop i _ (.push i) _ _ _ _ hk'
  · rw [he] at h
    cases h
    exact .add i old hold code hi _ _ _ hk'

/-- The inversion of `exec` on a code class. -/
theorem exec_code_outcome {i : Instr} {s t : State} (hc : i.isCtrl = false) (hd : ∀ m, i ≠ .disposeReserved m)
    (hd' : i ≠ .disposeUnspecified ∧ i ≠ .disposeNone ∧ i ≠ .disposeBackground ∧ i ≠ .disposePrevious)
    (h : exec i s = .next t) : CodeOutcome s i t := by
  cases i <;> simp only [Instr.isCtrl, reduceCtorEq] at hc <;> try simp at hd'
  case badcode c => cases h; exact .stop _ _ (.badcode c) _ _ s.dec.first s.dec.incode s.stackKept_self
  case eoi => cases h; exact .stop _ _ .eoi _ _ s.dec.first s.dec.incode s.stackKept_self
  case dictfull c => cases h; exact .stop _ _ (.dictfull c) _ _ s.dec.first s.dec.incode s.stackKept_self
  case clear => cases h; exact .clear
  case first code =>
    simp only [exec, execFirst] at h
    by_cases ht : s.dec.top.toNat < 4096
    · rw [State.push_ok _ ht] at h
      cases h
      exact .first code _ _ _ (State.stackKept_push s.stackKept_self ht (readMem s.suffixMem code.toNat))
    · rw [State.push_full _ (Nat.le_of_not_lt ht)] at h
      cases h
      exact .stop _ _ (.push _) _ _ s.dec.first s.dec.incode s.stackKept_self
  case literal code =>
    simp only [exec, execLiteral] at h
    split at h
    · cases h
    · rename_i old hold
      exact expandAndAdd_outcome _ hold (.inr (.inl rfl)) _ _ _ s.stackKept_self h
  case dict code =>
    simp only [exec, execDict] at h
    split at h
    · cases h
    · rename_i old hold
      exact expandAndAdd_outcome _ hold (.inr (.inr rfl)) _ _ _ s.stackKept_self h
  case kwkwk code =>
    simp only [exec, execKwkwk] at h
    split at h
    · cases h
    · rename_i old hold
      rw [State.setIncode_eq_scratch] at h
      by_cases ht : s.dec.top.toNat < 4096
      · rw [State.push_ok (s := s.scratch s.stack s.dec.top s.dec.first code) _ ht] at h
        exact expandAndAdd_outcome _ hold (.inl rfl) _ _ _ (State.stackKept_push s.stackKept_self ht _) h
      · rw [State.push_full (s := s.scratch s.stack s.dec.top s.dec.first code) _ (Nat.le_of_not_lt ht)] at h
        cases h
        exact .stop _ _ (.push _) _ _ _ _ s.stackKept_self
  case disposeReserved m => exact absurd rfl (hd m)

/-! ### The entry -/

/-- GROW leaves everything but CSIZE and CMASK alone. -/
theorem State.grow_cases (s : State) :
    (s.grow = s.widen ∧ s.dec.avail &&& s.dec.cmask.setWidth 13 = 0 ∧ s.dec.avail.toNat < 4096) ∨
    (s.grow = s ∧ ¬ (s.dec.avail &&& s.dec.cmask.setWidth 13 = 0 ∧ s.dec.avail.toNat < 4096)) := by
  unfold State.grow
  split
  · rename_i h; exact .inl ⟨rfl, h⟩
  · rename_i h; exact .inr ⟨rfl, h⟩

/-- `addEntry` writes the two memories at AVAIL, AVAIL, CSIZE, CMASK and OLD, and nothing else; CSIZE and CMASK grow
exactly when the new AVAIL has no bit below CMASK and is below 4096. -/
theorem State.addEntry_cases (old : Code) (s : State) :
    s.addEntry old = (s.writeEntry old).setOld s.dec.incode ∧
        ¬ ((s.dec.avail + 1) &&& s.dec.cmask.setWidth 13 = 0 ∧ (s.dec.avail + 1).toNat < 4096) ∨
      s.addEntry old = ((s.writeEntry old).widen).setOld s.dec.incode ∧
        ((s.dec.avail + 1) &&& s.dec.cmask.setWidth 13 = 0 ∧ (s.dec.avail + 1).toNat < 4096) := by
  rcases State.grow_cases (s.writeEntry old) with ⟨h, h1⟩ | ⟨h, h1⟩
  · exact .inr ⟨by rw [State.addEntry, h], h1⟩
  · exact .inl ⟨by rw [State.addEntry, h], h1⟩

/-! ### A walk that ends -/

theorem State.expandsTo_scratch (s : State) (st : Mem 8) (tp : BitVec 13) (f : Byte) (inc base c : Code)
    (links : List Code) : (s.scratch st tp f inc).expandsTo base c links ↔ s.expandsTo base c links := by
  induction links generalizing c with
  | nil => exact Iff.rfl
  | cons d ds ih => exact and_congr Iff.rfl (and_congr Iff.rfl (ih _))

/-- The walk along `links` pushes the SUFFIX of each, in order. -/
theorem State.walk_expandsTo (s : State) (base : Code) (links : List Code) (c : Code) (st : Mem 8) (tp : BitVec 13)
    (f : Byte) (inc : Code) (h : s.expandsTo base c links) (hw : memWf st)
    (room : Nat) (hroom : tp.toNat + room = 4096) (hl : links.length ≤ room) :
    ∃ st' tp', State.walk room c (s.scratch st tp f inc) = .ok (base, s.scratch st' tp' f inc) ∧ memWf st' ∧
      tp'.toNat = tp.toNat + links.length ∧
      (∀ j (hj : j < links.length), readMem st' (tp.toNat + j) = readMem s.suffixMem links[j].toNat) ∧
      ∀ i, i < tp.toNat ∨ tp.toNat + links.length ≤ i → readMem st' i = readMem st i := by
  induction links generalizing c st tp room with
  | nil =>
    obtain ⟨rfl, hc⟩ := h
    refine ⟨st, tp, ?_, hw, by simp, by simp, fun i _ => rfl⟩
    rw [State.walk.eq_def]
    exact if_pos hc
  | cons d ds ih =>
    obtain ⟨rfl, hc, hrest⟩ := h
    cases room with
    | zero => simp at hl
    | succ room =>
      have ht : tp.toNat < 4096 := by omega
      have hr : (tp + 1).toNat + room = 4096 := by rw [top_add_one ht]; omega
      obtain ⟨st', tp', hwalk, hw', htp, hin, hout⟩ := ih (readMem s.prefixMem c.toNat)
        (writeMem st tp.toNat (readMem s.suffixMem c.toNat)) (tp + 1) hrest (writeMem_wf hw _ _) room hr
        (by simpa using hl)
      have e : ¬ c.toNat ≤ (s.scratch st tp f inc).dec.clear.toNat := Nat.not_le.2 hc
      rw [top_add_one ht] at htp hin hout
      refine ⟨st', tp', ?_, hw', by simp [htp]; omega, fun j hj => ?_, fun i hi => ?_⟩
      · rw [State.walk]
        simp only [e, if_false]
        rw [State.push_ok (s := s.scratch st tp f inc) _ ht]
        exact hwalk
      · cases j with
        | zero =>
          rw [Nat.add_zero, hout _ (.inl (by omega)), readMem_writeMem hw, if_pos rfl]
          rfl
        | succ j =>
          have := hin j (by simpa using hj)
          rw [show tp.toNat + (j + 1) = tp.toNat + 1 + j by omega, this]
          rfl
      · simp only [List.length_cons] at hi
        rw [hout i (by omega), readMem_writeMem_of_ne _ _ (by omega)]

/-- EXPAND_AND_ADD of a code whose walk ends with room left on the stack: the suffixes along the links are pushed, the
base code's own suffix after them, and the entry is added with it. -/
theorem State.expandAndAdd_expandsTo (s : State) (old base c : Code) (links : List Code) (st : Mem 8) (tp : BitVec 13)
    (f : Byte) (inc : Code) (h : s.expandsTo base c links) (hw : memWf st) (hl : tp.toNat + links.length < 4096) :
    ∃ st' tp', State.expandAndAdd old c (s.scratch st tp f inc) =
        .ok ((s.scratch st' tp' (readMem s.suffixMem base.toNat) inc).addEntry old) ∧
      tp'.toNat = tp.toNat + links.length + 1 ∧
      ∀ i, readMem st' i =
        if i < tp.toNat then readMem st i
        else (links.map (fun d => readMem s.suffixMem d.toNat) ++ [readMem s.suffixMem base.toNat])[i - tp.toNat]?.getD
          (readMem st i) := by
  obtain ⟨st', tp', hwalk, hw', htp, hin, hout⟩ :=
    s.walk_expandsTo base links c st tp f inc h hw (4096 - tp.toNat) (by omega) (by omega)
  have ht : tp'.toNat < 4096 := by omega
  have e : (s.scratch st' tp' f inc).setFirst (readMem s.suffixMem base.toNat) =
      s.scratch st' tp' (readMem s.suffixMem base.toNat) inc := rfl
  refine ⟨writeMem st' tp'.toNat (readMem s.suffixMem base.toNat), tp' + 1, ?_, by rw [top_add_one ht]; omega, fun i => ?_⟩
  · rw [State.expandAndAdd]
    show (match State.walk (4096 - tp.toNat) c (s.scratch st tp f inc) with
      | .error t => Except.error t
      | .ok (base, t) => _) = _
    rw [hwalk]
    show (match ((s.scratch st' tp' f inc).setFirst (readMem s.suffixMem base.toNat)).push
        (readMem s.suffixMem base.toNat) with
      | .error u => Except.error u
      | .ok u => .ok (u.addEntry old)) = _
    rw [e, State.push_ok (s := s.scratch st' tp' _ inc) _ ht]
    rfl
  · rw [readMem_writeMem hw', htp]
    by_cases h1 : i < tp.toNat
    · rw [if_neg (by omega), if_pos h1, hout i (.inl h1)]
    · rw [if_neg h1]
      by_cases h2 : i - tp.toNat < links.length
      · have := hin (i - tp.toNat) h2
        rw [show tp.toNat + (i - tp.toNat) = i by omega] at this
        rw [if_neg (by omega), this]
        simp [List.getElem?_append, h2]
      · by_cases h3 : i = tp.toNat + links.length
        · subst h3
          simp
        · rw [if_neg h3, hout i (.inr (by omega)), List.getElem?_eq_none (by simp; omega)]; rfl

/-- The memories `addEntry` leaves. -/
theorem State.addEntry_mems (s : State) (old : Code) :
    (s.addEntry old).prefixMem = writeMem s.prefixMem s.dec.avail.toNat old ∧
      (s.addEntry old).suffixMem = writeMem s.suffixMem s.dec.avail.toNat s.dec.first ∧
      (s.addEntry old).stack = s.stack ∧ (s.addEntry old).ibuf = s.ibuf ∧ (s.addEntry old).gct = s.gct ∧
      (s.addEntry old).lct = s.lct ∧ (s.addEntry old).cur = s.cur ∧ (s.addEntry old).prev = s.prev ∧
      (s.addEntry old).scr = s.scr ∧ (s.addEntry old).par = s.par := by
  rcases State.addEntry_cases old s with ⟨h, -⟩ | ⟨h, -⟩ <;> rw [h] <;> simp [State.writeEntry]

/-- The test of R127, "AVAIL & CMASK == 0", on numbers. -/
theorem avail_and_mask {avail : BitVec 13} {cmask : Code} {k : Nat} (hk : k ≤ 12) (hm : cmask.toNat = 2 ^ k - 1) :
    (avail &&& cmask.setWidth 13 = 0) ↔ avail.toNat % 2 ^ k = 0 := by
  have hmask : (avail &&& cmask.setWidth 13).toNat = avail.toNat % 2 ^ k := by
    rw [BitVec.toNat_and, BitVec.toNat_setWidth, hm, Nat.mod_eq_of_lt (a := 2 ^ _ - 1), Nat.and_two_pow_sub_one_eq_mod]
    have := Nat.pow_le_pow_right (n := 2) (by omega) hk
    omega
  rw [← hmask]
  constructor
  · intro h; rw [h]; rfl
  · intro h; exact BitVec.eq_of_toNat_eq h

/-- The registers `addEntry` leaves, in a decoder whose registers are in range. -/
theorem State.addEntry_dec (s : State) (old : Code) (st : Mem 8) (tp : BitVec 13) (f : Byte) (code : Code)
    (ha : s.dec.avail.toNat < 4096) (h12 : s.dec.csize.toNat ≤ 12)
    (hm : s.dec.cmask.toNat = 2 ^ s.dec.csize.toNat - 1) :
    ∃ (csize : BitVec 4) (cmask : Code), csize.toNat = s.widthAfterAdd ∧ cmask.toNat = 2 ^ s.widthAfterAdd - 1 ∧
      csize.toNat ≤ 12 ∧ s.dec.csize.toNat ≤ csize.toNat ∧ (s.dec.avail + 1).toNat = s.dec.avail.toNat + 1 ∧
      ((s.scratch st tp f code).addEntry old).dec =
        { s.dec with
          avail := s.dec.avail + 1, csize := csize, cmask := cmask, old := some code, top := tp, first := f
          incode := code } := by
  have hav : (s.dec.avail + 1).toNat = s.dec.avail.toNat + 1 := by bv_omega
  have hz := avail_and_mask (avail := s.dec.avail + 1) h12 hm
  rw [hav] at hz
  rcases State.addEntry_cases old (s.scratch st tp f code) with ⟨h, hc⟩ | ⟨h, hc⟩
  · have hc' : ¬ ((s.dec.avail.toNat + 1) % 2 ^ s.dec.csize.toNat = 0 ∧ s.dec.avail.toNat + 1 < 4096) := by
      rw [← hz, ← hav]; exact hc
    rw [h, State.widthAfterAdd, if_neg hc']
    exact ⟨s.dec.csize, s.dec.cmask, rfl, hm, h12, Nat.le_refl _, hav, rfl⟩
  · have hc' : ((s.dec.avail.toNat + 1) % 2 ^ s.dec.csize.toNat = 0 ∧ s.dec.avail.toNat + 1 < 4096) := by
      rw [← hz, ← hav]; exact hc
    have hlt : s.dec.csize.toNat ≤ 11 := by
      rcases Nat.lt_or_ge s.dec.csize.toNat 12 with h | h
      · omega
      · exfalso
        have h12' : s.dec.csize.toNat = 12 := by omega
        rw [h12'] at hc'
        omega
    have hcs : (s.dec.csize + 1).toNat = s.dec.csize.toNat + 1 := by bv_omega
    rw [h, State.widthAfterAdd, if_pos hc']
    refine ⟨s.dec.csize + 1, 2 * s.dec.cmask + 1, hcs, ?_, by omega, by omega, hav, rfl⟩
    have h2 := Nat.pow_le_pow_right (n := 2) (by omega) hlt
    have := Nat.one_le_two_pow (n := s.dec.csize.toNat)
    rw [Nat.pow_succ, BitVec.toNat_add, BitVec.toNat_mul, hm]
    simp
    omega

/-- What `addEntry` leaves, in a decoder whose registers are in range and whose memories are canonical. -/
theorem State.addEntry_addsEntry (s : State) (old : Code) (st : Mem 8) (tp : BitVec 13) (f : Byte) (code : Code)
    (ha : s.dec.avail.toNat < 4096) (h12 : s.dec.csize.toNat ≤ 12)
    (hm : s.dec.cmask.toNat = 2 ^ s.dec.csize.toNat - 1) (hp : memWf s.prefixMem) (hs : memWf s.suffixMem) :
    s.addsEntry ((s.scratch st tp f code).addEntry old) old f code ∧
      ((s.scratch st tp f code).addEntry old).dec.top = tp ∧ ((s.scratch st tp f code).addEntry old).stack = st ∧
      ((s.scratch st tp f code).addEntry old).ibuf = s.ibuf := by
  obtain ⟨csize, cmask, hc, hcm, -, -, hav, he⟩ := s.addEntry_dec old st tp f code ha h12 hm
  obtain ⟨e1, e2, e3, e4, -⟩ := State.addEntry_mems (s.scratch st tp f code) old
  refine ⟨⟨fun i => ?_, fun i => ?_, ?_⟩, by rw [he], e3, e4⟩
  · rw [e1]; exact readMem_writeMem hp _ _ _
  · rw [e2]; exact readMem_writeMem hs _ _ _
  · rw [he]
    exact ⟨hav, rfl, rfl, rfl, hc, hcm, rfl, rfl, rfl, rfl, rfl, rfl, rfl, rfl, rfl⟩

/-- The fields `addEntry` leaves alone. -/
theorem State.addEntry_frame (s : State) (old : Code) :
    s.sameReport (s.addEntry old) ∧ s.sameRun (s.addEntry old) ∧ s.sameConfig (s.addEntry old) ∧
      s.sameLast (s.addEntry old) ∧ s.sameCanvas (s.addEntry old) := by
  rcases State.addEntry_cases old s with ⟨h, -⟩ | ⟨h, -⟩ <;> rw [h] <;>
  simp [State.sameReport, State.sameRun, State.sameConfig, State.sameLast, State.sameCanvas, sameMem]

/-- A walk that has not come to an end when the stack is full: the next push stops it, or the base code comes then. -/
theorem State.walk_walksPast (s : State) (n : Nat) (c : Code) (st : Mem 8) (tp : BitVec 13) (f : Byte) (inc : Code)
    (h : s.walksPast c n) (hn : tp.toNat + n = 4096) :
    ∃ st' tp', tp'.toNat = 4096 ∧
      (State.walk n c (s.scratch st tp f inc) = .error ((s.scratch st' tp' f inc).stop .stackFull) ∨
        ∃ c', c'.toNat ≤ s.dec.clear.toNat ∧
          State.walk n c (s.scratch st tp f inc) = .ok (c', s.scratch st' tp' f inc)) := by
  induction n generalizing c st tp with
  | zero =>
    rw [State.walk.eq_def]
    by_cases hc : c.toNat ≤ s.dec.clear.toNat
    · exact ⟨st, tp, by omega, .inr ⟨c, hc, if_pos hc⟩⟩
    · exact ⟨st, tp, by omega, .inl (if_neg hc)⟩
  | succ n ih =>
    have e : ¬ c.toNat ≤ (s.scratch st tp f inc).dec.clear.toNat := Nat.not_le.2 h.1
    have ht : tp.toNat < 4096 := by omega
    rw [State.walk]
    simp only [e, if_false]
    rw [State.push_ok (s := s.scratch st tp f inc) _ ht]
    exact ih (readMem s.prefixMem c.toNat) _ (tp + 1) h.2 (by rw [top_add_one ht]; omega)

/-- An expansion that visits as many links as the stack has free entries stops with STACK_FULL, at the base code at the
latest. -/
theorem State.expandAndAdd_walksPast (s : State) (code c old : Code) (n : Nat) (st : Mem 8) (tp : BitVec 13) (f : Byte)
    (hw : s.walksPast c n) (hn : tp.toNat + n = 4096) :
    ∃ st' tp' f', tp'.toNat = 4096 ∧
      (f' = f ∨ ∃ base : Code, base.toNat ≤ s.dec.clear.toNat ∧ f' = readMem s.suffixMem base.toNat) ∧
      (s.scratch st tp f code).expandAndAdd old c = .error ((s.scratch st' tp' f' code).stop .stackFull) := by
  have room : Config.stackCap - (s.scratch st tp f code).dec.top.toNat = n := by show 4096 - tp.toNat = n; omega
  obtain ⟨st', tp', ht, h | ⟨c', hc⟩⟩ := s.walk_walksPast n c st tp f code hw hn
  · exact ⟨st', tp', f, ht, .inl rfl, by rw [State.expandAndAdd, room, h]⟩
  · refine ⟨st', tp', readMem s.suffixMem c'.toNat, ht, .inr ⟨c', hc.1, rfl⟩, ?_⟩
    have full := State.push_full (s := s.scratch st' tp' (readMem s.suffixMem c'.toNat) code)
      (readMem s.suffixMem c'.toNat) (by show 4096 ≤ tp'.toNat; omega)
    rw [State.expandAndAdd, room, hc.2]
    show (match (s.scratch st' tp' (readMem s.suffixMem c'.toNat) code).push (readMem s.suffixMem c'.toNat) with
      | .error t => Except.error t
      | .ok t => _) = _
    rw [full]

/-- What a STACK_FULL stop in the middle of a code leaves. -/
theorem State.scratch_stopsStackFull (s : State) (st : Mem 8) (tp : BitVec 13) (f : Byte) (code : Code)
    (ht : tp.toNat = 4096)
    (hf : f = s.dec.first ∨ ∃ base : Code, base.toNat ≤ s.dec.clear.toNat ∧ f = readMem s.suffixMem base.toNat) :
    s.stopsStackFull ((s.scratch st tp f code).stop .stackFull) code := by
  obtain rfl : tp = 4096#13 := BitVec.eq_of_toNat_eq ht
  refine ⟨by simp [State.stop, State.scratch, Term.isError], rfl, rfl, ?_, rfl, hf, fun _ => rfl, rfl, ?_, ?_, ?_, ?_⟩ <;>
  simp [State.sameDict, State.sameRun, State.sameConfig, State.sameLast, State.sameCanvas, State.stop, State.scratch,
    sameMem]

/-- What every code class leaves alone. -/
theorem CodeOutcome.frame {s t : State} {i : Instr} (h : CodeOutcome s i t) :
    t.bytesIn = s.bytesIn ∧ s.sameRun t ∧ s.sameConfig t ∧ s.sameLast t ∧ s.sameCanvas t := by
  cases h with
  | stop | clear | first =>
    simp [State.sameRun, State.sameConfig, State.sameLast, State.sameCanvas, State.scratch, sameMem]
  | add i old hold code hi st tp f hk =>
    obtain ⟨a, b, c, d, e⟩ := State.addEntry_frame (s.scratch st tp f code) old
    exact ⟨a.2.2.2, b, c, d, e⟩

end Sys2Proof.Machine
end

