-- ==== Sys2Proof/Laws/Port.lean ====
section
/-! SUPPORT. Which word of the register port an address reaches (spec/10_state.md R23, spec/20_memory.md R62), and the shape
of a host access to it. -/

namespace Sys2Proof.Machine

/-- An offset below 0x1000 reaches the aligned word that contains it. -/
theorem portWord_offset (par : Params) {a : Nat} (h : a < 4096) :
    portWord par (par.base + a) = some (portWordAt (a / 4 * 4)) := by
  rw [portWord, if_pos ⟨by omega, by omega⟩]
  congr 3
  omega

theorem portWord_base (par : Params) : portWord par par.base = some .ctrl := portWord_offset par (a := 0) (by decide)

theorem portWordAt_gct {i : Nat} (h : i < 256) : portWordAt (0x400 + 4 * i) = .gct (BitVec.ofNat 8 i) := by
  unfold portWordAt
  rw [if_pos (by omega)]
  congr 2
  omega

theorem portWordAt_lct {i : Nat} (h : i < 256) : portWordAt (0x800 + 4 * i) = .lct (BitVec.ofNat 8 i) := by
  unfold portWordAt
  rw [if_neg (by omega), if_pos (by omega)]
  congr 2
  omega

/-- A word past the registers and outside the tables is reserved. -/
theorem portWordAt_reserved {a : Nat} (h : (0x05C ≤ a ∧ a < 0x400) ∨ 0xC00 ≤ a) : portWordAt a = .reserved := by
  unfold portWordAt
  rw [if_neg (by omega), if_neg (by omega), List.getElem?_eq_none (by simp [portRegisters]; omega)]
  rfl

/-- Only offset 0 is CTRL and only offset 4 is STATUS. -/
theorem portWordAt_other {a : Nat} (h : 8 ≤ a) : portWordAt a ≠ .ctrl ∧ portWordAt a ≠ .status := by
  unfold portWordAt
  split
  · simp
  split
  · simp
  by_cases h23 : a / 4 < 23
  · have h2 : 2 ≤ a / 4 := by omega
    generalize a / 4 = k at *
    interval_cases k <;> decide
  · rw [List.getElem?_eq_none (by simp [portRegisters]; omega)]
    decide

/-- A write to a word of the port other than CTRL. -/
theorem State.hostWrite_word (s : State) {addr : Nat} {w : PortWord} (v : Word) (h : portWord s.par addr = some w)
    (hw : w ≠ .ctrl) : s.hostWrite addr v = .next (s.writeWord w v) := by
  unfold State.hostWrite
  rw [h]
  cases w <;> first | rfl | exact absurd rfl hw

/-- A write to CTRL. -/
theorem State.hostWrite_ctrl (s : State) (v : Word) : s.hostWrite s.par.base v = exec (decodeCtrl v) s := by
  rw [State.hostWrite, portWord_base]

/-- A write to CTRL, by its command: RESET, NOP, or a request with the word's CMD and DRAIN fields. -/
theorem State.hostWrite_ctrl_cases {s : State} {v : Word} (P : Result → Prop)
    (reset : v.toNat % 16 = 1 → P (exec .reset s)) (nop : v.toNat % 16 = 0 → P (exec .nop s))
    (other : v.toNat % 16 ≠ 0 → v.toNat % 16 ≠ 1 → P (.next (s.request (v.extractLsb' 0 4) (v.getLsbD 4)))) :
    P (s.hostWrite s.par.base v) := by
  have hx : v.extractLsb' 0 4 = BitVec.ofNat 4 (v.toNat % 16) :=
    BitVec.eq_of_toNat_eq (by simp [BitVec.extractLsb'])
  have : v.toNat % 16 < 16 := Nat.mod_lt _ (by decide)
  rw [State.hostWrite_ctrl]
  simp only [decodeCtrl]
  rw [hx] at other
  generalize v.toNat % 16 = k at *
  interval_cases k
  · exact nop rfl
  · exact reset rfl
  all_goals exact other (by decide) (by decide)

theorem State.hostRead_word (s : State) {addr : Nat} {w : PortWord} (h : portWord s.par addr = some w) :
    s.hostRead addr = s.readWord w := by
  rw [State.hostRead, h]

theorem State.readWord_plain (s : State) {w : PortWord} (h : w.isRam = false) :
    s.readWord w = State.afterLoad w (s.deliver (s.loadWord w)) := by
  simp [State.readWord, h]

theorem State.readWord_idle (s : State) (w : PortWord) (h : s.busy = false) :
    s.readWord w = State.afterLoad w (s.deliver (s.loadWord w)) := by
  simp [State.readWord, h]

/-- The operations that do not write CTRL keep the block as it is. -/
theorem State.writeWord_block (w : PortWord) (v : Word) (s : State) :
    (s.writeWord w v).phase = s.phase ∧ (s.writeWord w v).dec = s.dec ∧ (s.writeWord w v).cmdl = s.cmdl ∧
      (s.writeWord w v).started = s.started := by
  unfold State.writeWord
  split
  · exact ⟨rfl, rfl, rfl, rfl⟩
  split
  · exact ⟨rfl, rfl, rfl, rfl⟩
  · cases w <;> exact ⟨rfl, rfl, rfl, rfl⟩

/-- A register stands at one offset of the port only. -/
theorem portWordAt_register {k n : Nat} (hk : k < 23) (h : portWordAt (4 * n) = portWordAt (4 * k)) : n = k := by
  unfold portWordAt at h
  rw [if_neg (c := 0x400 ≤ 4 * k ∧ _) (by omega), if_neg (c := 0x800 ≤ 4 * k ∧ _) (by omega),
    Nat.mul_div_cancel_left _ (by decide)] at h
  split at h
  · exfalso; revert h; interval_cases k <;> intro h <;> cases h
  split at h
  · exfalso; revert h; interval_cases k <;> intro h <;> cases h
  rw [Nat.mul_div_cancel_left _ (by decide)] at h
  rcases Nat.lt_or_ge n 23 with hn | hn
  · revert h
    interval_cases k <;> interval_cases n <;> decide
  · rw [List.getElem?_eq_none (by simp [portRegisters]; omega)] at h
    exfalso; revert h; interval_cases k <;> intro h <;> cases h

/-- A write to one word leaves what every other word holds, but for the two data words, whose value follows their index and
the buffer selection. -/
theorem State.loadWord_storeWord (s : State) {w x : PortWord} (v : Word) (hx : x ≠ w)
    (hc : x = .cbufData → w ≠ .cbufSel ∧ w ≠ .cbufIdx) (hi : x = .ibufData → w ≠ .ibufIdx) :
    (s.storeWord w v).loadWord x = s.loadWord x := by
  cases w <;> cases x <;>
  first
  | rfl
  | exact absurd rfl hx
  | exact absurd rfl (hc rfl).1
  | exact absurd rfl (hc rfl).2
  | exact absurd rfl (hi rfl)
  | exact readMem_writeMem_of_ne _ _ (fun h => hx (congrArg _ (BitVec.eq_of_toNat_eq h)))
end Sys2Proof.Machine
end

