-- ==== Sys2Proof/Laws/Steps.lean ====
section
/-! SUPPORT. Everything one step of the block can be (spec/42_commands.md R188), said once: the shapes of the next state with
the conditions under which each is taken. -/

namespace Sys2Proof.Machine

/-! ### The port -/

theorem InPort.answer_of_buf {p : InPort} {b : Byte} (h : p.buf[p.pos]? = some b) : p.answer = .byte b := by
  rw [InPort.answer, h]

theorem InPort.answer_err {p : InPort} : p.answer = .err ↔ p.buf[p.pos]? = none ∧ p.atEnd = .err := by
  unfold InPort.answer
  split
  · rename_i c h
    simp [h]
  · rename_i h
    cases h2 : p.atEnd <;> simp [h]

theorem InPort.answer_waiting {p : InPort} : p.answer = .waiting ↔ p.buf[p.pos]? = none ∧ p.atEnd = .silent := by
  unfold InPort.answer
  split
  · rename_i c h
    simp [h]
  · rename_i h
    cases h2 : p.atEnd <;> simp [h]

/-- A port that holds no bytes of its own and repeats a cycle answers the cycle's byte at its position. -/
theorem InPort.answer_cycle {p : InPort} {first : Byte} {rest : List Byte} (hb : p.buf = [])
    (he : p.atEnd = .cycle first rest) : p.answer = .byte ((first :: rest).getD (p.pos % (rest.length + 1)) first) := by
  simp [InPort.answer, hb, he]

/-! ### The DECODE phase -/

theorem State.decoding_iff (s : State) : s.decoding = true ↔ s.phase = .decode ∧ s.started = true := by
  simp [State.decoding]

theorem State.selection_stopCount {s : State} : s.selection = .stopCount ↔ s.dec.npix.toNat ≤ s.dec.pi.toNat := by
  unfold State.selection
  repeat' split
  all_goals simp_all

theorem State.selection_pop {s : State} :
    s.selection = .pop ↔ s.dec.pi.toNat < s.dec.npix.toNat ∧ 0 < s.dec.top.toNat := by
  unfold State.selection
  repeat' split
  all_goals simp_all

theorem State.selection_load {s : State} :
    s.selection = .load ↔
      s.dec.pi.toNat < s.dec.npix.toNat ∧ s.dec.top.toNat = 0 ∧ s.dec.bits.toNat < s.dec.csize.toNat := by
  unfold State.selection
  repeat' split
  all_goals first | omega | simp_all
  all_goals omega

theorem State.selection_code {s : State} :
    s.selection = .code ↔
      s.dec.pi.toNat < s.dec.npix.toNat ∧ s.dec.top.toNat = 0 ∧ s.dec.csize.toNat ≤ s.dec.bits.toNat := by
  unfold State.selection
  repeat' split
  all_goals first | omega | simp_all
  all_goals omega

/-- A step of DECODE after decode start. -/
theorem State.blockStep_decoding {s : State} (h : s.decoding = true) :
    s.blockStep = match s.selection with
      | .stopCount => .next (s.stop .count)
      | .pop => .next s.pop
      | .load => .next s.load
      | .code => s.codeStep := by
  obtain ⟨h1, h2⟩ := s.decoding_iff.1 h
  rw [State.blockStep, h1]
  show s.decodeStep = _
  rw [State.decodeStep, h2]
  rfl

/-- Decode start. -/
theorem State.blockStep_start {s : State} (h : s.phase = .decode) (h' : s.started = false) :
    s.blockStep = .next s.decodeStart := by
  rw [State.blockStep, h]
  show s.decodeStep = _
  rw [State.decodeStep, h']
  rfl

theorem classify_isCode (ctx : CodeCtx) (c : Code) :
    (classify ctx c).isCtrl = false ∧ (∀ m, classify ctx c ≠ .disposeReserved m) ∧
      (classify ctx c ≠ .disposeUnspecified ∧ classify ctx c ≠ .disposeNone ∧ classify ctx c ≠ .disposeBackground ∧
        classify ctx c ≠ .disposePrevious) := by
  unfold classify
  repeat' split
  all_goals simp [Instr.isCtrl]

/-- A class that adds an entry has an OLD, room in the dictionary, and a code of at most AVAIL. -/
theorem classify_adds {ctx : CodeCtx} {c code : Code}
    (h : classify ctx c = .kwkwk code ∨ classify ctx c = .literal code ∨ classify ctx c = .dict code) :
    code = c ∧ ctx.old ≠ none ∧ ctx.avail.toNat ≠ Config.dictCap ∧ c.toNat ≤ ctx.avail.toNat := by
  unfold classify at h
  repeat' split at h
  all_goals simp_all

/-- The FIRST class has no OLD, and a code of at most AVAIL. -/
theorem classify_first {ctx : CodeCtx} {c code : Code} (h : classify ctx c = .first code) :
    code = c ∧ ctx.old = none ∧ c.toNat ≤ ctx.avail.toNat := by
  unfold classify at h
  repeat' split at h
  all_goals simp_all

theorem State.codeStep_outcome {s t : State} (h : s.codeStep = .next t) :
    CodeOutcome s.takeCode (classify s.codeCtx s.codeOperand) t := by
  obtain ⟨a, b, c⟩ := classify_isCode s.codeCtx s.codeOperand
  exact exec_code_outcome a b c h

/-! ### The end of DRAIN -/

theorem State.afterDrain_cases (s : State) :
    (s.cmdl = 4 ∧ s.afterDrain = s.toPhase .place) ∨ (s.cmdl ≠ 4 ∧ s.afterDrain = s.complete) := by
  rw [State.afterDrain]
  split
  · exact .inl ⟨‹_›, rfl⟩
  · exact .inr ⟨‹_›, rfl⟩

/-! ### One step -/

/-- What a step of the block can do. -/
inductive BlockOutcome (s : State) : State → Prop where
  /-- Nothing: IDLE, or a port that does not answer. -/
  | same (h : s.phase = .idle ∨ ((s.phase = .decode ∨ s.phase = .drain) ∧ s.env.port.answer = .waiting)) :
      BlockOutcome s s
  | raise (h : s.phase = .check) (code : Ecode) : BlockOutcome s (s.raiseError code)
  | checkInit (h : s.phase = .check) (hc : s.cmdl = 2) : BlockOutcome s (s.toPhase .init)
  | checkDecode (h : s.phase = .check) (hc : s.cmdl = 3) (hn : s.framePixels ≤ s.par.npixMax) :
      BlockOutcome s s.setNpix.toDecode
  | checkFrame (h : s.phase = .check) (hc : s.cmdl = 4) (hv : s.status.canvasValid = true)
      (hn : s.framePixels ≤ s.par.npixMax) : BlockOutcome s (s.setNpix.toPhase .dispose)
  | init (h : s.phase = .init) : BlockOutcome s s.initStep
  | disposeNothing (h : s.phase = .dispose) (hl : s.lastValid = false) : BlockOutcome s s.toDecode
  | disposeKeep (h : s.phase = .dispose) : BlockOutcome s s.copyCurToScr.toDecode
  | disposeFill (h : s.phase = .dispose) : BlockOutcome s (s.copyCurToScr.fillLast s.fillColor).toDecode
  | disposeRestore (h : s.phase = .dispose) : BlockOutcome s s.copyPrevToScr.toDecode
  | startTruncated (h : s.phase = .decode) (hs : s.started = false) :
      BlockOutcome s (s.clearDecoder.stopChain .truncated)
  | startBadMcs (h : s.phase = .decode) (hs : s.started = false) (b : Byte) (hb : s.env.port.answer = .byte b) :
      BlockOutcome s (s.clearDecoder.consumeByte.stop .badMcs)
  | start (h : s.phase = .decode) (hs : s.started = false) (b : Byte) (hb : s.env.port.answer = .byte b)
      (h12 : b.toNat < 12) : BlockOutcome s (s.clearDecoder.consumeByte.setCodeSize b)
  | stopCount (h : s.decoding = true) : BlockOutcome s (s.stop .count)
  | pop (h : s.decoding = true) (hp : s.dec.pi.toNat < s.dec.npix.toNat) (ht : 0 < s.dec.top.toNat) :
      BlockOutcome s s.pop
  | loadTruncated (h : s.decoding = true) : BlockOutcome s (s.stopChain .truncated)
  | loadEnd (h : s.decoding = true) (b : Byte) (hb : s.env.port.answer = .byte b) :
      BlockOutcome s (s.consumeByte.stopChain .dataEnd)
  | loadLength (h : s.decoding = true) (b : Byte) (hb : s.env.port.answer = .byte b) :
      BlockOutcome s (s.consumeByte.setSbcnt b)
  | loadData (h : s.decoding = true) (b : Byte) (hb : s.env.port.answer = .byte b)
      (hf : s.dec.bits.toNat < s.dec.csize.toNat) : BlockOutcome s (s.consumeByte.loadData b)
  | code (h : s.decoding = true) (ht : s.dec.top.toNat = 0) (hf : s.dec.csize.toNat ≤ s.dec.bits.toNat) (i : Instr)
      (hi : classify s.codeCtx s.codeOperand = i) (t : State) (ho : CodeOutcome s.takeCode i t) : BlockOutcome s t
  | zerofillDrain (h : s.phase = .zerofill) : BlockOutcome s s.zerofill.toDrain
  | zerofillPlace (h : s.phase = .zerofill) (hc : s.cmdl = 4) : BlockOutcome s (s.zerofill.toPhase .place)
  | zerofillComplete (h : s.phase = .zerofill) (hc : s.cmdl ≠ 4) : BlockOutcome s s.zerofill.complete
  | drainRest (h : s.phase = .drain) (b : Byte) (hb : s.env.port.answer = .byte b) :
      BlockOutcome s s.consumeByte.takeRest
  | drainCount (h : s.phase = .drain) (b : Byte) (hb : s.env.port.answer = .byte b) (n : Byte) :
      BlockOutcome s (s.consumeByte.setDrainLeft n)
  | drainPlace (h : s.phase = .drain) (b : Byte) (hb : s.env.port.answer = .byte b) (hc : s.cmdl = 4) :
      BlockOutcome s (s.consumeByte.endChain.toPhase .place)
  | drainComplete (h : s.phase = .drain) (b : Byte) (hb : s.env.port.answer = .byte b) (hc : s.cmdl ≠ 4) :
      BlockOutcome s s.consumeByte.endChain.complete
  | truncatedPlace (h : s.phase = .drain) (hc : s.cmdl = 4) : BlockOutcome s (s.endChain.markTruncated.toPhase .place)
  | truncatedComplete (h : s.phase = .drain) (hc : s.cmdl ≠ 4) : BlockOutcome s s.endChain.markTruncated.complete
  | place (h : s.phase = .place) : BlockOutcome s s.placeStep
  | commit (h : s.phase = .commit) : BlockOutcome s s.commitStep

theorem State.checkStep_outcome (s : State) (h : s.phase = .check) : BlockOutcome s s.checkStep := by
  unfold State.checkStep
  split
  · rename_i hc
    unfold State.checkCanvasInit
    split
    · exact .raise h _
    · exact .checkInit h hc
  split
  · rename_i hc
    unfold State.checkDecode
    split
    · exact .raise h _
    · exact .checkDecode h hc (Nat.not_lt.1 ‹_›)
  split
  · rename_i hc
    unfold State.checkFrame
    split
    · exact .raise h _
    split
    · exact .raise h _
    split
    · exact .raise h _
    · exact .checkFrame h hc (by simp_all) (Nat.not_lt.1 ‹_›)
  · exact .raise h _

theorem State.disposeStep_outcome {s t : State} (h : s.phase = .dispose) (ht : s.disposeStep = .next t) :
    BlockOutcome s t := by
  unfold State.disposeStep at ht
  split at ht
  · unfold decodeMethod at ht
    split at ht <;> cases ht
    · exact .disposeKeep h
    · exact .disposeKeep h
    · exact .disposeFill h
    · exact .disposeRestore h
    · exact .disposeKeep h
  · cases ht
    exact .disposeNothing h (by simp_all)

theorem State.decodeStart_outcome {s : State} (h : s.phase = .decode) (hs : s.started = false) :
    BlockOutcome s s.decodeStart := by
  unfold State.decodeStart
  split
  · exact .same (.inr ⟨.inl h, ‹_›⟩)
  · exact .startTruncated h hs
  · split
    · exact .startBadMcs h hs _ ‹_›
    · exact .start h hs _ ‹_› (Nat.not_le.1 ‹_›)

theorem State.load_outcome {s : State} (h : s.decoding = true) (hf : s.dec.bits.toNat < s.dec.csize.toNat) :
    BlockOutcome s s.load := by
  unfold State.load
  split
  · exact .same (.inr ⟨.inl (s.decoding_iff.1 h).1, ‹_›⟩)
  · exact .loadTruncated h
  · split
    · split
      · exact .loadEnd h _ ‹_›
      · exact .loadLength h _ ‹_›
    · exact .loadData h _ ‹_› hf

theorem State.drainStep_outcome {s : State} (h : s.phase = .drain) : BlockOutcome s s.drainStep := by
  unfold State.drainStep
  split
  · exact .same (.inr ⟨.inr h, ‹_›⟩)
  · unfold State.drainTruncated
    rcases State.afterDrain_cases s.endChain.markTruncated with ⟨hc, he⟩ | ⟨hc, he⟩ <;> rw [he]
    · exact .truncatedPlace h hc
    · exact .truncatedComplete h hc
  · unfold State.drainByte
    split
    · exact .drainRest h _ ‹_›
    split
    · exact .drainCount h _ ‹_› _
    split
    · rcases State.afterDrain_cases s.consumeByte.endChain with ⟨hc, he⟩ | ⟨hc, he⟩ <;> rw [he]
      · exact .drainPlace h _ ‹_› hc
      · exact .drainComplete h _ ‹_› hc
    · exact .drainCount h _ ‹_› _

/-- The inversion of one step of the block. -/
theorem State.blockStep_outcome {s t : State} (ht : s.blockStep = .next t) : BlockOutcome s t := by
  cases h : s.phase <;> simp only [State.blockStep, h, Host.Outcome.next.injEq] at ht
  · subst ht; exact .same (.inl h)
  · subst ht; exact s.checkStep_outcome h
  · subst ht; exact .init h
  · exact State.disposeStep_outcome h ht
  · cases hs : s.started
    · have := State.blockStep_start h hs
      rw [State.blockStep, h] at this
      simp only at this
      rw [this] at ht
      cases ht
      exact State.decodeStart_outcome h hs
    · have hd : s.decoding = true := s.decoding_iff.2 ⟨h, hs⟩
      have := State.blockStep_decoding hd
      rw [State.blockStep, h] at this
      simp only at this
      rw [this] at ht
      cases hsel : s.selection <;> rw [hsel] at ht <;> simp only at ht
      · cases ht; exact .stopCount hd
      · cases ht
        have := State.selection_pop.1 hsel
        exact .pop hd this.1 this.2
      · cases ht; exact State.load_outcome hd (State.selection_load.1 hsel).2.2
      · have := State.selection_code.1 hsel
        exact .code hd this.2.1 this.2.2 _ rfl t (State.codeStep_outcome ht)
  · subst ht
    unfold State.zerofillStep
    split
    · exact .zerofillDrain h
    · rcases s.zerofill.afterDrain_cases with ⟨hc, he⟩ | ⟨hc, he⟩ <;> rw [he]
      · exact .zerofillPlace h hc
      · exact .zerofillComplete h hc
  · subst ht; exact State.drainStep_outcome h
  · subst ht; exact .place h
  · subst ht; exact .commit h

end Sys2Proof.Machine
end

