-- ==== Sys2Proof/Laws/HostSteps.lean ====
section
/-! SUPPORT. Everything one operation of the host can do to the block (spec/20_memory.md R62, R69, R70, spec/42_commands.md R180),
said once. -/

namespace Sys2Proof.Machine

/-- What an access that starts no command leaves as it is: everything the block computes, and every table but for one
written entry. -/
structure State.Quiet (s t : State) : Prop where
  par : t.par = s.par
  phase : t.phase = s.phase
  cmdl : t.cmdl = s.cmdl
  drainl : t.drainl = s.drainl
  started : t.started = s.started
  drainLeft : t.drainLeft = s.drainLeft
  dec : t.dec = s.dec
  pixCount : t.pixCount = s.pixCount
  bytesIn : t.bytesIn = s.bytesIn
  canvasValid : t.status.canvasValid = s.status.canvasValid
  term : t.status.term = s.status.term
  ecode : t.status.ecode = s.status.ecode
  dtrunc : t.status.dtrunc = s.status.dtrunc
  activeSize : t.activeSize = s.activeSize
  lastPos : t.lastPos = s.lastPos
  lastSize : t.lastSize = s.lastSize
  lastDispose : t.lastDispose = s.lastDispose
  lastValid : t.lastValid = s.lastValid
  frameCount : t.frameCount = s.frameCount
  prefixMem : t.prefixMem = s.prefixMem
  suffixMem : t.suffixMem = s.suffixMem
  stack : t.stack = s.stack
  ibuf : t.ibuf = s.ibuf
  cur : t.cur = s.cur
  prev : t.prev = s.prev
  scr : t.scr = s.scr
  gct : t.gct = s.gct ∨ ∃ (i : Byte) (v : Word), t.gct = writeMem s.gct i.toNat v
  lct : t.lct = s.lct ∨ ∃ (i : Byte) (v : Word), t.lct = writeMem s.lct i.toNat v

/-- An update of what stands outside the block, of STATUS.DONE, ERR and BWERR, and of registers only the host writes. -/
theorem State.Quiet.of_env (s : State) (e : Env) : s.Quiet { s with env := e } := by
  constructor <;> first | rfl | exact .inl rfl

theorem State.Quiet.setBwerr (s : State) : s.Quiet s.setBwerr := by
  constructor <;> first | rfl | exact .inl rfl

theorem State.Quiet.w1cStatus (s : State) (v : Word) : s.Quiet (s.w1cStatus v) := by
  constructor <;> first | rfl | exact .inl rfl

theorem State.Quiet.storeWord (s : State) (w : PortWord) (v : Word) : s.Quiet (s.storeWord w v) := by
  cases w
  case gct i => constructor <;> first | rfl | exact .inl rfl | exact .inr ⟨i, v, rfl⟩
  case lct i => constructor <;> first | rfl | exact .inl rfl | exact .inr ⟨i, v, rfl⟩
  all_goals constructor <;> first | rfl | exact .inl rfl

theorem State.Quiet.writeWord (s : State) (w : PortWord) (v : Word) : s.Quiet (s.writeWord w v) := by
  unfold State.writeWord
  split
  · exact .w1cStatus s v
  split
  · exact .setBwerr s
  · exact .storeWord s w v

theorem State.Quiet.readWord (s : State) (w : PortWord) : s.Quiet (s.readWord w) := by
  unfold State.readWord
  split
  · exact .of_env s _
  · cases w <;> constructor <;> first | rfl | exact .inl rfl

theorem State.Quiet.hostRead (s : State) (addr : Nat) : s.Quiet (s.hostRead addr) := by
  unfold State.hostRead
  split
  · exact .readWord s _
  · exact .of_env s _

theorem State.Quiet.sameBlock {s t : State} (h : s.Quiet t) : s.sameBlock t := by
  refine ⟨h.phase, h.cmdl, h.drainl, h.started, h.drainLeft, h.dec, h.pixCount, h.bytesIn, h.term, h.ecode,
    h.canvasValid, h.dtrunc, ⟨h.activeSize, h.lastPos, h.lastSize, h.lastDispose, h.lastValid, h.frameCount⟩,
    ⟨fun i => ?_, fun i => ?_, fun i => ?_⟩, ⟨⟨fun i => ?_, fun i => ?_⟩, fun i => ?_, fun i => ?_⟩⟩
  · rw [h.cur]
  · rw [h.prev]
  · rw [h.scr]
  · rw [h.prefixMem]
  · rw [h.suffixMem]
  · rw [h.stack]
  · rw [h.ibuf]

/-- What an operation of the host can do. -/
inductive HostOutcome (s : State) : State → Prop where
  | quiet (t : State) (h : s.Quiet t) : HostOutcome s t
  | reset (ops : List HostOp) : HostOutcome s (s.setQueue ops).afterReset
  | accept (ops : List HostOp) (cmd : BitVec 4) (drain : Bool) (hi : s.phase = .idle) (hc : 2 ≤ cmd.toNat) :
      HostOutcome s ((s.setQueue ops).accept cmd drain)

theorem State.request_outcome (s : State) (ops : List HostOp) (cmd : BitVec 4) (drain : Bool) (hc : 2 ≤ cmd.toNat) :
    HostOutcome s ((s.setQueue ops).request cmd drain) := by
  unfold State.request
  split
  · refine .quiet _ ?_
    constructor <;> first | rfl | exact .inl rfl
  · rename_i h
    refine .accept ops cmd drain ?_ hc
    rw [Bool.not_eq_true, State.busy_eq_false] at h
    exact h

theorem State.ctrl_outcome (s t : State) (ops : List HostOp) (v : Word)
    (h : exec (decodeCtrl v) (s.setQueue ops) = .next t) : HostOutcome s t := by
  unfold decodeCtrl at h
  simp only at h
  split at h <;> cases h
  · split
    · refine .quiet _ ?_
      constructor <;> first | rfl | exact .inl rfl
    · exact .quiet _ (.of_env s _)
  · exact .reset ops
  all_goals exact s.request_outcome ops _ _ (by decide)

theorem State.Quiet.trans_env {s t : State} {ops : List HostOp} (h : (s.setQueue ops).Quiet t) : s.Quiet t :=
  ⟨h.par, h.phase, h.cmdl, h.drainl, h.started, h.drainLeft, h.dec, h.pixCount, h.bytesIn, h.canvasValid, h.term,
    h.ecode, h.dtrunc, h.activeSize,
    h.lastPos, h.lastSize, h.lastDispose, h.lastValid, h.frameCount, h.prefixMem, h.suffixMem, h.stack, h.ibuf, h.cur, h.prev,
    h.scr, h.gct, h.lct⟩

/-- The inversion of one operation of the host that writes no CTRL word. -/
theorem State.hostStep_quiet {s t : State}
    (hq : ∀ addr v ops, s.env.queue = .write addr v :: ops → portWord s.par addr ≠ some .ctrl)
    (h : s.hostStep = .next t) : s.Quiet t := by
  unfold State.hostStep at h
  split at h
  · cases h; exact .of_env s s.env
  · rename_i addr v ops he
    have hne := hq addr v ops he
    unfold State.hostWrite at h
    split at h
    · exact absurd ‹_› hne
    · cases h; exact (State.Quiet.writeWord _ _ v).trans_env
    · cases h; exact .of_env s _
  · cases h; exact (State.Quiet.hostRead _ _).trans_env
  · split at h <;> cases h
    · exact .of_env s s.env
    · exact .of_env s _
  · cases h; exact .of_env s _
  · cases h; exact .of_env s _

/-- The inversion of one operation of the host. -/
theorem State.hostStep_outcome {s t : State} (h : s.hostStep = .next t) : HostOutcome s t := by
  by_cases hq : ∀ addr v ops, s.env.queue = .write addr v :: ops → portWord s.par addr ≠ some .ctrl
  · exact .quiet t (State.hostStep_quiet hq h)
  · simp only [not_forall, not_not] at hq
    obtain ⟨addr, v, ops, he, hp⟩ := hq
    unfold State.hostStep at h
    rw [he] at h
    simp only at h
    unfold State.hostWrite at h
    have : portWord (s.setQueue ops).par addr = some .ctrl := hp
    rw [this] at h
    exact s.ctrl_outcome t ops v h

/-- The inversion of one step of the run: the turn is used up, and the block or the host has moved. -/
theorem step_outcome {s t : State} (h : step s = .next t) : BlockOutcome s.takeTurn t ∨ HostOutcome s.takeTurn t := by
  unfold step State.agentStep at h
  split at h
  · exact .inr (State.hostStep_outcome h)
  · exact .inl (State.blockStep_outcome h)

end Sys2Proof.Machine
end

