-- ==== Sys2Proof/Laws/PerInstr.lean ====
section
/-! SUPPORT. Laws about instructions as syntax, one lemma for each constructor. -/

namespace Sys2Proof.Laws.OneFormat

/-- The two formats are of the same kind: both the CTRL word, both a code, or both a DISPOSE method. -/
def sameKind : Format → Format → Bool
  | .ctrl, .ctrl | .code _, .code _ | .dispose, .dispose => true
  | .ctrl, .code _ | .ctrl, .dispose | .code _, .ctrl | .code _, .dispose | .dispose, .ctrl | .dispose, .code _ => false

/-- No instruction belongs to two of the three encodings (30_encoding.md R80). -/
def Statement (i : Instr) : Prop :=
  ∀ f g : Format, i.wfIn f = true → i.wfIn g = true → sameKind f g = true

/-- Each encoding claims its own instructions only. -/
theorem of_flags {i : Instr} (h : ∀ ctx, (i.isCtrl && i.isDispose || i.isCtrl && i.isCode ctx ||
    i.isDispose && i.isCode ctx) = false) : Statement i := by
  intro f g hf hg
  have := h ⟨0, 0, 0, 0, none⟩
  cases f <;> cases g <;> simp_all [sameKind, Instr.wfIn]

theorem badcode (code : Code) : Statement (.badcode code) :=
  of_flags fun _ => rfl

theorem eoi : Statement .eoi :=
  of_flags fun _ => rfl

theorem clear : Statement .clear :=
  of_flags fun _ => rfl

theorem first (code : Code) : Statement (.first code) :=
  of_flags fun _ => rfl

theorem dictfull (code : Code) : Statement (.dictfull code) :=
  of_flags fun _ => rfl

theorem kwkwk (code : Code) : Statement (.kwkwk code) :=
  of_flags fun _ => rfl

theorem literal (code : Code) : Statement (.literal code) :=
  of_flags fun _ => rfl

theorem dict (code : Code) : Statement (.dict code) :=
  of_flags fun _ => rfl

theorem nop : Statement .nop :=
  of_flags fun _ => rfl

theorem reset : Statement .reset :=
  of_flags fun _ => rfl

theorem canvasInit (drain : Bool) : Statement (.canvasInit drain) :=
  of_flags fun _ => rfl

theorem decode (drain : Bool) : Statement (.decode drain) :=
  of_flags fun _ => rfl

theorem frame (drain : Bool) : Statement (.frame drain) :=
  of_flags fun _ => rfl

theorem reservedCmd5 (drain : Bool) : Statement (.reservedCmd5 drain) :=
  of_flags fun _ => rfl

theorem reservedCmd6 (drain : Bool) : Statement (.reservedCmd6 drain) :=
  of_flags fun _ => rfl

theorem reservedCmd7 (drain : Bool) : Statement (.reservedCmd7 drain) :=
  of_flags fun _ => rfl

theorem reservedCmd8 (drain : Bool) : Statement (.reservedCmd8 drain) :=
  of_flags fun _ => rfl

theorem reservedCmd9 (drain : Bool) : Statement (.reservedCmd9 drain) :=
  of_flags fun _ => rfl

theorem reservedCmd10 (drain : Bool) : Statement (.reservedCmd10 drain) :=
  of_flags fun _ => rfl

theorem reservedCmd11 (drain : Bool) : Statement (.reservedCmd11 drain) :=
  of_flags fun _ => rfl

theorem reservedCmd12 (drain : Bool) : Statement (.reservedCmd12 drain) :=
  of_flags fun _ => rfl

theorem reservedCmd13 (drain : Bool) : Statement (.reservedCmd13 drain) :=
  of_flags fun _ => rfl

theorem reservedCmd14 (drain : Bool) : Statement (.reservedCmd14 drain) :=
  of_flags fun _ => rfl

theorem reservedCmd15 (drain : Bool) : Statement (.reservedCmd15 drain) :=
  of_flags fun _ => rfl

theorem disposeUnspecified : Statement .disposeUnspecified :=
  of_flags fun _ => rfl

theorem disposeNone : Statement .disposeNone :=
  of_flags fun _ => rfl

theorem disposeBackground : Statement .disposeBackground :=
  of_flags fun _ => rfl

theorem disposePrevious : Statement .disposePrevious :=
  of_flags fun _ => rfl

theorem disposeReserved (method : BitVec 3) : Statement (.disposeReserved method) :=
  of_flags fun _ => by simp [Instr.isCtrl, Instr.isCode]

end Sys2Proof.Laws.OneFormat
end

