-- ==== Sys2Proof/Tests/Slice0.lean ====
section
/-! SUPPORT. Tests: ill-formed terms are refused, words written out from the spec's encodings decode to what they stand
for, single steps give the values of spec/95_test_vectors.md, and each statement with hypotheses has a state
that meets them. -/

namespace Sys2Proof.Tests

open Sys2Proof Sys2Proof.Machine

/-! ### WellFormed refuses ill-formed terms -/

/-- Registers after a first code at MCS 2 (30_encoding.md R94: CLEAR 4, EOI 5, AVAIL 6, CSIZE 3). -/
def ctx2 : CodeCtx := ⟨3, 4, 5, 6, some 1⟩

/-- The same before the first code. -/
def ctx2null : CodeCtx := ⟨3, 4, 5, 6, none⟩

/-- The same with entry 6 added, so AVAIL = 7. -/
def ctx2seven : CodeCtx := ⟨3, 4, 5, 7, some 6⟩

/-- A full dictionary at MCS 2 (R94: width 12). -/
def ctx2full : CodeCtx := ⟨12, 4, 5, 4096, some 1⟩

theorem test_wf_method : Instr.wf (.disposeReserved 3) = false ∧ Instr.wf (.disposeReserved 4) = true := by decide

theorem test_wf_format : Instr.wfIn .nop .dispose = false ∧ Instr.wfIn .disposeNone .ctrl = false ∧
    Instr.wfIn .eoi .ctrl = false ∧ Instr.wfIn .nop (.code ctx2) = false := by decide

theorem test_wf_context : ctx2.legal = true ∧ CodeCtx.legal ⟨3, 4, 6, 7, none⟩ = false ∧
    CodeCtx.legal ⟨3, 4, 5, 5, none⟩ = false ∧ CodeCtx.legal ⟨12, 4, 5, 4097, none⟩ = false ∧
    CodeCtx.legal ⟨0, 4, 5, 6, none⟩ = false ∧ CodeCtx.legal ⟨13, 4, 5, 6, none⟩ = false := by decide

theorem test_wf_too_wide : Instr.wfIn (.badcode 8) (.code ctx2) = false ∧
    Instr.wfIn (.badcode 7) (.code ctx2) = true := by decide

theorem test_wf_badcode : Instr.wfIn (.badcode 6) (.code ctx2) = false := by decide

theorem test_wf_first : Instr.wfIn (.first 1) (.code ctx2) = false ∧ Instr.wfIn (.first 4) (.code ctx2null) = false ∧
    Instr.wfIn (.first 5) (.code ctx2null) = false ∧ Instr.wfIn (.first 7) (.code ctx2null) = false := by decide

theorem test_wf_dictfull : Instr.wfIn (.dictfull 1) (.code ctx2) = false ∧
    Instr.wfIn (.dictfull 1) (.code ctx2full) = true ∧ Instr.wfIn (.dictfull 5) (.code ctx2full) = false := by decide

theorem test_wf_kwkwk : Instr.wfIn (.kwkwk 5) (.code ctx2) = false ∧ Instr.wfIn (.kwkwk 6) (.code ctx2null) = false ∧
    Instr.wfIn (.kwkwk 1) (.code ctx2full) = false := by decide

theorem test_wf_literal : Instr.wfIn (.literal 4) (.code ctx2) = false ∧ Instr.wfIn (.literal 1) (.code ctx2null) = false ∧
    Instr.wfIn (.literal 1) (.code ctx2full) = false := by decide

theorem test_wf_dict : Instr.wfIn (.dict 5) (.code ctx2seven) = false ∧ Instr.wfIn (.dict 7) (.code ctx2seven) = false ∧
    Instr.wfIn (.dict 6) (.code ctx2null) = false ∧ Instr.wfIn (.dict 6) (.code ctx2full) = false := by decide

/-! ### Decoding: bits written out from 30_encoding.md R90, R91 and R86 -/

theorem test_decode_badcode : decode (.code ctx2) 0b111#32 = .ok (.badcode 7) := by decide
theorem test_decode_eoi : decode (.code ctx2) 0b101#32 = .ok .eoi := by decide
theorem test_decode_clear : decode (.code ctx2) 0b100#32 = .ok .clear := by decide
theorem test_decode_first : decode (.code ctx2null) 0b001#32 = .ok (.first 1) := by decide
theorem test_decode_dictfull : decode (.code ctx2full) 0b000000000110#32 = .ok (.dictfull 6) := by decide
theorem test_decode_kwkwk : decode (.code ctx2) 0b110#32 = .ok (.kwkwk 6) := by decide
theorem test_decode_literal : decode (.code ctx2) 0b010#32 = .ok (.literal 2) := by decide
theorem test_decode_dict : decode (.code ctx2seven) 0b110#32 = .ok (.dict 6) := by decide
theorem test_decode_code_too_wide : decode (.code ctx2) 0b1000#32 = .error .codeTooWide := by decide
theorem test_decode_nop : decode .ctrl 0b10000#32 = .ok .nop := by decide
theorem test_decode_reset : decode .ctrl 0b00001#32 = .ok .reset := by decide
theorem test_decode_canvas_init : decode .ctrl 0b00010#32 = .ok (.canvasInit false) := by decide
theorem test_decode_decode : decode .ctrl 0b10011#32 = .ok (.decode true) := by decide
theorem test_decode_frame : decode .ctrl 0b00100#32 = .ok (.frame false) := by decide
theorem test_decode_reserved_cmd_5 : decode .ctrl 0b00101#32 = .ok (.reservedCmd5 false) := by decide
theorem test_decode_reserved_cmd_6 : decode .ctrl 0b00110#32 = .ok (.reservedCmd6 false) := by decide
theorem test_decode_reserved_cmd_7 : decode .ctrl 0b00111#32 = .ok (.reservedCmd7 false) := by decide
theorem test_decode_reserved_cmd_8 : decode .ctrl 0b01000#32 = .ok (.reservedCmd8 false) := by decide
theorem test_decode_reserved_cmd_9 : decode .ctrl 0b01001#32 = .ok (.reservedCmd9 false) := by decide
theorem test_decode_reserved_cmd_10 : decode .ctrl 0b01010#32 = .ok (.reservedCmd10 false) := by decide
theorem test_decode_reserved_cmd_11 : decode .ctrl 0b01011#32 = .ok (.reservedCmd11 false) := by decide
theorem test_decode_reserved_cmd_12 : decode .ctrl 0b01100#32 = .ok (.reservedCmd12 false) := by decide
theorem test_decode_reserved_cmd_13 : decode .ctrl 0b01101#32 = .ok (.reservedCmd13 false) := by decide
theorem test_decode_reserved_cmd_14 : decode .ctrl 0b01110#32 = .ok (.reservedCmd14 false) := by decide
theorem test_decode_reserved_cmd_15 : decode .ctrl 0b11111#32 = .ok (.reservedCmd15 true) := by decide
theorem test_decode_high_bits : decode .ctrl 0xFFFFFFE4#32 = .ok (.frame false) := by decide
theorem test_decode_dispose_unspecified : decode .dispose 0b000#32 = .ok .disposeUnspecified := by decide
theorem test_decode_dispose_none : decode .dispose 0b001#32 = .ok .disposeNone := by decide
theorem test_decode_dispose_background : decode .dispose 0b010#32 = .ok .disposeBackground := by decide
theorem test_decode_dispose_previous : decode .dispose 0b011#32 = .ok .disposePrevious := by decide
theorem test_decode_dispose_reserved : decode .dispose 0b100#32 = .ok (.disposeReserved 4) := by decide
theorem test_decode_method_too_wide : decode .dispose 0b1000#32 = .error .methodTooWide := by decide

/-! ### States -/

/-- What the next state holds, if the answer is one. -/
def after {α : Type} (r : Result) (f : State → α) : Option α :=
  match r with
  | .next t => some (f t)
  | .fault _ => none
  | .refused _ => none

/-- Power-on with the instance's parameters written out. -/
def idle : State :=
  { State.reset with par := { base := 0x1000, maxW := 4096, maxH := 4096, npixMax := 65536, irqLine := 3 } }

/-- The decoder of V-LZW-1 after its code #2 (95_test_vectors.md 2.2), the pixel popped: AVAIL 6, CSIZE 3, OLD 1,
NPIX 20. -/
def decoder1 : Decoder :=
  { Decoder.reset with
    mcs := 2, clear := 4, eoi := 5, csize := 3, cmask := 7, avail := 6, old := some 1, first := 1, pi := 1, npix := 20 }

/-- The block there. -/
def lzw : State :=
  { idle with phase := .decode, started := true, cmdl := 3, dec := decoder1, suffixMem := [(1, 1), (2, 2), (3, 3)] }

/-- The block after V-LZW-1's code #3: entry 6 = (1, 1), AVAIL 7, OLD 6. -/
def lzw7 : State :=
  { lzw with
    dec := { decoder1 with avail := 7, old := some 6 }
    prefixMem := [(6, 1)], suffixMem := [(1, 1), (2, 2), (3, 3), (6, 1)] }

/-- The block after V-LZW-1's code #4: entry 7 = (6, 1), AVAIL 8, CSIZE 4. -/
def lzw8 : State :=
  { lzw7 with
    dec := { decoder1 with avail := 8, old := some 6, csize := 4, cmask := 15 }
    prefixMem := [(6, 1), (7, 6)], suffixMem := [(1, 1), (2, 2), (3, 3), (6, 1), (7, 1)] }

/-- The self-loop of V-LZW-10: entry 6 = (6, 1), AVAIL 7. -/
def loop6 : State :=
  { lzw7 with prefixMem := [(6, 6)] }

/-- The colors of 95_test_vectors.md. -/
def colA : Word := 0xFFFF0000#32
def colB : Word := 0xFF00FF00#32
def colG : Word := 0xFF0000FF#32

/-- A canvas of `w` by `h` on which FRAME runs, with the color table of 95_test_vectors.md 2.4. -/
def canvas (w h : BitVec 16) : State :=
  { idle with
    cmdl := 4, activeSize := ⟨w, h⟩, status := { Status.reset with canvasValid := true }
    bgcolor := colG, gctPresent := true, gct := [(1, colA), (2, colB), (3, colG)] }

/-- A 2 by 1 canvas of A, PREV of B, on which the last frame took the right pixel. -/
def disposing : State :=
  { canvas 2 1 with
    phase := .dispose, cur := [(0, colA), (1, colA)], prev := [(0, colB), (1, colB)]
    lastPos := ⟨1, 0⟩, lastSize := ⟨1, 1⟩, lastDispose := 2, lastValid := true }

/-- The frame of V-CMP-6 at PLACE: 1 by 5, interlaced, indices 1 2 3 1 2. -/
def placing : State :=
  { canvas 1 5 with
    phase := .place, frameSize := ⟨1, 5⟩, frameCtrl := ⟨1, false, true, false, 0⟩
    ibuf := [(0, 1), (1, 2), (2, 3), (3, 1), (4, 2)] }

/-- A DECODE or FRAME at CHECK with a frame of 256 by `h`. -/
def checking (cmd : BitVec 4) (h : BitVec 16) : State :=
  { canvas 4 2 with phase := .check, cmdl := cmd, frameSize := ⟨256, h⟩ }

/-- A port that will answer the bytes, and then `e`. -/
def withPort (bytes : List Byte) (e : PortEnd) (s : State) : State :=
  { s with env := { s.env with port := { buf := bytes, pos := 0, atEnd := e } } }

/-- The block at its DRAIN phase. -/
def draining (cmd : BitVec 4) (sbcnt left : Byte) : State :=
  { lzw with phase := .drain, cmdl := cmd, drainl := true, drainLeft := left, dec := { decoder1 with sbcnt := sbcnt } }

/-! ### Single steps of the code classes (95_test_vectors.md 2.1, 2.2) -/

/-- V-LZW-2: TERM BAD_CODE, PIX_COUNT 1; STATUS 0x136 without DONE and ERR, while BUSY. -/
theorem test_badcode : after (exec (.badcode 7) lzw) (fun t => (t.statusWord, t.pixCount, t.phase)) =
    some (0x131#32, 1, .zerofill) := by decide

/-- V-LZW-3: TERM EOI is no error. -/
theorem test_eoi : after (exec .eoi lzw) (fun t => (t.statusWord, t.pixCount)) = some (0x011#32, 1) := by decide

/-- V-LZW-4: after the second CLR, LZW_STATE is that of the start, 0x632. -/
theorem test_clear : after (exec .clear lzw8) (fun t => (t.lzwStateWord, t.dec.cmask, t.dec.old)) =
    some (0x632#32, 7, none) := by decide

/-- Trace line 2. -/
theorem test_first : after (exec (.first 1) { lzw with dec := { decoder1 with old := none, first := 0 } })
    (fun t => (t.stack, t.dec.top, t.dec.old, t.dec.first, t.dec.avail)) = some ([(0, 1)], 1, some 1, 1, 6) := by decide

/-- 2.3: DICT_FULL with ECODE LZW_FORMAT. -/
theorem test_dictfull : after (exec (.dictfull 0) lzw) (fun t => t.statusWord) = some 0x141#32 := by decide

/-- Trace line 3: output 1 1, entry 6 = (1, 1). -/
theorem test_kwkwk : after (exec (.kwkwk 6) lzw)
    (fun t => (t.stack, readMem t.prefixMem 6, readMem t.suffixMem 6, t.lzwStateWord, t.dec.old)) =
    some ([(0, 1), (1, 1)], 1, 1, 0x732#32, some 6) := by decide

/-- Trace line 5: output 2, entry 8 = (6, 2), AVAIL 9. -/
theorem test_literal : after (exec (.literal 2) lzw8)
    (fun t => (t.stack, readMem t.prefixMem 8, readMem t.suffixMem 8, t.lzwStateWord, t.dec.old)) =
    some ([(0, 2)], 6, 2, 0x942#32, some 2) := by decide

/-- Trace line 4: output 1 1, entry 7 = (6, 1), and the width grows to 4. -/
theorem test_dict : after (exec (.dict 6) lzw7)
    (fun t => (t.stack, readMem t.prefixMem 7, readMem t.suffixMem 7, t.lzwStateWord, t.dec.cmask)) =
    some ([(0, 1), (1, 1)], 6, 1, 0x842#32, 15) := by decide

/-- A CODE step at the first data byte of V-LZW-1, 0x8c: its low 3 bits are CLR, and 0b10001 is left. -/
theorem test_code_step : after
    (State.blockStep { lzw with dec := { decoder1 with datum := 0x8c, bits := 8, avail := 9, old := none } })
    (fun t => (t.dec.datum, t.dec.bits, t.dec.avail)) = some (0x11, 5, 6) := by decide

/-- LOAD: data byte 0x2d enters above the 2 bits left of 0x8c (notes on V-LZW-1: the third code is 110b). -/
theorem test_load : after
    (State.blockStep (withPort [0x2d] .err { lzw with dec := { decoder1 with datum := 0b10, bits := 2, sbcnt := 5 } }))
    (fun t => (t.codeOperand, t.dec.bits, t.dec.sbcnt, t.bytesIn)) = some (0b110, 10, 4, 1) := by decide

/-- U13: past its last byte a port that ends in a cycle answers 8, 9, 8. -/
theorem test_endless_port : [1, 2, 3].map (fun k => (InPort.mk [7] k (.cycle 8 [9])).answer) =
    [.byte 8, .byte 9, .byte 8] := by decide

/-- R51: decode start re-initialises FIRST and INCODE. -/
theorem test_decode_start_clears : after
    (State.blockStep (withPort [0x02] .err { lzw with started := false, dec := { decoder1 with incode := 6 } }))
    (fun t => (t.dec.first, t.dec.incode, t.dec.old)) = some (0, 0, none) := by decide

/-- Decode start at MCS 11 (V-LZW-18): CLEAR 2048, EOI 2049, AVAIL 2050, width 12. -/
theorem test_decode_start : after
    (State.blockStep (withPort [0x0b] .err { idle with phase := .decode, cmdl := 3, dec := { Decoder.reset with npix := 1 } }))
    (fun t => (t.lzwStateWord, t.dec.clear, t.dec.eoi, t.dec.cmask)) = some (0x802CB#32, 2048, 2049, 0xFFF) := by decide

/-! ### Single steps of the commands (95_test_vectors.md 2.5) -/

/-- V-CMD-12: NOP with DRAIN on STATUS 0x10F2 changes nothing. -/
theorem test_nop : after (State.hostWrite 0x1000 0x10#32 { canvas 4 2 with status := { (canvas 4 2).status with done := true } })
    (fun t => t.statusWord) = some 0x10F2#32 := by decide

/-- V-CMD-15: RESET while a FRAME is in CHECK. -/
theorem test_reset : after (exec .reset { checking 4 1 with status := { Status.reset with bwerr := true } })
    (fun t => (t.statusWord, t.activeSize, t.gct, t.par)) = some (0xF0#32, ⟨0, 0⟩, [], idle.par) := by decide

/-- V-CMD-2, the second step: STATUS 0x10F2, ACTIVE_SIZE 4 by 2. -/
theorem test_canvas_init : after (State.blockStep { idle with phase := .init, cmdl := 2, canvasSize := ⟨4, 2⟩, frameCount := 7 })
    (fun t => (t.statusWord, t.activeSize, t.frameCount)) = some (0x10F2#32, ⟨4, 2⟩, 0) := by decide

/-- V-CMD-5: W_REQ = 4097. -/
theorem test_canvas_init_too_wide : after (State.blockStep { idle with phase := .check, cmdl := 2, canvasSize := ⟨0x1001, 1⟩ })
    (fun t => t.statusWord) = some 0x6F6#32 := by decide

/-- R26: a command's start clears the status of the last one; BUSY. -/
theorem test_decode : after (exec (.decode true) { idle with status := ⟨true, true, false, .badCode, .lzwFormat, false, true⟩, bytesIn := 9 })
    (fun t => (t.statusWord, t.bytesIn, t.cmdl, t.drainl)) = some (0xF1#32, 0, 3, true) := by decide

/-- V-CMD-11: 256 by 257 pixels; V-CMD-10: MISSING_CT wins. -/
theorem test_frame_too_large : after (State.blockStep (checking 4 257)) (fun t => t.statusWord) = some 0x14F6#32 ∧
    after (State.blockStep { checking 4 257 with gctPresent := false }) (fun t => t.statusWord) = some 0x13F6#32 := by decide

/-- V-CMD-14: CTRL written in CHECK sets BWERR. -/
theorem test_frame_busy : after (exec (.frame false) (checking 4 1)) (fun t => (t.statusWord, t.phase)) =
    some (0x10F9#32, .check) := by decide

theorem test_reserved_cmds : [Instr.reservedCmd5 false, .reservedCmd6 false, .reservedCmd7 false, .reservedCmd8 false,
    .reservedCmd9 false, .reservedCmd10 false, .reservedCmd11 false, .reservedCmd12 false, .reservedCmd13 false,
    .reservedCmd14 false, .reservedCmd15 false].map (fun i => after (exec i idle) (fun t => (t.cmdl.toNat, t.phase))) =
    [5, 6, 7, 8, 9, 10, 11, 12, 13, 14, 15].map (fun n => some (n, Phase.check)) := by decide

/-- V-CMD-6: CMD 7 completes with BAD_COMMAND. -/
theorem test_reserved_cmd_completes : after (State.blockStep { idle with phase := .check, cmdl := 7 })
    (fun t => t.statusWord) = some 0x7F6#32 := by decide

/-- V-CMD-13: only DONE, ERR and BWERR are cleared. -/
theorem test_status_write : after (State.hostWrite 0x1004 0xFFFFFFFF#32 { canvas 4 2 with status := { (canvas 4 2).status with done := true } })
    (fun t => t.statusWord) = some 0x10F0#32 := by decide

/-- V-CMD-1: STATUS, ID and a reserved offset. -/
theorem test_reads : (idle.hostRead 0x1004).env.reads = [0xF0#32] ∧ (idle.hostRead 0x1058).env.reads = [0x4C5A5701#32] ∧
    (idle.hostRead 0x105C).env.reads = [0#32] := by decide

/-- V-CMD-16: `irq` rises when DONE_IE is written with DONE pending. -/
theorem test_irq : after (State.hostWrite 0x1008 1#32 { idle with status := { Status.reset with done := true } })
    (fun t => (t.irq, t.irqLine 3, t.irqLine 0)) = some (true, true, false) := by decide

/-! ### Single steps of the compositor (95_test_vectors.md 2.4) -/

/-- As W5: method 0 keeps the canvas. -/
theorem test_dispose_unspecified : after (exec .disposeUnspecified disposing) (fun t => t.scr) =
    some [(0, colA), (1, colA)] := by decide

theorem test_dispose_none : after (exec .disposeNone disposing) (fun t => t.scr) = some [(0, colA), (1, colA)] := by decide

/-- V-CMP-10: a reserved method acts as none. -/
theorem test_dispose_reserved : after (exec (.disposeReserved 5) disposing) (fun t => t.scr) =
    some [(0, colA), (1, colA)] := by decide

/-- R152: the last rectangle is filled with BGCOLOR, clipped to the canvas (R153). -/
theorem test_dispose_background : after (exec .disposeBackground { disposing with lastSize := ⟨9, 9⟩ }) (fun t => t.scr) =
    some [(0, colA), (1, colG)] := by decide

/-- As V-CMP-7c: a frame with transparency leaves the hole 0. -/
theorem test_dispose_background_transparent :
    after (exec .disposeBackground { disposing with frameCtrl := ⟨1, true, false, false, 0⟩ }) (fun t => t.scr) =
    some [(0, colA)] := by decide

theorem test_dispose_previous : after (exec .disposePrevious disposing) (fun t => t.scr) =
    some [(0, colB), (1, colB)] := by decide

/-- W3: ILORDER(10). -/
theorem test_ilorder : ilorder 10 = [0, 8, 4, 2, 6, 1, 3, 5, 7, 9] := by decide

/-- V-CMP-6: A A G B B. -/
theorem test_place_interlaced : after placing.blockStep (fun t => t.scr) =
    some [(0, colA), (1, colA), (2, colG), (3, colB), (4, colB)] := by decide

/-- V-CMP-5b: index 4 maps to 0 and draws nothing, although TRANSP = 0. -/
theorem test_place_zero_color : after
    (State.blockStep { canvas 4 1 with
      phase := .place, frameSize := ⟨4, 1⟩, scr := [(0, colA), (1, colA), (2, colA), (3, colA)]
      ibuf := [(0, 4), (1, 2), (2, 4), (3, 2)] })
    (fun t => t.scr) = some [(0, colA), (1, colB), (2, colA), (3, colB)] := by decide

/-- V-CMP-4: only (3,1) of the frame lies on the canvas. -/
theorem test_place_clipped : after
    (State.blockStep { canvas 4 2 with
      phase := .place, framePos := ⟨3, 1⟩, frameSize := ⟨2, 2⟩, ibuf := [(0, 1), (1, 2), (2, 3), (3, 1)] })
    (fun t => t.scr) = some [(7, colA)] := by decide

/-! ### Words placed for the host -/

theorem test_table_word : decodeTableWord 8 0x13 = some (.decode true) ∧ decodeTableWord 8 0x0F = some (.reservedCmd15 false) := by
  decide

theorem test_fetch_word : after (step (State.reset.withFetchWord 8 0x13)) (fun t => (t.cmdl, t.drainl, t.phase)) =
    some (3, true, .check) := by decide

/-! ### Each statement with hypotheses: states and operands that meet them, at the boundary of each clause -/

theorem witness_DecodeInvertsEncode : Instr.wfIn (.frame true) .ctrl = true ∧
    Instr.wfIn (.dict 6) (.code ctx2seven) = true ∧ Instr.wfIn (.disposeReserved 7) .dispose = true := by decide

/-- The clauses in order: AVAIL + 1; EOI; CLEAR; the first code; a full dictionary; AVAIL; CLEAR - 1; CLEAR + 2 and
AVAIL - 1. -/
theorem witness_CodeClassFollowsTheTable :
    ctx2.legal = true ∧ ctx2null.legal = true ∧ ctx2seven.legal = true ∧ ctx2full.legal = true ∧
    classify ctx2 7 = .badcode 7 ∧ classify ctx2 5 = .eoi ∧ classify ctx2 4 = .clear ∧
    classify ctx2null 6 = .first 6 ∧ classify ctx2full 0xFFF = .dictfull 0xFFF ∧ classify ctx2 6 = .kwkwk 6 ∧
    classify ctx2 3 = .literal 3 ∧ classify ctx2seven 6 = .dict 6 ∧ classify ⟨4, 4, 5, 9, some 1⟩ 8 = .dict 8 := by decide

theorem witness_EncodeInvertsClassify : ctx2.legal = true ∧ ctx2.fits (7#12).toNat = true := by decide

theorem witness_CtrlWordIgnoresItsHighBits :
    (0xFFFFFFE1#32).extractLsb' 0 4 = (0x1#32).extractLsb' 0 4 ∧ (0xFFFFFFE1#32).getLsbD 4 = (0x1#32).getLsbD 4 ∧
    (0x10#32).extractLsb' 0 4 = 0 ∧ (0x11#32).extractLsb' 0 4 = 1 := by decide

theorem witness_ClearResetsWidthAndDictionary :
    let s := { lzw with dec := { decoder1 with mcs := 11, clear := 2048 } }
    s.dec.mcs.toNat ≤ 11 ∧ s.dec.clear.toNat ≤ 2048 := by decide

theorem witness_FirstCodeEmitsItsSuffix : lzw.dec.top = 0 ∧ memWf lzw.stack := by decide

/-- `decoder1` and the states built on it are ready for an entry-adding code. -/
theorem lzw_ready : lzw.readyToAdd ∧ lzw7.readyToAdd ∧ lzw8.readyToAdd := by
  simp only [State.readyToAdd]
  decide

theorem witness_LiteralEmitsAndAddsEntry :
    lzw.dec.old = some 1 ∧ lzw.readyToAdd ∧ (3#12).toNat < lzw.dec.clear.toNat :=
  ⟨rfl, lzw_ready.1, by decide⟩

theorem loop6_walks (n : Nat) : loop6.walksPast 6 n := by
  induction n with
  | zero => trivial
  | succ n ih => exact ⟨by decide, ih⟩

theorem loop6_ready : loop6.readyToAdd := by
  simp only [State.readyToAdd]
  decide

/-- DICT 7 of `lzw8` visits 7 and 6 and ends at 1; base code CLEAR itself is at the boundary of the walk; the self-loop of
V-LZW-10 does not end. -/
theorem witness_DictExpandsItsLinks :
    lzw8.dec.old = some 6 ∧ lzw8.readyToAdd ∧ lzw8.expandsTo 1 7 [7, 6] ∧ [7#12, 6#12].length < 4096 ∧
    State.expandsTo { lzw8 with prefixMem := [(6, 4)] } 4 6 [6] ∧
    loop6.dec.old = some 6 ∧ loop6.readyToAdd ∧ loop6.walksPast 6 4096 :=
  ⟨rfl, lzw_ready.2.2, ⟨rfl, by decide, rfl, by decide, rfl, by decide⟩, by decide, ⟨rfl, by decide, rfl, by decide⟩,
    rfl, loop6_ready, loop6_walks 4096⟩

theorem witness_KwkwkExpandsOldAfterFirst :
    lzw7.dec.old = some 6 ∧ lzw7.readyToAdd ∧ lzw7.expandsTo 1 6 [6] ∧ [6#12].length < 4095 ∧
    loop6.dec.old = some 6 ∧ loop6.readyToAdd ∧ loop6.walksPast 6 4095 :=
  ⟨rfl, lzw_ready.2.1, ⟨rfl, by decide, rfl, by decide⟩, by decide, rfl, loop6_ready, loop6_walks 4095⟩

/-- A LITERAL that adds its entry, and one that finds the stack full. -/
theorem witness_StoppedCodeAddsNoEntry :
    let full := { lzw with dec := { decoder1 with top := 4096 } }
    lzw.phase = .decode ∧ lzw.dec.avail.toNat < 4096 ∧ memWf lzw.prefixMem ∧ memWf lzw.suffixMem ∧
    (∃ t, exec (.literal 2) lzw = .next t ∧ t.phase = .decode) ∧
    full.phase = .decode ∧ full.dec.avail.toNat < 4096 ∧
    (∃ t, exec (.literal 2) full = .next t ∧ t.phase = .zerofill) :=
  ⟨rfl, by decide, by decide, by decide, ⟨_, rfl, rfl⟩, rfl, by decide, ⟨_, rfl, rfl⟩⟩

theorem witness_NopChangesNothing : idle.busy = false ∧ lzw.busy = true := by decide

theorem witness_IdleCommandIsAccepted : idle.busy = false := by decide

/-- RESET; NOP while BUSY; NOP; the first and the last accepted command. -/
theorem witness_CtrlWriteFollowsItsCases :
    lzw.busy = true ∧ idle.busy = false ∧ (0x11#32).extractLsb' 0 4 = 1 ∧ (0x0#32).extractLsb' 0 4 ≠ 1 ∧
    (0x10#32).extractLsb' 0 4 = 0 ∧ (0x2#32).extractLsb' 0 4 ≠ 0 ∧ (0x2#32).extractLsb' 0 4 ≠ 1 ∧
    (0x1F#32).extractLsb' 0 4 ≠ 0 ∧ (0x1F#32).extractLsb' 0 4 ≠ 1 ∧ (∃ t, lzw.blockStep = .next t) :=
  ⟨rfl, rfl, by decide, by decide, by decide, by decide, by decide, by decide, by decide, _, rfl⟩

theorem witness_ReservedCommandCompletesBadCommand : idle.busy = false ∧ idle.status.canvasValid = false ∧
    idle.status.bwerr = false := by decide

/-- The largest size, and the smallest. -/
theorem witness_CanvasInitZeroesTheCanvases :
    let big := { idle with canvasSize := ⟨4096, 4096⟩ }
    let small := { idle with canvasSize := ⟨1, 1⟩ }
    big.busy = false ∧ 1 ≤ big.canvasSize.x.toNat ∧ big.canvasSize.x.toNat ≤ big.par.maxW ∧
    1 ≤ big.canvasSize.y.toNat ∧ big.canvasSize.y.toNat ≤ big.par.maxH ∧
    small.busy = false ∧ 1 ≤ small.canvasSize.x.toNat ∧ 1 ≤ small.canvasSize.y.toNat := by decide

/-- Each of the four ways a size is refused, at its boundary. -/
theorem witness_CanvasInitRefusesBadSize :
    let s (x y : BitVec 16) := { idle with phase := .check, cmdl := 2, canvasSize := ⟨x, y⟩ }
    (s 0 1).phase = .check ∧ (s 0 1).cmdl = 2 ∧ (s 0 1).canvasSize.x = 0 ∧
    (s 4097 1).par.maxW < (s 4097 1).canvasSize.x.toNat ∧ (s 1 0).canvasSize.y = 0 ∧
    (s 1 4097).par.maxH < (s 1 4097).canvasSize.y.toNat := by decide

/-- No canvas; no table; 65792 pixels, one row above NPIX_MAX = 65536; 65536 pixels. -/
theorem witness_FrameCheckRaisesTheFirstError :
    let large := checking 4 257
    let fits := checking 4 256
    let noCanvas := { large with status := Status.reset }
    let noTable := { large with gctPresent := false }
    (noCanvas.phase = .check ∧ noCanvas.cmdl = 4 ∧ noCanvas.status.canvasValid = false) ∧
    (noTable.phase = .check ∧ noTable.cmdl = 4 ∧ noTable.status.canvasValid = true ∧
      noTable.frameCtrl.lctPresent = false ∧ noTable.gctPresent = false) ∧
    large.phase = .check ∧ large.cmdl = 4 ∧ large.status.canvasValid = true ∧ ¬ (large.frameCtrl.lctPresent = false ∧ large.gctPresent = false) ∧
    large.par.npixMax < large.frameSize.x.toNat * large.frameSize.y.toNat ∧
    fits.phase = .check ∧ fits.cmdl = 4 ∧ fits.frameSize.x.toNat * fits.frameSize.y.toNat = fits.par.npixMax := by decide

theorem witness_DecodeCheckTestsCapacity :
    let large := checking 3 257
    let fits := checking 3 256
    large.phase = .check ∧ large.cmdl = 3 ∧
    large.par.npixMax < large.frameSize.x.toNat * large.frameSize.y.toNat ∧
    fits.phase = .check ∧ fits.cmdl = 3 ∧ fits.frameSize.x.toNat * fits.frameSize.y.toNat ≤ fits.par.npixMax := by decide

/-- Pixels left of, inside and right of the last rectangle's boundary, on the canvas. -/
theorem witness_DisposeBackgroundFillsTheRectangle :
    memWf disposing.cur ∧ memWf disposing.scr ∧ 0 < disposing.activeSize.x.toNat ∧ 1 < disposing.activeSize.x.toNat ∧
    0 < disposing.activeSize.y.toNat ∧ ¬ disposing.lastPos.x.toNat ≤ 0 ∧
    disposing.lastPos.x.toNat ≤ 1 ∧ 1 < disposing.lastPos.x.toNat + disposing.lastSize.x.toNat := by decide

theorem witness_DecodeStartSetsTheDecoder :
    let s (b : Byte) := withPort [b] .err { idle with phase := .decode, cmdl := 3 }
    (s 11).phase = .decode ∧ (s 11).started = false ∧ (s 11).env.port.answer = .byte 11 ∧
    (11#8).toNat < 12 ∧ (s 0).env.port.answer = .byte 0 ∧ (0#8).toNat < 12 := by decide

theorem witness_DecodeStartRefusesBadInput :
    let s (bytes : List Byte) (e : PortEnd) := withPort bytes e { idle with phase := .decode, cmdl := 3 }
    (s [12] .err).phase = .decode ∧ (s [12] .err).started = false ∧ (s [12] .err).env.port.answer = .byte 12 ∧
    12 ≤ (12#8).toNat ∧ (s [] .err).env.port.answer = .err ∧ (s [] .silent).env.port.answer = .waiting := by decide

/-- The length bytes 1 and 0 and a data byte; the widest code with one bit missing; no answer, and `Err`. -/
theorem witness_LoadTakesOneByte :
    let s (bytes : List Byte) (e : PortEnd) (n : Byte) := withPort bytes e { lzw with dec :=
      { decoder1 with csize := 12, cmask := 0xFFF, datum := 0x7FF, bits := 11, sbcnt := n } }
    let t := s [1] .err 0
    t.decoding = true ∧ t.dec.pi.toNat < t.dec.npix.toNat ∧ t.dec.top = 0 ∧ t.dec.bits.toNat < t.dec.csize.toNat ∧
    t.dec.csize.toNat ≤ 12 ∧ t.dec.datum.toNat < 2 ^ t.dec.bits.toNat ∧
    t.env.port.answer = .byte 1 ∧ t.dec.sbcnt = 0 ∧ (s [0] .err 0).env.port.answer = .byte 0 ∧
    (s [0xFF] .err 1).env.port.answer = .byte 0xFF ∧ (s [0xFF] .err 1).dec.sbcnt ≠ 0 ∧
    (s [] .err 0).env.port.answer = .err ∧ (s [] .silent 0).env.port.answer = .waiting := by decide

theorem witness_PopMovesOneByte :
    let s := { lzw with dec := { decoder1 with top := 1, pi := 19 }, stack := [(0, 1)] }
    s.decoding = true ∧ s.dec.pi.toNat < s.dec.npix.toNat ∧ 0 < s.dec.top.toNat ∧ memWf s.ibuf := by decide

theorem witness_PixelCountStopsDecoding :
    let s := { lzw with dec := { decoder1 with top := 1, pi := 20 } }
    s.decoding = true ∧ s.dec.npix.toNat ≤ s.dec.pi.toNat := by decide

/-- DRAIN to come; a FRAME and a DECODE without it; a FRAME whose chain has ended. -/
theorem witness_ZerofillZeroesTheRest :
    let s (cmd : BitVec 4) (d e : Bool) :=
      { lzw with phase := .zerofill, cmdl := cmd, drainl := d, dec := { decoder1 with chainEnd := e } }
    (s 3 true false).phase = .zerofill ∧ (s 3 true false).drainl = true ∧ (s 3 true false).dec.chainEnd = false ∧
    ((s 4 false false).drainl = false ∧ (s 4 false false).cmdl = 4) ∧
    ((s 3 false false).drainl = false ∧ (s 3 false false).cmdl = 3) ∧
    ((s 4 true true).dec.chainEnd = true ∧ (s 4 true true).cmdl = 4) := by decide

/-- The last byte of the open sub-block; the last of a drained one; a length byte; the terminator; `Err`; no answer. -/
theorem witness_DrainTakesTheRestOfTheChain :
    let s (bytes : List Byte) (e : PortEnd) (n k : Byte) := withPort bytes e (draining 4 n k)
    let at_ (s : State) := s.env.port.answer
    (s [0xAA] .err 1 0).phase = .drain ∧ at_ (s [0xAA] .err 1 0) = .byte 0xAA ∧ (s [0xAA] .err 1 0).dec.sbcnt ≠ 0 ∧
    ((s [0xAA] .err 0 1).dec.sbcnt = 0 ∧ (s [0xAA] .err 0 1).drainLeft ≠ 0) ∧
    ((s [1] .err 0 0).dec.sbcnt = 0 ∧ (s [1] .err 0 0).drainLeft = 0 ∧ at_ (s [1] .err 0 0) = .byte 1) ∧
    at_ (s [0] .err 0 0) = .byte 0 ∧ (s [0] .err 0 0).cmdl = 4 ∧ (draining 3 0 0).cmdl = 3 ∧
    at_ (s [] .err 0 0) = .err ∧ at_ (s [] .silent 0 0) = .waiting := by decide

theorem lzw_in_range : lzw.decoderInRange := by
  simp only [State.decoderInRange]
  decide

/-- A DECODE waiting at the start of an endless run of CLEAR codes. -/
def clearing : State :=
  withPort [] (.cycle 0x01 [0x80]) { lzw with dec :=
    { decoder1 with mcs := 7, clear := 128, eoi := 129, avail := 130, csize := 8, cmask := 0xFF, old := none } }

/-- A step that ends somewhere; a DRAIN on an endless run of 1s; a DECODE on endless CLEAR codes. -/
theorem witness_DecodeStepMakesProgress :
    (lzw.decoding = true ∧ lzw.decoderInRange ∧ ∃ t, lzw.blockStep = .next t) ∧
    ((withPort [] (.cycle 1 []) (draining 4 0 0)).phase = .drain ∧
      ∀ k, ∃ b : Byte, b ≠ 0 ∧ InPort.answer { buf := [], pos := 0 + k, atEnd := .cycle 1 [] } = .byte b) ∧
    (clearing.decoding = true ∧ clearing.dec.pi.toNat < clearing.dec.npix.toNat ∧ clearing.dec.top = 0 ∧
      clearing.dec.mcs = 7 ∧ clearing.dec.clear = 128 ∧ clearing.dec.eoi = 129 ∧ 130 ≤ clearing.dec.avail.toNat ∧
      clearing.dec.csize = 8 ∧ clearing.dec.cmask = 0xFF ∧ clearing.dec.datum = 0 ∧ clearing.dec.bits = 0 ∧
      clearing.dec.sbcnt = 0 ∧ clearing.env.port = ⟨[], 0, .cycle 0x01 [0x80]⟩) := by
  refine ⟨⟨rfl, lzw_in_range, _, rfl⟩, ⟨rfl, fun k => ⟨1, by decide, ?_⟩⟩, by decide⟩
  simp [InPort.answer, Nat.mod_one]

/-- Decoded row 4 goes to row 3 of the canvas, the last row is inside it, and a frame at (3,1) leaves pixel (2,1) outside. -/
theorem witness_PlaceDrawsTheFrame :
    let clipped := { canvas 4 2 with phase := .place, framePos := ⟨3, 1⟩, frameSize := ⟨2, 2⟩ }
    placing.phase = .place ∧ memWf placing.scr ∧ placing.frameCtrl.interlace = true ∧
    (ilorder placing.frameSize.y.toNat)[4]? = some 3 ∧ placing.framePos.y.toNat + 3 < placing.activeSize.y.toNat ∧
    placing.framePos.x.toNat ≤ 0 ∧ 0 < placing.framePos.x.toNat + placing.frameSize.x.toNat ∧
    0 < placing.activeSize.x.toNat ∧
    clipped.phase = .place ∧ memWf clipped.scr ∧ 2 < clipped.activeSize.x.toNat ∧ 1 < clipped.activeSize.y.toNat ∧
    2 < clipped.framePos.x.toNat := by decide

/-- The last row of an interlaced frame and of another. -/
theorem witness_InterlaceOrderVisitsEveryRowOnce :
    let plain := { placing with frameCtrl := { placing.frameCtrl with interlace := false } }
    4 < placing.frameSize.y.toNat ∧ placing.frameCtrl.interlace = true ∧ plain.frameCtrl.interlace = false := by decide

/-- V-CMP-6 and V-CMP-6n: the rows 1 2 3 1 2, and in frame order 1 1 3 2 2. -/
theorem witness_InterlacedFrameEqualsItsReordering :
    placing.phase = .place ∧ placing.frameCtrl.interlace = true ∧ memWf placing.scr ∧
    ∀ k r, (ilorder placing.frameSize.y.toNat)[k]? = some r → ∀ j < placing.frameSize.x.toNat,
      readMem (w := 8) [(0, 1), (1, 1), (2, 3), (3, 2), (4, 2)] (r * placing.frameSize.x.toNat + j) =
        readMem placing.ibuf (k * placing.frameSize.x.toNat + j) := by
  refine ⟨rfl, rfl, by decide, fun k r h j hj => ?_⟩
  have hk : k < 5 := by
    have := (List.getElem?_eq_some_iff.1 h).1
    exact this
  have hr : r = [0, 4, 2, 1, 3][k] := by
    have := (List.getElem?_eq_some_iff.1 h).2
    exact this.symm
  obtain rfl : j = 0 := Nat.lt_one_iff.1 hj
  subst hr
  revert k
  decide

theorem witness_CommitSavesAndLatches : (placing.toPhase .commit).phase = .commit ∧ 4 < placing.canvasLen := by decide

/-- The first and the last value of each table. -/
theorem witness_StatusReadsItsFields :
    let s (t : Term) (e : Ecode) := { idle with status := { Status.reset with term := t, ecode := e } }
    (s .count .none).status.term = .count ∧ (s .none .badCommand).status.term = .none ∧
    (s .count .none).status.ecode = .none ∧ (s .none .badCommand).status.ecode = .badCommand := by decide

theorem witness_IrqFollowsDoneAndItsEnable : idle.busy = false ∧ 2 ≤ (0xFFFFFFF2#32).toNat % 16 := by decide

/-- The first and the last offset above STATUS; the last of CTRL, with NOP and with RESET; the ends of STATUS. -/
theorem witness_BusyWriteIsIgnored : lzw.busy = true ∧ 8 ≤ 8 ∧ 8 ≤ 4095 ∧ 4095 < 4096 ∧
    3 < 4 ∧ (0x0#32).extractLsb' 0 4 ≠ 1 ∧ (0x11#32).extractLsb' 0 4 = 1 ∧ 4 ≤ 4 ∧ 7 < 8 := by decide

theorem witness_AccessReachesTheAlignedWord : 4095 < 4096 ∧ 4095 / 4 * 4 = 0xFFC ∧ 4096 ≤ 4096 := by decide

/-- A register beside the one written; the data words beside one that does not move them; the end of the port. -/
theorem witness_WrittenRegisterReadsBack : idle.busy = false ∧ 0x00F < 4096 ∧ 0x00F / 4 * 4 ≠ 0x008 ∧
    0x04B / 4 * 4 = 0x048 ∧ (0x04C ≠ 0x040 ∧ 0x04C ≠ 0x044) ∧ 0x053 / 4 * 4 = 0x050 ∧ 0x044 ≠ 0x04C ∧
    4095 < 4096 ∧ 4095 / 4 * 4 ≠ 0x04C := by decide

/-- A read-only word and the ends of the reserved ranges, idle and BUSY. -/
theorem witness_ReadOnlyWordsIgnoreWrites : idle.busy = false ∧ lzw.busy = true ∧ 0x027 < 4096 ∧
    0x027 / 4 * 4 ∈ [0x024, 0x028, 0x02C, 0x030, 0x034, 0x038, 0x03C, 0x048, 0x050, 0x054, 0x058] ∧
    (0x05C ≤ 0x05C ∧ 0x3FF < 0x400 ∧ 0xC00 ≤ 0xFFF ∧ 0xFFF < 4096) := by decide

theorem witness_ColorTableWindowsHoldWhatIsWritten :
    idle.busy = false ∧ 255 < 256 ∧ memWf idle.gct ∧ memWf idle.lct := by decide

/-- V-CMD-17 at the last pixel and past it, and V-CMD-19 at the last index and past it. -/
theorem witness_DataReadsAdvanceTheirIndex :
    let s (i k : Word) := { canvas 4 2 with cbufIdx := i, ibufIdx := k }
    (s 7 65535).busy = false ∧ (s 7 65535).status.canvasValid = true ∧
    (s 7 65535).cbufIdx.toNat < (s 7 65535).canvasLen ∧ (s 7 65535).cbufSel = 0 ∧
    (s 7 65535).ibufIdx.toNat < (s 7 65535).par.npixMax ∧
    (s 8 65536).canvasLen ≤ (s 8 65536).cbufIdx.toNat ∧ (s 8 65536).par.npixMax ≤ (s 8 65536).ibufIdx.toNat := by decide

theorem witness_BusyMemoryReadHasNoSideEffect : lzw.busy = true ∧ 0x04B / 4 * 4 = 0x048 ∧ 0x053 / 4 * 4 = 0x050 ∧
    (0x400 ≤ 0x400 ∧ 0xBFF < 0xC00) := by decide

theorem witness_StepRunsTheCtrlWord :
    let s := State.reset.withFetchWord 8 0x13
    s.nextAgent = .host ∧ s.env.queue = .write s.par.base 0x13#32 :: [] := by decide

/-- The block's turn, exactly CSIZE bits in the buffer. -/
theorem witness_StepRunsTheCode :
    let s := { lzw with env := { lzw.env with sched := [.block] }, dec := { decoder1 with datum := 6, bits := 3 } }
    s.nextAgent = .block ∧ s.decoding = true ∧ s.dec.pi.toNat < s.dec.npix.toNat ∧ s.dec.top = 0 ∧
    s.dec.csize.toNat ≤ s.dec.bits.toNat ∧ s.dec.csize.toNat ≤ 12 ∧ s.dec.cmask.toNat = 2 ^ s.dec.csize.toNat - 1 := by
  decide

/-- The first and the last method, and no last frame. -/
theorem witness_StepRunsTheDisposalMethod :
    let s (m : BitVec 3) (v : Bool) :=
      { disposing with env := { disposing.env with sched := [.block] }, lastDispose := m, lastValid := v }
    (s 0 true).nextAgent = .block ∧ (s 0 true).phase = .dispose ∧ (s 0 true).lastValid = true ∧
    (s 0 true).lastDispose = 0 ∧ (s 7 true).nextAgent = .block ∧ (s 7 true).lastDispose = 7 ∧
    (s 7 false).lastValid = false := by decide

/-- A step that takes a byte; a port at its first byte, and at its end in each of the four forms, the cycle at its first
byte, at its last and past it. -/
theorem witness_BlockReadsForwardOneByteAtMost :
    (∃ t, (withPort [2] .err lzw).blockStep = .next t ∧ t.env.port.pos = 1) ∧
    [7#8][0]? = some 7#8 ∧ [7#8].length ≤ 1 ∧
    (∀ e ∈ [PortEnd.err, .silent, .cycle 8 [9], .free 0], (InPort.mk [7] 1 e).atEnd = e) ∧
    [8#8, 9#8][(1 - [7#8].length) % 2]? = some 8#8 ∧ [8#8, 9#8][(2 - [7#8].length) % 2]? = some 9#8 ∧
    [8#8, 9#8][(3 - [7#8].length) % 2]? = some 8#8 :=
  ⟨⟨_, rfl, rfl⟩, by decide, by decide, by decide, by decide, by decide, by decide⟩

theorem witness_BlockKeepsTheConfiguration : ∃ t, placing.blockStep = .next t := ⟨_, rfl⟩

/-- A write to another register, while BUSY. -/
theorem witness_HostOperationsKeepTheBlock :
    let s := { lzw with env := { lzw.env with queue := [.write 0x1018 5] } }
    (∀ addr v ops, s.env.queue = .write addr v :: ops → portWord s.par addr ≠ some .ctrl) ∧
    ∃ t, s.hostStep = .next t := by
  refine ⟨?_, _, rfl⟩
  rintro addr v ops h
  cases h
  decide

theorem lzw8_canonical : lzw8.memsCanonical := by
  simp only [State.memsCanonical]
  decide

theorem witness_StepKeepsMemoriesCanonical : lzw8.memsCanonical ∧ ∃ t, step lzw8 = .next t := ⟨lzw8_canonical, _, rfl⟩

theorem witness_StepKeepsDecoderInRange : lzw.decoderInRange ∧ ∃ t, step lzw = .next t := ⟨lzw_in_range, _, rfl⟩

theorem witness_StepKeepsMemoriesInRange : lzw.decoderInRange ∧ lzw.memsInRange ∧ ∃ t, step lzw = .next t := by
  refine ⟨lzw_in_range, ?_, _, rfl⟩
  simp only [State.memsInRange]
  decide

theorem witness_StepKeepsPhaseOfCommand : lzw.phaseOfCommand ∧ ∃ t, step lzw = .next t := ⟨Or.inl rfl, _, rfl⟩

/-- An idle valid canvas, written to by no FRAME. -/
theorem witness_StepKeepsScratchEqualToCurrent :
    let s := { canvas 2 1 with cur := [(0, colA)], scr := [(0, colA)] }
    s.phaseOfCommand ∧ s.scratchIsCurrent ∧ s.status.canvasValid = true ∧ s.inFrame = false ∧ ∃ t, step s = .next t :=
  ⟨trivial, fun _ _ _ _ => rfl, rfl, rfl, _, rfl⟩

/-- The generation of `lzw8`, whose entry 7 links to 6. -/
theorem witness_StepKeepsLinksDescending :
    lzw8.memsCanonical ∧ lzw8.decoderInRange ∧ lzw8.linksDescend ∧ ∃ t, step lzw8 = .next t := by
  refine ⟨lzw8_canonical, ?_, fun _ => ⟨fun k hk hk' => ?_, fun old h => ?_, fun h => by cases h⟩, _, rfl⟩
  · simp only [State.decoderInRange]
    decide
  · obtain rfl : k = 7 := Nat.le_antisymm (Nat.le_of_lt_succ hk') hk
    decide
  · cases h
    exact Or.inl (by decide)

end Sys2Proof.Tests
end

/-! The state of the block (spec/10_state.md): the ranges of the decoder's registers, SCR and CUR between two frames,
the configuration, CTRL and STATUS, and the words of the register port. -/

namespace Sys2Proof.Machine

/-! ### The decoder's registers in their legal ranges (10_state.md R20, R21) -/

/-- The legal ranges of the decoder's registers, each under its own name: `State.decoderInRange` asks for them while
decoding (`State.decoderInRange_iff`). -/
structure Decoder.InRange (d : Decoder) : Prop where
  mcs_le : d.mcs.toNat ≤ 11
  clear_eq : d.clear.toNat = 2 ^ d.mcs.toNat
  eoi_eq : d.eoi.toNat = d.clear.toNat + 1
  mcs_lt_csize : d.mcs.toNat + 1 ≤ d.csize.toNat
  csize_le : d.csize.toNat ≤ 12
  cmask_eq : d.cmask.toNat = 2 ^ d.csize.toNat - 1
  clear_le_avail : d.clear.toNat + 2 ≤ d.avail.toNat
  avail_le : d.avail.toNat ≤ 4096
  bits_le : d.bits.toNat ≤ 19
  datum_lt : d.datum.toNat < 2 ^ d.bits.toNat
  top_le : d.top.toNat ≤ 4096
  pi_le : d.pi.toNat ≤ d.npix.toNat

theorem State.decoderInRange_iff (s : State) : s.decoderInRange ↔ (s.decoding = true → s.dec.InRange) :=
  forall_congr' fun _ =>
    ⟨fun ⟨a, b, c, d, e, f, g, h, i, j, k, l⟩ => ⟨a, b, c, d, e, f, g, h, i, j, k, l⟩,
      fun ⟨a, b, c, d, e, f, g, h, i, j, k, l⟩ => ⟨a, b, c, d, e, f, g, h, i, j, k, l⟩⟩

/-- Outside DECODE nothing is asked of the decoder. -/
theorem State.decoderInRange_of_phase {s : State} (h : s.phase ≠ .decode) : s.decoderInRange :=
  fun hd => absurd (s.decoding_iff.1 hd).1 h

/-- Before decode start nothing is asked of the decoder. -/
theorem State.decoderInRange_of_not_started {s : State} (h : s.started = false) : s.decoderInRange :=
  fun hd => absurd (s.decoding_iff.1 hd).2 (by simp [h])

theorem State.decoderInRange_of_inRange {s : State} (h : s.dec.InRange) : s.decoderInRange :=
  s.decoderInRange_iff.2 fun _ => h

/-- The ranges depend on PHASE, on whether decode start has run, and on the decoder alone. -/
theorem State.decoderInRange_congr {s t : State} (hp : t.phase = s.phase) (hs : t.started = s.started)
    (hd : t.dec = s.dec) : t.decoderInRange ↔ s.decoderInRange := by
  simp only [State.decoderInRange, State.decoding, hp, hs, hd]

/-! ### What each update of the decoder does to the ranges -/

/-- `(1 << n) - 1` is the mask of the low `n` bits, for every width of a code. -/
theorem codeMask_toNat {n : Nat} (h : n ≤ 12) : ((1#12 <<< n) - 1).toNat = 2 ^ n - 1 := by
  interval_cases n <;> rfl

/-- The width that R111 and R120 give a minimum code size. -/
theorem startWidth_toNat {mcs : BitVec 4} (h : mcs.toNat ≤ 11) : (mcs + 1).toNat = mcs.toNat + 1 := by
  bv_omega

/-- Decode start (R111) puts every register in its range. -/
theorem State.setCodeSize_inRange (s : State) {b : Byte} (h : b.toNat < 12) :
    (s.clearDecoder.consumeByte.setCodeSize b).dec.InRange := by
  have hm : (b.setWidth 4).toNat = b.toNat := by
    rw [BitVec.toNat_setWidth, Nat.mod_eq_of_lt (by omega)]
  have hw : (b.setWidth 4 + 1).toNat = b.toNat + 1 := by rw [startWidth_toNat (by omega), hm]
  have hp : 2 ^ b.toNat ≤ 2 ^ 11 := Nat.pow_le_pow_right (by decide) (by omega)
  have hc : (1#13 <<< b.toNat).toNat = 2 ^ b.toNat := by
    rw [BitVec.toNat_shiftLeft, Nat.shiftLeft_eq]
    simp only [BitVec.toNat_ofNat]
    omega
  have he : (1#13 <<< b.toNat + 1).toNat = 2 ^ b.toNat + 1 := by rw [BitVec.toNat_add, hc]; simp; omega
  have ha : (1#13 <<< b.toNat + 2).toNat = 2 ^ b.toNat + 2 := by rw [BitVec.toNat_add, hc]; simp; omega
  exact {
    mcs_le := hm.trans_le (by omega)
    clear_eq := hc.trans (by rw [← hm]; rfl)
    eoi_eq := he.trans (by rw [← hc]; rfl)
    mcs_lt_csize := Nat.le_of_eq ((congrArg (· + 1) hm).trans hw.symm)
    csize_le := hw.trans_le (by omega)
    cmask_eq := codeMask_toNat (hw.trans_le (by omega))
    clear_le_avail := Nat.le_of_eq ((congrArg (· + 2) hc).trans ha.symm)
    avail_le := ha.trans_le (by omega)
    bits_le := Nat.zero_le 19
    datum_lt := Nat.one_pos
    top_le := Nat.zero_le 4096
    pi_le := Nat.zero_le _ }

/-- POP (R116) with pixels to go and a byte on the stack. -/
theorem Decoder.InRange.pop {s : State} (h : s.dec.InRange) (hp : s.dec.pi.toNat < s.dec.npix.toNat)
    (ht : 0 < s.dec.top.toNat) : s.pop.dec.InRange :=
  { h with
    top_le := by have := h.top_le; show (s.dec.top - 1).toNat ≤ 4096; bv_omega
    pi_le := by show (s.dec.pi + 1).toNat ≤ s.dec.npix.toNat; bv_omega }

/-- LOAD (R114) of a data byte above fewer than CSIZE bits: 8 more bits, at most 19. -/
theorem Decoder.InRange.loadData {s : State} (h : s.dec.InRange) (hf : s.dec.bits.toNat < s.dec.csize.toNat)
    (b : Byte) : (s.loadData b).dec.InRange := by
  have hc := h.csize_le
  have hd := h.datum_lt
  have hb : (s.dec.bits + 8).toNat = s.dec.bits.toNat + 8 := by bv_omega
  have hp : 2 ^ s.dec.bits.toNat ≤ 2 ^ 11 := Nat.pow_le_pow_right (by decide) (by omega)
  have hm : b.toNat * 2 ^ s.dec.bits.toNat ≤ 255 * 2 ^ s.dec.bits.toNat := Nat.mul_le_mul_right _ (by omega)
  have hs : (b.setWidth 20 <<< s.dec.bits.toNat).toNat = b.toNat * 2 ^ s.dec.bits.toNat := by
    rw [BitVec.toNat_shiftLeft, Nat.shiftLeft_eq, BitVec.toNat_setWidth, Nat.mod_eq_of_lt (a := b.toNat) (by omega),
      Nat.mod_eq_of_lt (by omega)]
  have hlt : (s.dec.datum + (b.setWidth 20 <<< s.dec.bits.toNat)).toNat < 2 ^ (s.dec.bits + 8).toNat := by
    rw [BitVec.toNat_add, hs, hb, Nat.mod_eq_of_lt (by omega), Nat.pow_add]
    omega
  exact { h with bits_le := hb.trans_le (by omega), datum_lt := hlt }

/-- Taking a code (30_encoding.md R88) of CSIZE bits out of at least as many. -/
theorem Decoder.InRange.takeCode {s : State} (h : s.dec.InRange) (hf : s.dec.csize.toNat ≤ s.dec.bits.toNat) :
    s.takeCode.dec.InRange := by
  have hl := h.bits_le
  have hb : (s.dec.bits - s.dec.csize.setWidth 5).toNat = s.dec.bits.toNat - s.dec.csize.toNat := by bv_omega
  have hd : (s.dec.datum >>> s.dec.csize.toNat).toNat < 2 ^ (s.dec.bits - s.dec.csize.setWidth 5).toNat := by
    rw [BitVec.toNat_ushiftRight, Nat.shiftRight_eq_div_pow, hb, Nat.div_lt_iff_lt_mul (by positivity), ← Nat.pow_add,
      Nat.sub_add_cancel hf]
    exact h.datum_lt
  exact { h with bits_le := hb.trans_le (by omega), datum_lt := hd }

/-- CLEAR (R120). -/
theorem Decoder.InRange.clearDict {s : State} (h : s.dec.InRange) : s.clearDict.dec.InRange := by
  have hm := h.mcs_le
  have hp : 2 ^ s.dec.mcs.toNat ≤ 2 ^ 11 := Nat.pow_le_pow_right (by decide) hm
  have hc := h.clear_eq
  have hw := startWidth_toNat hm
  have ha : (s.dec.clear + 2).toNat = s.dec.clear.toNat + 2 := by bv_omega
  exact { h with
    mcs_lt_csize := hw.ge
    csize_le := hw.trans_le (by omega)
    cmask_eq := codeMask_toNat (hw.trans_le (by omega))
    clear_le_avail := ha.ge
    avail_le := ha.trans_le (by omega) }

/-- The end of an entry-adding code (R126, R127) with room in the dictionary. -/
theorem Decoder.InRange.addEntry {s : State} (h : s.dec.InRange) (ha : s.dec.avail.toNat < 4096) {st : Mem 8}
    {tp : BitVec 13} (hk : s.stackKept st tp) (old code : Code) (f : Byte) :
    ((s.scratch st tp f code).addEntry old).dec.InRange := by
  obtain ⟨csize, cmask, hcs, hcm, h12, hge, hav, he⟩ := s.addEntry_dec old st tp f code ha h.csize_le h.cmask_eq
  rw [he]
  exact { h with
    mcs_lt_csize := h.mcs_lt_csize.trans hge
    csize_le := h12
    cmask_eq := by rw [hcm, hcs]
    clear_le_avail := h.clear_le_avail.trans (by rw [hav]; omega)
    avail_le := hav.trans_le ha
    top_le := hk.2.2 h.top_le }

/-! ### The step -/

/-- A code class keeps the ranges: an entry is added only while AVAIL is below 4096 (R90). -/
theorem CodeOutcome.decoderInRange {s t : State} {ctx : CodeCtx} {c : Code} (h : s.dec.InRange)
    (hctx : ctx.avail = s.dec.avail) (ho : CodeOutcome s (classify ctx c) t) : t.decoderInRange := by
  generalize hi : classify ctx c = i at ho
  cases ho with
  | stop => exact State.decoderInRange_of_phase (by simp)
  | clear => exact State.decoderInRange_of_inRange h.clearDict
  | first code st tp f hk => exact State.decoderInRange_of_inRange { h with top_le := hk.2.2 h.top_le }
  | add i old hold code hcode st tp f hk =>
    subst hi
    obtain ⟨-, -, hne, -⟩ := classify_adds hcode
    have hlt : s.dec.avail.toNat < 4096 := Nat.lt_of_le_of_ne h.avail_le (hctx ▸ hne)
    exact State.decoderInRange_of_inRange (h.addEntry hlt hk old code f)

/-- A step of the block keeps the ranges. Only decode start enters them; the other cases leave DECODE or come before
decode start, or their lemma stands above. -/
theorem BlockOutcome.decoderInRange {s t : State} (hs : s.decoderInRange) (h : BlockOutcome s t) :
    t.decoderInRange := by
  have dec (hd : s.decoding = true) : s.dec.InRange := s.decoderInRange_iff.1 hs hd
  cases h with
  | same => exact hs
  | start _ _ b _ h12 => exact State.decoderInRange_of_inRange (s.setCodeSize_inRange h12)
  | pop hd hp ht => exact State.decoderInRange_of_inRange ((dec hd).pop hp ht)
  | loadLength hd b _ => exact State.decoderInRange_of_inRange { dec hd with }
  | loadData hd b _ hf => exact State.decoderInRange_of_inRange ((dec hd).loadData (s := s.consumeByte) hf b)
  | code hd _ hf i hi _ ho =>
    subst hi
    exact ho.decoderInRange ((dec hd).takeCode hf) rfl
  | checkDecode | disposeNothing | disposeKeep | disposeFill | disposeRestore =>
    exact State.decoderInRange_of_not_started (by simp)
  | drainRest hp | drainCount hp => exact State.decoderInRange_of_phase (by simp [hp])
  | raise | checkInit | checkFrame | init | startTruncated | startBadMcs | stopCount | loadTruncated | loadEnd
  | zerofillDrain | zerofillPlace | zerofillComplete | drainPlace | drainComplete | truncatedPlace | truncatedComplete
  | place | commit => exact State.decoderInRange_of_phase (by simp)

/-- An operation of the host keeps the ranges: RESET and a command leave DECODE, and no other reaches the decoder. -/
theorem HostOutcome.decoderInRange {s t : State} (hs : s.decoderInRange) (h : HostOutcome s t) :
    t.decoderInRange := by
  cases h with
  | quiet _ h => exact (State.decoderInRange_congr h.phase h.started h.dec).2 hs
  | reset => exact State.decoderInRange_of_phase (by simp [State.afterReset, State.reset])
  | accept => exact State.decoderInRange_of_phase (by simp)

/-- Settles O55: each outcome of a step of the block and of an operation of the host keeps the ranges. -/
theorem stepKeepsDecoderInRange : Obligations.StepKeepsDecoderInRange := by
  intro s t hs h
  have hs' : s.takeTurn.decoderInRange := (State.decoderInRange_congr rfl rfl rfl).2 hs
  rcases step_outcome h with hb | hh
  · exact hb.decoderInRange hs'
  · exact hh.decoderInRange hs'

/-! ### Inside and outside a FRAME -/

theorem State.inFrame_of_phase {s : State} (h : s.phase = .idle ∨ s.phase = .check ∨ s.phase = .init) :
    s.inFrame = false := by
  rcases h with h | h | h <;> simp [State.inFrame, h]

/-- Past its CHECK and INIT a command is a FRAME exactly when the latched command is FRAME. -/
theorem State.inFrame_eq {s : State} (h : s.phase ≠ .idle ∧ s.phase ≠ .check ∧ s.phase ≠ .init) :
    s.inFrame = (s.cmdl == 4) := by
  obtain ⟨h1, h2, h3⟩ := h
  cases hp : s.phase <;> simp_all [State.inFrame]

theorem State.inFrame_of_cmdl {s : State} (h : s.phase ≠ .idle ∧ s.phase ≠ .check ∧ s.phase ≠ .init)
    (hc : s.cmdl = 4) : s.inFrame = true := by
  rw [State.inFrame_eq h, hc]
  rfl

/-! ### SCR and CUR between two frames (10_state.md R50) -/

/-- The canvas is as it was: CANVAS_VALID, its size, CUR and SCR. -/
structure State.CanvasKept (s t : State) : Prop where
  canvasValid : t.status.canvasValid = s.status.canvasValid
  activeSize : t.activeSize = s.activeSize
  cur : t.cur = s.cur
  scr : t.scr = s.scr

/-- A step that keeps the canvas and takes the block out of no FRAME keeps SCR = CUR. -/
theorem State.scratchIsCurrent.of_kept {s t : State} (hs : s.scratchIsCurrent) (hk : s.CanvasKept t)
    (hf : t.inFrame = false → s.inFrame = false) : t.scratchIsCurrent := by
  intro hv ht i hi
  rw [State.canvasLen_eq hk.activeSize] at hi
  rw [hk.cur, hk.scr]
  exact hs (hk.canvasValid ▸ hv) (hf ht) i hi

/-- In a FRAME nothing is asked of SCR. -/
theorem State.scratchIsCurrent_of_inFrame {s : State} (h : s.inFrame = true) : s.scratchIsCurrent := by
  intro _ hf
  rw [h] at hf
  cases hf

/-- COMMIT (41_compositor.md R161) copies SCR into CUR. -/
theorem State.commitStep_scratchIsCurrent (s : State) : s.commitStep.scratchIsCurrent := by
  intro _ _ i hi
  rw [State.canvasLen_eq (s := s) (by simp)] at hi
  simp [readMem_copyBelow, hi]

/-- INIT (42_commands.md R183) clears both canvases. -/
theorem State.initStep_scratchIsCurrent (s : State) : s.initStep.scratchIsCurrent := by
  intro _ _ i _
  simp

/-- RESET (42_commands.md R182) leaves no valid canvas. -/
theorem State.afterReset_scratchIsCurrent (s : State) : s.afterReset.scratchIsCurrent := by
  intro hv
  cases hv

/-- No code class reaches the canvas. -/
theorem CodeOutcome.canvasKept {s t : State} {i : Instr} (h : CodeOutcome s i t) : s.CanvasKept t := by
  cases h with
  | stop | clear | first => exact ⟨rfl, rfl, rfl, rfl⟩
  | add i old _ code _ st tp f _ =>
    obtain ⟨⟨-, hst, -⟩, -, -, ⟨ha, -⟩, -⟩ := State.addEntry_frame (s.scratch st tp f code) old
    obtain ⟨-, -, -, -, -, -, hcur, -, hscr, -⟩ := State.addEntry_mems (s.scratch st tp f code) old
    exact ⟨congrArg _ hst, ha, hcur, hscr⟩

/-- A code class stays in its phase or stops. -/
theorem CodeOutcome.phase_eq_or_zerofill {s t : State} {i : Instr} (h : CodeOutcome s i t) :
    t.phase = s.phase ∨ t.phase = .zerofill := by
  cases h with
  | stop => exact .inr rfl
  | clear | first => exact .inl rfl
  | add i old _ code _ st tp f _ =>
    obtain ⟨⟨hp, -⟩, -⟩ := State.addEntry_frame (s.scratch st tp f code) old
    exact .inl hp

/-- A step of the block keeps SCR = CUR. INIT and COMMIT make the two equal; what else writes SCR stands inside a FRAME;
every other step keeps the canvas and ends no FRAME. -/
theorem BlockOutcome.scratchIsCurrent {s t : State} (hc : s.phaseOfCommand) (hs : s.scratchIsCurrent)
    (h : BlockOutcome s t) : t.scratchIsCurrent := by
  cases h with
  | same => exact hs
  | init => exact s.initStep_scratchIsCurrent
  | commit => exact s.commitStep_scratchIsCurrent
  | raise hp | checkInit hp | checkDecode hp =>
    exact hs.of_kept ⟨rfl, rfl, rfl, rfl⟩ fun _ => State.inFrame_of_phase (.inr (.inl hp))
  | checkFrame _ h4 | zerofillPlace _ h4 | drainPlace _ _ _ h4 | truncatedPlace _ h4 =>
    exact State.scratchIsCurrent_of_inFrame (State.inFrame_of_cmdl (by simp) h4)
  | disposeNothing hp | disposeKeep hp | disposeFill hp | disposeRestore hp | place hp =>
    have h4 : s.cmdl = 4 := by simpa [State.phaseOfCommand, Phase.belongsTo, hp] using hc
    exact State.scratchIsCurrent_of_inFrame (State.inFrame_of_cmdl (by simp) (by simpa using h4))
  | zerofillComplete hp h4 | drainComplete hp _ _ h4 | truncatedComplete hp h4 =>
    exact hs.of_kept ⟨rfl, rfl, rfl, rfl⟩ fun _ => by simpa [State.inFrame_eq, hp] using h4
  | startTruncated hp | startBadMcs hp | start hp | zerofillDrain hp | drainRest hp | drainCount hp =>
    exact hs.of_kept ⟨rfl, rfl, rfl, rfl⟩ fun ht => by simpa [State.inFrame_eq, hp] using ht
  | stopCount hd | pop hd | loadTruncated hd | loadEnd hd | loadLength hd | loadData hd =>
    have hp := (s.decoding_iff.1 hd).1
    exact hs.of_kept ⟨rfl, rfl, rfl, rfl⟩ fun ht => by simpa [State.inFrame_eq, hp] using ht
  | code hd _ _ i _ t ho =>
    have hp := (s.decoding_iff.1 hd).1
    obtain ⟨hv, ha, hcur, hscr⟩ := ho.canvasKept
    obtain ⟨-, ⟨-, hcmd, -⟩, -⟩ := ho.frame
    refine hs.of_kept ⟨hv, ha, hcur, hscr⟩ fun ht => ?_
    rcases ho.phase_eq_or_zerofill with hp' | hp' <;> simpa [State.inFrame_eq, hp, hp', hcmd] using ht

/-- An operation of the host keeps SCR = CUR: none reaches the canvas but RESET, which invalidates it. -/
theorem HostOutcome.scratchIsCurrent {s t : State} (hs : s.scratchIsCurrent) (h : HostOutcome s t) :
    t.scratchIsCurrent := by
  cases h with
  | quiet _ h =>
    exact hs.of_kept ⟨h.canvasValid, h.activeSize, h.cur, h.scr⟩ fun ht => by
      simpa only [State.inFrame, h.phase, h.cmdl] using ht
  | reset ops => exact State.afterReset_scratchIsCurrent _
  | accept ops cmd drain hi => exact hs.of_kept ⟨rfl, rfl, rfl, rfl⟩ fun _ => State.inFrame_of_phase (.inl hi)

/-- Settles O58: each outcome of a step of the block and of an operation of the host keeps SCR = CUR. -/
theorem stepKeepsScratchEqualToCurrent : Obligations.StepKeepsScratchEqualToCurrent := by
  rintro s t ⟨hc, hs⟩ h
  rcases step_outcome h with hb | hh
  · exact BlockOutcome.scratchIsCurrent (s := s.takeTurn) hc hs hb
  · exact HostOutcome.scratchIsCurrent (s := s.takeTurn) hs hh

/-! ### The configuration (10_state.md R52) -/

/-- No step of the block reaches the configuration: each of its updates leaves it alone. -/
theorem BlockOutcome.sameConfig {s t : State} (h : BlockOutcome s t) : s.sameConfig t := by
  cases h with
  | code _ _ _ i _ t ho =>
    obtain ⟨-, -, hc, -⟩ := ho.frame
    simpa [State.sameConfig] using hc
  | _ => simp [State.sameConfig, sameMem]

/-- Settles O52, by the inversion of one step of the block. -/
theorem blockKeepsTheConfiguration : Obligations.BlockKeepsTheConfiguration :=
  fun _ _ h => (State.blockStep_outcome h).sameConfig

/-- Settles O53: the inversion of such an operation keeps every field `sameBlock` names. -/
theorem hostOperationsKeepTheBlock : Obligations.HostOperationsKeepTheBlock :=
  fun _ _ hq h => (State.hostStep_quiet hq h).sameBlock

/-! ### The start of a command (10_state.md R26) -/

theorem State.request_idle {s : State} (h : s.busy = false) (cmd : BitVec 4) (drain : Bool) :
    s.request cmd drain = s.accept cmd drain := by
  simp [State.request, h]

theorem State.accept_status (cmd : BitVec 4) (drain : Bool) (s : State) : (s.accept cmd drain).status =
    { s.status with done := false, err := false, term := .none, ecode := .none, dtrunc := false } := rfl

/-- The instructions that request a command, with the command each requests (42_commands.md R180, case 4). -/
def requests (drain : Bool) : List (Instr × BitVec 4) :=
  [(.canvasInit drain, 2), (.decode drain, 3), (.frame drain, 4), (.reservedCmd5 drain, 5), (.reservedCmd6 drain, 6),
    (.reservedCmd7 drain, 7), (.reservedCmd8 drain, 8), (.reservedCmd9 drain, 9), (.reservedCmd10 drain, 10),
    (.reservedCmd11 drain, 11), (.reservedCmd12 drain, 12), (.reservedCmd13 drain, 13), (.reservedCmd14 drain, 14),
    (.reservedCmd15 drain, 15)]

theorem exec_of_mem_requests {drain : Bool} {p : Instr × BitVec 4} (h : p ∈ requests drain) (s : State) :
    exec p.1 s = .next (s.request p.2 drain) := by
  simp only [requests, List.mem_cons, List.not_mem_nil, or_false] at h
  rcases h with rfl | rfl | rfl | rfl | rfl | rfl | rfl | rfl | rfl | rfl | rfl | rfl | rfl | rfl <;> rfl

/-- Settles O15: the instruction is the request of its command, which an idle block accepts. -/
theorem idleCommandIsAccepted : Obligations.IdleCommandIsAccepted := by
  intro s drain hb p hp
  refine ⟨s.accept p.2 drain, (exec_of_mem_requests hp s).trans (by rw [State.request_idle hb]), rfl, rfl, rfl, rfl,
    State.accept_status _ _ _, rfl, rfl, rfl, rfl, rfl, rfl, ?_⟩
  simp [State.sameConfig, State.sameLast, State.sameCanvas, State.sameStreamMems, State.sameDict, sameMem]

/-! ### CTRL words (30_encoding.md R91) -/

/-- CMD is the low four bits. -/
theorem toNat_mod_sixteen (v : Word) : v.toNat % 16 = (v.extractLsb' 0 4).toNat := by
  simp [BitVec.extractLsb'_toNat]

/-- A CTRL word is decoded from CMD and DRAIN alone. -/
theorem decodeCtrl_congr {v w : Word} (hc : v.toNat % 16 = w.toNat % 16) (hd : v.getLsbD 4 = w.getLsbD 4) :
    decodeCtrl v = decodeCtrl w := by
  simp only [decodeCtrl, hc, hd]

theorem decodeCtrl_nop {v : Word} (h : v.toNat % 16 = 0) : decodeCtrl v = .nop := by
  simp [decodeCtrl, h]

theorem decodeCtrl_reset {v : Word} (h : v.toNat % 16 = 1) : decodeCtrl v = .reset := by
  simp [decodeCtrl, h]

/-- Settles O4: the decoder looks at CMD and DRAIN alone. -/
theorem ctrlWordIgnoresItsHighBits : Obligations.CtrlWordIgnoresItsHighBits := by
  intro v w hc
  refine ⟨decodeCtrl_congr ?_, fun h => decodeCtrl_nop ?_, fun h => decodeCtrl_reset ?_⟩
  · rw [toNat_mod_sixteen, toNat_mod_sixteen, hc]
  · rw [toNat_mod_sixteen, h]; rfl
  · rw [toNat_mod_sixteen, h]; rfl

/-! ### The write to STATUS (60_exceptions.md R205) -/

theorem State.hostWrite_status (s : State) (v : Word) :
    s.hostWrite (s.par.base + 4) v = .next (s.w1cStatus v) := by
  rw [State.hostWrite_word s v (portWord_offset s.par (a := 4) (by decide)) (by decide)]
  rfl

/-- Settles O37: offset 4 is STATUS, whose write is performed BUSY or not. -/
theorem statusWriteClearsByOne : Obligations.StatusWriteClearsByOne :=
  fun s v => ⟨s.w1cStatus v, s.hostWrite_status v, rfl, rfl, fun _ => rfl⟩

/-! ### Register fields at their bits (30_encoding.md R89) -/

@[simp] theorem getElem_field {n : Nat} (lo : Nat) (v : BitVec n) {i : Nat} (hi : i < 32) :
    (field lo v)[i] = (decide (lo ≤ i) && v.getLsbD (i - lo)) := by
  have hsub : i - lo < 32 := by omega
  by_cases hlo : lo ≤ i
  · simp [field, ← BitVec.getLsbD_eq_getElem, hi, hlo, hsub]
  · simp [field, ← BitVec.getLsbD_eq_getElem, hlo, Nat.lt_of_not_le hlo]

@[simp] theorem getElem_flag (lo : Nat) (b : Bool) {i : Nat} (hi : i < 32) :
    (flag lo b)[i] = (decide (i = lo) && b) := by
  rw [flag, getElem_field lo _ hi]
  by_cases hlo : i = lo
  · cases b <;> simp [hlo]
  · by_cases hle : lo ≤ i
    · have hout : 1 ≤ i - lo := by omega
      simp [hlo, BitVec.getLsbD_of_ge _ _ hout]
    · simp [hlo, hle]

/-- A field reads back at its own bits. -/
theorem extractLsb'_field_self {n lo : Nat} (v : BitVec n) (h : lo + n ≤ 32) : (field lo v).extractLsb' lo n = v := by
  ext i hi
  have hlt : lo + i < 32 := by omega
  simp [hlt, hi]

/-- The bits outside a field are 0. -/
theorem extractLsb'_field_apart {n lo start len : Nat} (v : BitVec n) (h : lo + n ≤ start ∨ start + len ≤ lo) :
    (field lo v).extractLsb' start len = 0 := by
  ext i hi
  by_cases hlt : start + i < 32
  · rcases h with h | h
    · have hout : n ≤ start + i - lo := by omega
      simp [hlt, BitVec.getLsbD_of_ge v _ hout]
    · have hlow : ¬ lo ≤ start + i := by omega
      simp [hlt, hlow]
  · simp [BitVec.getLsbD_of_ge _ _ (Nat.not_lt.1 hlt)]

/-- A field taken from a word keeps the word's bits under the mask of the field. -/
theorem field_extractLsb' (v : Word) (lo n : Nat) :
    field lo (v.extractLsb' lo n) = v &&& field lo (BitVec.allOnes n) := by
  ext i hi
  by_cases hlo : lo ≤ i
  · simp [hi, hlo, Nat.add_sub_cancel' hlo, Bool.and_comm]
  · simp [hlo]

theorem flag_getLsbD (v : Word) (lo : Nat) : flag lo (v.getLsbD lo) = v &&& flag lo true := by
  ext i hi
  by_cases hlo : i = lo
  · subst hlo
    simp [hi]
  · simp [hlo]

/-! ### STATUS (10_state.md R25) -/

theorem State.statusWord_term (s : State) : s.statusWord.extractLsb' 4 4 = s.status.term.code := by
  simp [State.statusWord, flag, BitVec.extractLsb'_or, extractLsb'_field_self, extractLsb'_field_apart]

theorem State.statusWord_ecode (s : State) : s.statusWord.extractLsb' 8 4 = s.status.ecode.code := by
  simp [State.statusWord, flag, BitVec.extractLsb'_or, extractLsb'_field_self, extractLsb'_field_apart]

theorem State.statusWord_reserved (s : State) : s.statusWord.extractLsb' 14 18 = 0 := by
  simp [State.statusWord, flag, BitVec.extractLsb'_or, extractLsb'_field_apart]

/-- No code of TERM or ECODE is wider than its field, so a flag of STATUS stands alone at its bit. -/
theorem State.statusWord_flags (s : State) :
    s.statusWord.getLsbD 0 = s.busy ∧ s.statusWord.getLsbD 1 = s.status.done ∧
    s.statusWord.getLsbD 2 = s.status.err ∧ s.statusWord.getLsbD 3 = s.status.bwerr ∧
    s.statusWord.getLsbD 12 = s.status.canvasValid ∧ s.statusWord.getLsbD 13 = s.status.dtrunc := by
  simp [State.statusWord]

/-! ### Accesses to the port -/

@[simp] theorem State.afterLoad_env (w : PortWord) (s : State) : (State.afterLoad w s).env = s.env := by
  cases w <;> rfl

/-- What the host receives from a read whose value is not free (20_memory.md R70). -/
theorem State.readWord_reads {s : State} {w : PortWord} (h : w.isRam = false ∨ s.busy = false) :
    (s.readWord w).env.reads = s.loadWord w :: s.env.reads := by
  have hr : s.readWord w = State.afterLoad w (s.deliver (s.loadWord w)) :=
    h.elim s.readWord_plain (s.readWord_idle w)
  rw [hr, State.afterLoad_env]
  rfl

theorem State.hostRead_offset (s : State) {a : Nat} (ha : a < 4096) :
    s.hostRead (s.par.base + a) = s.readWord (portWordAt (a / 4 * 4)) :=
  s.hostRead_word (portWord_offset s.par ha)

theorem State.hostRead_reads {s : State} (hb : s.busy = false) {a : Nat} (ha : a < 4096) :
    (s.hostRead (s.par.base + a)).env.reads = s.loadWord (portWordAt (a / 4 * 4)) :: s.env.reads := by
  rw [s.hostRead_offset ha, State.readWord_reads (.inr hb)]

theorem State.writeWord_idle {s : State} (hb : s.busy = false) {w : PortWord} (hw : w ≠ .status) (v : Word) :
    s.writeWord w v = s.storeWord w v := by
  simp only [State.writeWord, hw, hb, if_false, Bool.false_eq_true]

/-- An idle block stores what is written to a word other than CTRL and STATUS. -/
theorem State.hostWrite_idle {s : State} (hb : s.busy = false) {a : Nat} (ha : a < 4096)
    (hc : portWordAt (a / 4 * 4) ≠ .ctrl) (hs : portWordAt (a / 4 * 4) ≠ .status) (v : Word) :
    s.hostWrite (s.par.base + a) v = .next (s.storeWord (portWordAt (a / 4 * 4)) v) := by
  rw [s.hostWrite_word v (portWord_offset s.par ha) hc, State.writeWord_idle hb hs]

/-! ### STATUS as the host reads it -/

/-- Settles O36: the flags and fields of STATUS, each at its bits, and the host's read of offset 4. -/
theorem statusReadsItsFields : Obligations.StatusReadsItsFields := by
  intro s
  obtain ⟨hbusy, hdone, herr, hbwerr, hvalid, htrunc⟩ := s.statusWord_flags
  refine ⟨?_, hdone, herr, hbwerr, fun p hp ht => ?_, fun p hp he => ?_, hvalid, htrunc, s.statusWord_reserved, ?_⟩
  · rw [hbusy, Bool.eq_iff_iff, State.busy_eq_true, decide_eq_true_iff]
  · have hcode : ∀ p ∈ [(Term.count, 0#4), (.eoi, 1), (.dataEnd, 2), (.badCode, 3), (.dictFull, 4), (.stackFull, 5),
        (.truncated, 6), (.badMcs, 7), (.none, 15)], p.1.code = p.2 := by decide
    rw [s.statusWord_term, ht, hcode p hp]
  · have hcode : ∀ p ∈ [(Ecode.none, 0#4), (.lzwFormat, 1), (.drainTrunc, 2), (.missingCt, 3), (.frameTooLarge, 4),
        (.noCanvas, 5), (.badCanvasSize, 6), (.badCommand, 7)], p.1.code = p.2 := by decide
    rw [s.statusWord_ecode, he, hcode p hp]
  · rw [s.hostRead_offset (by decide), State.readWord_reads (.inl rfl)]
    rfl

/-! ### Words that ignore a write (10_state.md R23, R42, R43) -/

/-- The words of the port a host write does not change while idle. -/
def ignoringWords : List PortWord :=
  [.lastPos, .lastSize, .lastCtrl, .pixCount, .bytesIn, .lzwState, .frameCount, .cbufData, .ibufData, .activeSize, .id,
    .reserved]

theorem State.hostWrite_ignored {s : State} (hb : s.busy = false) {a : Nat} (ha : a < 4096)
    (hw : portWordAt (a / 4 * 4) ∈ ignoringWords) (v : Word) : s.hostWrite (s.par.base + a) v = .next s := by
  have hplain : ∀ w ∈ ignoringWords, w ≠ .ctrl ∧ w ≠ .status := by decide
  obtain ⟨hc, hs⟩ := hplain _ hw
  rw [State.hostWrite_idle hb ha hc hs]
  generalize portWordAt (a / 4 * 4) = w at hw
  simp only [ignoringWords, List.mem_cons, List.not_mem_nil, or_false] at hw
  rcases hw with rfl | rfl | rfl | rfl | rfl | rfl | rfl | rfl | rfl | rfl | rfl | rfl <;> rfl

/-- Settles O42: the named offsets and the reserved ranges hold only words that ignore a write. -/
theorem readOnlyWordsIgnoreWrites : Obligations.ReadOnlyWordsIgnoreWrites := by
  intro s a v ha
  refine ⟨fun hb ho => ?_, fun hr => ?_⟩
  · have hword : ∀ o ∈ [0x024, 0x028, 0x02C, 0x030, 0x034, 0x038, 0x03C, 0x048, 0x050, 0x054, 0x058],
        portWordAt o ∈ ignoringWords := by decide
    exact State.hostWrite_ignored hb ha (hword _ ho) v
  · have hword : portWordAt (a / 4 * 4) = .reserved := portWordAt_reserved (by omega)
    refine ⟨fun hb => State.hostWrite_ignored hb ha (by rw [hword]; decide) v, ?_⟩
    rw [s.hostRead_offset ha, hword, s.readWord_plain rfl]
    rfl

/-! ### The data words (10_state.md R41 to R43) -/

/-- CBUF_DATA reads the selected buffer at CBUF_IDX, inside a valid canvas. -/
theorem State.cbufValue_selected {s : State} {b : Mem 32} (hb : s.selectedBuffer = some b)
    (hv : s.status.canvasValid = true) (hi : s.cbufIdx.toNat < s.canvasLen) :
    s.cbufValue = readMem b s.cbufIdx.toNat := by
  simp [State.cbufValue, hb, hv, hi]

/-- CBUF_DATA reads 0 without a valid canvas, outside the canvas, or with no buffer selected. -/
theorem State.cbufValue_zero {s : State}
    (h : s.status.canvasValid = false ∨ s.canvasLen ≤ s.cbufIdx.toNat ∨ s.cbufSel = 3) : s.cbufValue = 0 := by
  cases hb : s.selectedBuffer with
  | none => simp [State.cbufValue, hb]
  | some b =>
    have hsel : s.cbufSel ≠ 3 := by
      intro h3
      simp [State.selectedBuffer, h3] at hb
    have hout : ¬ (s.status.canvasValid = true ∧ s.cbufIdx.toNat < s.canvasLen) := by
      rintro ⟨hv, hi⟩
      rcases h with h | h | h
      · simp [hv] at h
      · omega
      · exact hsel h
    simp [State.cbufValue, hb, hout]

/-- Settles O44: an idle read delivers `cbufValue` or `ibufValue`, and then advances the index. -/
theorem dataReadsAdvanceTheirIndex : Obligations.DataReadsAdvanceTheirIndex := by
  intro s hb
  refine ⟨⟨s.cbufValue, ?_, fun hv hi => ⟨fun h => ?_, fun h => ?_, fun h => ?_⟩, State.cbufValue_zero⟩,
    ⟨s.ibufValue, ?_, fun hi => ?_, fun hi => ?_⟩, fun v => ⟨?_, ?_⟩⟩
  · rw [s.hostRead_offset (by decide), s.readWord_idle _ hb]
    rfl
  · exact State.cbufValue_selected (by simp [State.selectedBuffer, h]) hv hi
  · exact State.cbufValue_selected (by simp [State.selectedBuffer, h]) hv hi
  · exact State.cbufValue_selected (by simp [State.selectedBuffer, h]) hv hi
  · rw [s.hostRead_offset (by decide), s.readWord_idle _ hb]
    rfl
  · rw [State.ibufValue, if_pos hi, BitVec.toNat_setWidth_of_le (by decide)]
  · rw [State.ibufValue, if_neg (Nat.not_lt.2 hi)]
  · exact State.hostWrite_ignored hb (by decide) (by decide) v
  · exact State.hostWrite_ignored hb (by decide) (by decide) v

/-! ### The color-table windows (10_state.md R46) -/

theorem portWordAt_gctOffset {i : Nat} (h : i < 256) :
    portWordAt ((0x400 + 4 * i) / 4 * 4) = .gct (BitVec.ofNat 8 i) := by
  rw [← portWordAt_gct h]
  congr 1
  omega

theorem portWordAt_lctOffset {i : Nat} (h : i < 256) :
    portWordAt ((0x800 + 4 * i) / 4 * 4) = .lct (BitVec.ofNat 8 i) := by
  rw [← portWordAt_lct h]
  congr 1
  omega

theorem toNat_ofNat_byte {i : Nat} (h : i < 256) : (BitVec.ofNat 8 i).toNat = i := by
  rw [BitVec.toNat_ofNat, Nat.mod_eq_of_lt h]

theorem State.hostWrite_gct {s : State} (hb : s.busy = false) {i : Nat} (hi : i < 256) (v : Word) :
    s.hostWrite (s.par.base + 0x400 + 4 * i) v = .next { s with gct := writeMem s.gct i v } := by
  have hw := portWordAt_gctOffset hi
  rw [Nat.add_assoc, State.hostWrite_idle hb (by omega) (by simp [hw]) (by simp [hw]), hw]
  simp only [State.storeWord, toNat_ofNat_byte hi]

theorem State.hostWrite_lct {s : State} (hb : s.busy = false) {i : Nat} (hi : i < 256) (v : Word) :
    s.hostWrite (s.par.base + 0x800 + 4 * i) v = .next { s with lct := writeMem s.lct i v } := by
  have hw := portWordAt_lctOffset hi
  rw [Nat.add_assoc, State.hostWrite_idle hb (by omega) (by simp [hw]) (by simp [hw]), hw]
  simp only [State.storeWord, toNat_ofNat_byte hi]

theorem State.hostRead_gct {s : State} (hb : s.busy = false) {i : Nat} (hi : i < 256) :
    (s.hostRead (s.par.base + 0x400 + 4 * i)).env.reads = readMem s.gct i :: s.env.reads := by
  rw [Nat.add_assoc, State.hostRead_reads hb (by omega), portWordAt_gctOffset hi]
  simp only [State.loadWord, toNat_ofNat_byte hi]

theorem State.hostRead_lct {s : State} (hb : s.busy = false) {i : Nat} (hi : i < 256) :
    (s.hostRead (s.par.base + 0x800 + 4 * i)).env.reads = readMem s.lct i :: s.env.reads := by
  rw [Nat.add_assoc, State.hostRead_reads hb (by omega), portWordAt_lctOffset hi]
  simp only [State.loadWord, toNat_ofNat_byte hi]

/-- Settles O43: the write is one `writeMem` of the table the window belongs to. -/
theorem colorTableWindowsHoldWhatIsWritten : Obligations.ColorTableWindowsHoldWhatIsWritten := by
  intro s i v hb hi hg hl
  refine ⟨⟨_, State.hostWrite_gct hb hi v, readMem_writeMem hg i v, rfl, ?_⟩,
    ⟨_, State.hostWrite_lct hb hi v, readMem_writeMem hl i v, rfl, ?_⟩⟩
  · exact (State.hostRead_gct (s := { s with gct := writeMem s.gct i v }) hb hi).trans
      (by rw [readMem_writeMem_self hg])
  · exact (State.hostRead_lct (s := { s with lct := writeMem s.lct i v }) hb hi).trans
      (by rw [readMem_writeMem_self hl])

/-! ### The read-write registers (10_state.md R23, R29 to R34, R41, R43) -/

/-- The read-write registers of the port by their offset, each with the bits it stores. -/
def storedBits : List (Nat × Word) :=
  [(0x008, 0x00000001), (0x00C, 0xFFFFFFFF), (0x010, 0xFFFFFFFF), (0x014, 0x00000001), (0x018, 0xFFFFFFFF),
    (0x01C, 0xFFFFFFFF), (0x020, 0x0000FF3F), (0x040, 0x00000003), (0x044, 0xFFFFFFFF), (0x04C, 0xFFFFFFFF)]

theorem storedBits_offset : ∀ p ∈ storedBits, p.1 < 0x05C ∧ p.1 / 4 * 4 = p.1 ∧ portWordAt p.1 ≠ .ctrl ∧
    portWordAt p.1 ≠ .status := by decide

theorem XY.toWord_ofWord (v : Word) : (XY.ofWord v).toWord = v := by
  rw [XY.toWord, XY.ofWord, field_extractLsb', field_extractLsb', ← BitVec.and_or_distrib_left]
  exact BitVec.and_allOnes

theorem FrameCtrl.toWord_ofWord (v : Word) : (FrameCtrl.ofWord v).toWord = v &&& 0x0000FF3F#32 := by
  simp only [FrameCtrl.toWord, FrameCtrl.ofWord, field_extractLsb', flag_getLsbD, ← BitVec.and_or_distrib_left]
  rfl

/-- A read-write register holds the bits it stores of the word written to it. -/
theorem State.loadWord_storeWord_self (s : State) (v : Word) {p : Nat × Word} (hp : p ∈ storedBits) :
    (s.storeWord (portWordAt p.1) v).loadWord (portWordAt p.1) = v &&& p.2 := by
  simp only [storedBits, List.mem_cons, List.not_mem_nil, or_false] at hp
  rcases hp with rfl | rfl | rfl | rfl | rfl | rfl | rfl | rfl | rfl | rfl
  · exact flag_getLsbD v 0
  · exact (XY.toWord_ofWord v).trans BitVec.and_allOnes.symm
  · exact BitVec.and_allOnes.symm
  · exact flag_getLsbD v 0
  · exact (XY.toWord_ofWord v).trans BitVec.and_allOnes.symm
  · exact (XY.toWord_ofWord v).trans BitVec.and_allOnes.symm
  · exact FrameCtrl.toWord_ofWord v
  · exact field_extractLsb' v 0 2
  · exact BitVec.and_allOnes.symm
  · exact BitVec.and_allOnes.symm

/-- A register of the port stands at its own offset only. -/
theorem portWordAt_inj {a o : Nat} (ho : o < 0x05C) (ho4 : o / 4 * 4 = o) (ha4 : a / 4 * 4 = a)
    (h : portWordAt a = portWordAt o) : a = o := by
  have hk : a / 4 = o / 4 := portWordAt_register (by omega) (by rwa [Nat.mul_comm, ha4, Nat.mul_comm, ho4])
  omega

theorem State.storeWord_env (w : PortWord) (v : Word) (s : State) : (s.storeWord w v).env = s.env := by
  cases w <;> rfl

theorem State.storeWord_status (w : PortWord) (v : Word) (s : State) : (s.storeWord w v).status = s.status := by
  cases w <;> rfl

/-- Settles O41: the write is `storeWord` of one register, and no other offset of the port reaches that register. -/
theorem writtenRegisterReadsBack : Obligations.WrittenRegisterReadsBack := by
  intro s v hb p hp
  obtain ⟨hlt, h4, hc, hs⟩ := storedBits_offset p hp
  have hq := State.Quiet.storeWord s (portWordAt p.1) v
  have htb : (s.storeWord (portWordAt p.1) v).busy = false := by rw [State.busy, hq.phase]; exact hb
  have henv := State.storeWord_env (portWordAt p.1) v s
  refine ⟨s.storeWord (portWordAt p.1) v, ?_, ?_, fun a ha hne hcbuf hibuf => ?_, henv, hq.par,
    State.storeWord_status _ _ _, hq.sameBlock⟩
  · have := State.hostWrite_idle hb (a := p.1) (by omega) (by rwa [h4]) (by rwa [h4]) v
    rwa [h4] at this
  · rw [← hq.par, State.hostRead_reads htb (by omega), h4, henv, s.loadWord_storeWord_self v hp]
  · have ha4 : a / 4 * 4 / 4 * 4 = a / 4 * 4 := by omega
    have hat {o : Nat} (ho : o < 0x05C) (ho4 : o / 4 * 4 = o) (h : portWordAt (a / 4 * 4) = portWordAt o) :
        a / 4 * 4 = o := portWordAt_inj ho ho4 ha4 h
    have hreg {o : Nat} (ho : o < 0x05C) (ho4 : o / 4 * 4 = o) (h : portWordAt p.1 = portWordAt o) : p.1 = o :=
      portWordAt_inj ho ho4 h4 h
    have hload : (s.storeWord (portWordAt p.1) v).loadWord (portWordAt (a / 4 * 4)) =
        s.loadWord (portWordAt (a / 4 * 4)) := by
      refine s.loadWord_storeWord v (fun h => hne (hat hlt h4 h)) (fun h => ?_) (fun h => ?_)
      · obtain ⟨hsel, hidx⟩ := hcbuf (hat (o := 0x048) (by decide) rfl h)
        exact ⟨fun h => hsel (hreg (by decide) rfl h), fun h => hidx (hreg (by decide) rfl h)⟩
      · have hidx := hibuf (hat (o := 0x050) (by decide) rfl h)
        exact fun h => hidx (hreg (by decide) rfl h)
    rw [State.hostRead_reads hb ha, ← hload, ← henv, ← hq.par]
    exact State.hostRead_reads htb ha

end Sys2Proof.Machine

/-! Memories and the port (spec/20_memory.md): the canonical form and the range of every memory over a step, the bytes
a step takes from the port, and the accesses of the host: the word an address reaches, and reads and writes while
BUSY. -/

namespace Sys2Proof.Machine

/-! ### Every memory in its canonical form (20_memory.md R60) -/

/-- The canonical form of each memory under its own name: `State.memsCanonical` asks for them all
(`State.memsCanonical_iff`). -/
structure State.MemsWf (s : State) : Prop where
  prefixMem : memWf s.prefixMem
  suffixMem : memWf s.suffixMem
  stack : memWf s.stack
  ibuf : memWf s.ibuf
  gct : memWf s.gct
  lct : memWf s.lct
  cur : memWf s.cur
  prev : memWf s.prev
  scr : memWf s.scr

theorem State.memsCanonical_iff (s : State) : s.memsCanonical ↔ s.MemsWf :=
  ⟨fun ⟨a, b, c, d, e, f, g, h, i⟩ => ⟨a, b, c, d, e, f, g, h, i⟩,
    fun ⟨a, b, c, d, e, f, g, h, i⟩ => ⟨a, b, c, d, e, f, g, h, i⟩⟩

theorem memWf_nil {w : Nat} : memWf ([] : Mem w) := ⟨.nil, by simp⟩

theorem State.MemsWf.scratch {s : State} (hs : s.MemsWf) {st : Mem 8} {tp : BitVec 13} (hk : s.stackKept st tp)
    (f : Byte) (inc : Code) : (s.scratch st tp f inc).MemsWf := by
  obtain ⟨hwf, -, -⟩ := hk
  exact { hs with stack := hwf hs.stack }

theorem State.MemsWf.addEntry {s : State} (hs : s.MemsWf) (old : Code) : (s.addEntry old).MemsWf := by
  have hw : (s.writeEntry old).MemsWf :=
    { hs with prefixMem := writeMem_wf hs.prefixMem _ _, suffixMem := writeMem_wf hs.suffixMem _ _ }
  rcases State.addEntry_cases old s with ⟨he, -⟩ | ⟨he, -⟩
  · rw [he]; exact { hw with }
  · rw [he]; exact { hw with }

/-- A code class writes the stack by pushes, and the dictionary at most at AVAIL. -/
theorem CodeOutcome.memsWf {s t : State} {i : Instr} (hs : s.MemsWf) (h : CodeOutcome s i t) : t.MemsWf := by
  cases h with
  | clear => exact { hs with }
  | stop _ _ _ _ _ f inc hk => exact { hs.scratch hk f inc with }
  | first _ _ _ f hk => exact { hs.scratch hk f s.dec.incode with }
  | add _ old _ code _ _ _ f hk => exact (hs.scratch hk f code).addEntry old

/-- A step of the block writes the memories by operations that keep the canonical form; the steps not named write
none. -/
theorem BlockOutcome.memsWf {s t : State} (hs : s.MemsWf) (h : BlockOutcome s t) : t.MemsWf := by
  cases h with
  | init => exact { hs with cur := memWf_nil, prev := memWf_nil, scr := memWf_nil }
  | disposeKeep => exact { hs with scr := copyBelow_wf _ hs.cur hs.scr }
  | disposeFill => exact { hs with scr := fillRect_wf _ _ _ _ _ _ (copyBelow_wf _ hs.cur hs.scr) }
  | disposeRestore => exact { hs with scr := copyBelow_wf _ hs.prev hs.scr }
  | start =>
    exact { hs with
      prefixMem := clearRange_wf _ _ hs.prefixMem
      suffixMem := setBelow_wf _ _ hs.suffixMem }
  | pop => exact { hs with ibuf := writeMem_wf hs.ibuf _ _ }
  | code _ _ _ i _ t ho => exact ho.memsWf (s := s.takeCode) { hs with }
  | zerofillDrain | zerofillPlace | zerofillComplete => exact { hs with ibuf := clearRange_wf _ _ hs.ibuf }
  | place => exact { hs with scr := s.placeRows_wf _ _ hs.scr }
  | commit => exact { hs with prev := copyBelow_wf _ hs.cur hs.prev, cur := copyBelow_wf _ hs.scr hs.cur }
  | _ => exact { hs with }

/-- An operation of the host writes one entry of a color table, or clears every memory, or reaches none. -/
theorem HostOutcome.memsWf {s t : State} (hs : s.MemsWf) (h : HostOutcome s t) : t.MemsWf := by
  cases h with
  | quiet _ h =>
    exact {
      prefixMem := h.prefixMem ▸ hs.prefixMem
      suffixMem := h.suffixMem ▸ hs.suffixMem
      stack := h.stack ▸ hs.stack
      ibuf := h.ibuf ▸ hs.ibuf
      gct := by
        rcases h.gct with e | ⟨i, v, e⟩ <;> rw [e]
        · exact hs.gct
        · exact writeMem_wf hs.gct _ _
      lct := by
        rcases h.lct with e | ⟨i, v, e⟩ <;> rw [e]
        · exact hs.lct
        · exact writeMem_wf hs.lct _ _
      cur := h.cur ▸ hs.cur
      prev := h.prev ▸ hs.prev
      scr := h.scr ▸ hs.scr }
  | reset =>
    exact ⟨memWf_nil, memWf_nil, memWf_nil, memWf_nil, memWf_nil, memWf_nil, memWf_nil, memWf_nil, memWf_nil⟩
  | accept => exact { hs with }

/-- Settles O54: each outcome of a step of the block and of an operation of the host keeps the canonical form. -/
theorem stepKeepsMemoriesCanonical : Obligations.StepKeepsMemoriesCanonical := by
  intro s t hs h
  rw [State.memsCanonical_iff] at hs ⊢
  have hs' : s.takeTurn.MemsWf := { hs with }
  rcases step_outcome h with hb | hh
  · exact hb.memsWf hs'
  · exact hh.memsWf hs'

/-! ### Every memory inside its range (20_memory.md R60, R68) -/

/-- The range of each memory under its own name, and the bound of NPIX: `State.memsInRange` asks for them all
(`State.memsInRange_iff`). -/
structure State.MemsBelow (s : State) : Prop where
  prefixMem : memBelow Config.dictCap s.prefixMem
  suffixMem : memBelow Config.dictCap s.suffixMem
  stack : memBelow Config.stackCap s.stack
  ibuf : memBelow s.par.npixMax s.ibuf
  gct : memBelow 256 s.gct
  lct : memBelow 256 s.lct
  cur : memBelow s.canvasLen s.cur
  prev : memBelow s.canvasLen s.prev
  scr : memBelow s.canvasLen s.scr
  npix_le : s.dec.npix.toNat ≤ s.par.npixMax

theorem State.memsInRange_iff (s : State) : s.memsInRange ↔ s.MemsBelow :=
  ⟨fun ⟨a, b, c, d, e, f, g, h, i, j⟩ => ⟨a, b, c, d, e, f, g, h, i, j⟩,
    fun ⟨a, b, c, d, e, f, g, h, i, j⟩ => ⟨a, b, c, d, e, f, g, h, i, j⟩⟩

theorem memBelow_nil {w : Nat} (n : Nat) : memBelow n ([] : Mem w) := by simp

/-- IW * IH fits 32 bits (42_commands.md R191), so CHECK writes it into NPIX as it is. -/
theorem State.setNpix_npix (s : State) : s.setNpix.dec.npix.toNat = s.framePixels := by
  have h : s.framePixels ≤ 65535 * 65535 := Nat.mul_le_mul (by omega) (by omega)
  rw [State.setNpix_dec, BitVec.toNat_ofNat, Nat.mod_eq_of_lt (by omega)]

/-- CHECK sets NPIX after the test against NPIX_MAX (42_commands.md R184, R186). -/
theorem State.MemsBelow.setNpix {s : State} (hs : s.MemsBelow) (hn : s.framePixels ≤ s.par.npixMax) :
    s.setNpix.MemsBelow :=
  { hs with npix_le := s.setNpix_npix.trans_le hn }

/-- Decode start writes the dictionary below CLEAR (40_lzw.md R111), which is in its range then. -/
theorem State.MemsBelow.decodeStart {s : State} (hs : s.MemsBelow) {b : Byte} (h : b.toNat < 12) :
    (s.clearDecoder.consumeByte.setCodeSize b).MemsBelow := by
  have hr := s.setCodeSize_inRange h
  have hc : (s.clearDecoder.consumeByte.setCodeSize b).dec.clear.toNat ≤ Config.dictCap :=
    (Nat.le_add_right _ 2).trans (hr.clear_le_avail.trans hr.avail_le)
  exact { hs with
    prefixMem := clearRange_below _ _ hs.prefixMem
    suffixMem := setBelow_below _ hs.suffixMem hc }

/-- The rectangle of the last frame is clipped to the canvas (41_compositor.md R153). -/
theorem State.MemsBelow.fillLast {s : State} (hs : s.MemsBelow) (v : Word) : (s.fillLast v).MemsBelow :=
  { hs with scr := fillRect_below v _ hs.scr (Nat.le_refl _) (clip_le _ _ _) (clip_le _ _ _) }

/-- POP writes IBUF at PI, below NPIX. -/
theorem State.MemsBelow.pop {s : State} (hs : s.MemsBelow) (hp : s.dec.pi.toNat < s.dec.npix.toNat) :
    s.pop.MemsBelow :=
  { hs with ibuf := writeMem_below hs.ibuf (hp.trans_le hs.npix_le) _ }

theorem State.MemsBelow.scratch {s : State} (hs : s.MemsBelow) {st : Mem 8} {tp : BitVec 13} (hk : s.stackKept st tp)
    (f : Byte) (inc : Code) : (s.scratch st tp f inc).MemsBelow := by
  obtain ⟨-, hbelow, -⟩ := hk
  exact { hs with stack := hbelow hs.stack }

theorem State.MemsBelow.addEntry {s : State} (hs : s.MemsBelow) (ha : s.dec.avail.toNat < Config.dictCap)
    (old : Code) : (s.addEntry old).MemsBelow := by
  have hw : (s.writeEntry old).MemsBelow :=
    { hs with prefixMem := writeMem_below hs.prefixMem ha _, suffixMem := writeMem_below hs.suffixMem ha _ }
  rcases State.addEntry_cases old s with ⟨he, -⟩ | ⟨he, -⟩
  · rw [he]; exact { hw with }
  · rw [he]; exact { hw with }

/-- A code class keeps the ranges: an entry is added only while AVAIL is below 4096 (30_encoding.md R90). -/
theorem CodeOutcome.memsBelow {s t : State} {ctx : CodeCtx} {c : Code} (hs : s.MemsBelow)
    (ha : s.dec.avail.toNat ≤ Config.dictCap) (hctx : ctx.avail = s.dec.avail)
    (h : CodeOutcome s (classify ctx c) t) : t.MemsBelow := by
  generalize hi : classify ctx c = i at h
  cases h with
  | clear => exact { hs with }
  | stop _ _ _ _ _ f inc hk => exact { hs.scratch hk f inc with }
  | first _ _ _ f hk => exact { hs.scratch hk f s.dec.incode with }
  | add i old _ code hcode _ _ f hk =>
    subst hi
    obtain ⟨-, -, hne, -⟩ := classify_adds hcode
    have hlt : s.dec.avail.toNat < Config.dictCap := Nat.lt_of_le_of_ne ha (hctx ▸ hne)
    exact (hs.scratch hk f code).addEntry hlt old

/-- A step of the block writes every memory inside its range; the steps not named write none. -/
theorem BlockOutcome.memsBelow {s t : State} (hd : s.decoderInRange) (hs : s.MemsBelow) (h : BlockOutcome s t) :
    t.MemsBelow := by
  cases h with
  | checkDecode _ _ hn => exact { hs.setNpix hn with }
  | checkFrame _ _ _ hn => exact { hs.setNpix hn with }
  | init => exact { hs with cur := memBelow_nil _, prev := memBelow_nil _, scr := memBelow_nil _ }
  | disposeKeep => exact { hs with scr := copyBelow_below hs.cur hs.scr }
  | disposeFill =>
    have hk : s.copyCurToScr.MemsBelow := { hs with scr := copyBelow_below hs.cur hs.scr }
    exact { hk.fillLast s.fillColor with }
  | disposeRestore => exact { hs with scr := copyBelow_below hs.prev hs.scr }
  | start _ _ b _ h12 => exact hs.decodeStart h12
  | pop _ hp _ => exact hs.pop hp
  | code hdec _ _ i hi t ho =>
    subst hi
    have hr : s.dec.InRange := s.decoderInRange_iff.1 hd hdec
    exact ho.memsBelow (s := s.takeCode) { hs with } hr.avail_le rfl
  | zerofillDrain | zerofillPlace | zerofillComplete => exact { hs with ibuf := clearRange_below _ _ hs.ibuf }
  | place => exact { hs with scr := s.placeRows_below _ _ hs.scr (Nat.le_refl _) }
  | commit => exact { hs with prev := copyBelow_below hs.cur hs.prev, cur := copyBelow_below hs.scr hs.cur }
  | _ => exact { hs with }

/-- An operation of the host keeps the ranges: a color-table window names one of 256 entries, and RESET clears every
memory and NPIX. -/
theorem HostOutcome.memsBelow {s t : State} (hs : s.MemsBelow) (h : HostOutcome s t) : t.MemsBelow := by
  cases h with
  | quiet _ h =>
    have hl : t.canvasLen = s.canvasLen := State.canvasLen_eq h.activeSize
    exact {
      prefixMem := h.prefixMem ▸ hs.prefixMem
      suffixMem := h.suffixMem ▸ hs.suffixMem
      stack := h.stack ▸ hs.stack
      ibuf := by rw [h.par, h.ibuf]; exact hs.ibuf
      gct := by
        rcases h.gct with e | ⟨i, v, e⟩ <;> rw [e]
        · exact hs.gct
        · exact writeMem_below hs.gct i.isLt _
      lct := by
        rcases h.lct with e | ⟨i, v, e⟩ <;> rw [e]
        · exact hs.lct
        · exact writeMem_below hs.lct i.isLt _
      cur := by rw [hl, h.cur]; exact hs.cur
      prev := by rw [hl, h.prev]; exact hs.prev
      scr := by rw [hl, h.scr]; exact hs.scr
      npix_le := by rw [h.par, h.dec]; exact hs.npix_le }
  | reset =>
    exact ⟨memBelow_nil _, memBelow_nil _, memBelow_nil _, memBelow_nil _, memBelow_nil _, memBelow_nil _,
      memBelow_nil _, memBelow_nil _, memBelow_nil _, Nat.zero_le _⟩
  | accept => exact { hs with }

/-- Settles O56: each outcome of a step of the block and of an operation of the host keeps the ranges. -/
theorem stepKeepsMemoriesInRange : Obligations.StepKeepsMemoriesInRange := by
  rintro s t ⟨hd, hs⟩ h
  rw [State.memsInRange_iff] at hs ⊢
  have hs' : s.takeTurn.MemsBelow := { hs with }
  have hd' : s.takeTurn.decoderInRange := (State.decoderInRange_congr rfl rfl rfl).2 hd
  rcases step_outcome h with hb | hh
  · exact hb.memsBelow hd' hs'
  · exact hh.memsBelow hs'

/-! ### The byte input port (20_memory.md R64) -/

/-- Past the reader's bytes a port that repeats a cycle answers the cycle's bytes in turn. -/
theorem InPort.answer_cycle_past {p : InPort} {first : Byte} {rest : List Byte} (hp : p.buf[p.pos]? = none)
    (he : p.atEnd = .cycle first rest) :
    p.answer = .byte ((first :: rest).getD ((p.pos - p.buf.length) % (rest.length + 1)) first) := by
  rw [InPort.answer, hp, he]

/-- Past the reader's bytes a free stream answers the byte it has at the position. -/
theorem InPort.answer_free {p : InPort} {stream : Nat} (hp : p.buf[p.pos]? = none) (he : p.atEnd = .free stream) :
    p.answer = .byte (Config.endlessByte stream p.pos) := by
  rw [InPort.answer, hp, he]

/-- A step of the block takes no byte, or takes and counts the one byte the port answers, in DECODE or in DRAIN. -/
theorem BlockOutcome.takes_byte {s t : State} (h : BlockOutcome s t) :
    (t.env = s.env ∧ t.bytesIn = s.bytesIn) ∨
      (t.env = { s.env with port := { s.env.port with pos := s.env.port.pos + 1 } } ∧ t.bytesIn = s.bytesIn + 1 ∧
        (s.phase = .decode ∨ s.phase = .drain) ∧ ∃ b, s.env.port.answer = .byte b) := by
  cases h with
  | startBadMcs hp _ b hb | start hp _ b hb => exact .inr ⟨rfl, rfl, .inl hp, b, hb⟩
  | loadEnd hd b hb | loadLength hd b hb | loadData hd b hb =>
    exact .inr ⟨rfl, rfl, .inl (s.decoding_iff.1 hd).1, b, hb⟩
  | drainRest hp b hb | drainCount hp b hb | drainPlace hp b hb | drainComplete hp b hb =>
    exact .inr ⟨rfl, rfl, .inr hp, b, hb⟩
  | code _ _ _ i _ t ho =>
    obtain ⟨hbytes, ⟨henv, -⟩, -⟩ := ho.frame
    exact .inl ⟨henv, hbytes⟩
  | _ => exact .inl ⟨rfl, rfl⟩

/-- Settles O51: each outcome of a step of the block takes at most one byte; the port answers from its bytes, and past
them as its end says. -/
theorem blockReadsForwardOneByteAtMost : Obligations.BlockReadsForwardOneByteAtMost := by
  refine ⟨fun s t h => (State.blockStep_outcome h).takes_byte, fun p b h => InPort.answer_of_buf h, fun p hp => ?_⟩
  have hnone : p.buf[p.pos]? = none := List.getElem?_eq_none hp
  refine ⟨fun he => InPort.answer_err.2 ⟨hnone, he⟩, fun he => InPort.answer_waiting.2 ⟨hnone, he⟩,
    fun first rest b he hb => ?_, fun stream he => ⟨_, InPort.answer_free hnone he⟩⟩
  rw [InPort.answer_cycle_past hnone he, List.getD_eq_getElem?_getD, hb, Option.getD_some]

/-! ### The word an address reaches (20_memory.md R62) -/

theorem portWord_aligned (par : Params) {a : Nat} (ha : a < 4096) :
    portWord par (par.base + a) = portWord par (par.base + a / 4 * 4) := by
  have h4 : a / 4 * 4 / 4 * 4 = a / 4 * 4 := by omega
  rw [portWord_offset par ha, portWord_offset par (by omega), h4]

theorem State.hostWrite_congr (s : State) {a b : Nat} (h : portWord s.par a = portWord s.par b) (v : Word) :
    s.hostWrite a v = s.hostWrite b v := by
  rw [State.hostWrite, h, State.hostWrite]

theorem State.hostRead_congr (s : State) {a b : Nat} (h : portWord s.par a = portWord s.par b) :
    s.hostRead a = s.hostRead b := by
  rw [State.hostRead, h, State.hostRead]

/-- Settles O40: an access depends on its address through `portWord` alone. -/
theorem accessReachesTheAlignedWord : Obligations.AccessReachesTheAlignedWord := by
  intro s a v
  constructor
  · intro ha
    have h := portWord_aligned s.par ha
    exact ⟨s.hostWrite_congr h v, s.hostRead_congr h⟩
  · intro ha
    exact if_neg (by omega)

/-! ### Accesses while BUSY (20_memory.md R69, R70) -/

theorem State.request_busy {s : State} (h : s.busy = true) (cmd : BitVec 4) (drain : Bool) :
    s.request cmd drain = s.setBwerr := by
  simp [State.request, h]

theorem State.writeWord_busy {s : State} (h : s.busy = true) {w : PortWord} (hw : w ≠ .status) (v : Word) :
    s.writeWord w v = s.setBwerr := by
  simp [State.writeWord, h, hw]

/-- While BUSY a write to CTRL of a command other than RESET is ignored and sets BWERR (42_commands.md R180, case 2). -/
theorem State.hostWrite_ctrl_busy {s : State} (h : s.busy = true) {v : Word} (hv : v.extractLsb' 0 4 ≠ 1) :
    s.hostWrite s.par.base v = .next s.setBwerr := by
  refine State.hostWrite_ctrl_cases (P := fun r => r = .next s.setBwerr) (fun h1 => ?_) (fun _ => ?_) (fun _ _ => ?_)
  · rw [toNat_mod_sixteen] at h1
    exact absurd (BitVec.eq_of_toNat_eq h1) hv
  · simp [exec, execNop, h]
  · rw [State.request_busy h]

/-- Settles O39: by the word that the aligned offset reaches: CTRL, STATUS, or another. -/
theorem busyWriteIsIgnored : Obligations.BusyWriteIsIgnored := by
  intro s a v hb ha
  have halign : s.hostWrite (s.par.base + a) v = s.hostWrite (s.par.base + a / 4 * 4) v :=
    s.hostWrite_congr (portWord_aligned _ ha) v
  refine ⟨fun h8 => ?_, fun h4 hv => ?_, fun h4 hv => ?_, fun h4 h8 => ?_⟩
  · obtain ⟨hc, hs⟩ := portWordAt_other (a := a / 4 * 4) (by omega)
    rw [s.hostWrite_word v (portWord_offset _ ha) hc, State.writeWord_busy hb hs]
    rfl
  · rw [halign, show a / 4 * 4 = 0 by omega]
    exact State.hostWrite_ctrl_busy hb hv
  · rw [halign, show a / 4 * 4 = 0 by omega]
    have hr : decodeCtrl v = .reset := decodeCtrl_reset (by rw [toNat_mod_sixteen, hv]; rfl)
    exact (s.hostWrite_ctrl v).trans (by rw [hr])
  · rw [halign, show a / 4 * 4 = 4 by omega]
    exact s.hostWrite_status v

/-- CBUF_DATA, IBUF_DATA and the color-table windows are memories. -/
theorem portWordAt_isRam {o : Nat} (h : o = 0x048 ∨ o = 0x050 ∨ (0x400 ≤ o ∧ o < 0xC00)) :
    (portWordAt o).isRam = true := by
  rcases h with rfl | rfl | ⟨hlo, hhi⟩
  · rfl
  · rfl
  · by_cases h8 : o < 0x800
    · rw [portWordAt, if_pos ⟨hlo, h8⟩, PortWord.isRam]
    · rw [portWordAt, if_neg (by omega), if_pos (by omega), PortWord.isRam]

theorem State.readWord_free {s : State} (hb : s.busy = true) {w : PortWord} (hw : w.isRam = true) :
    s.readWord w = s.deliverFree Config.freeWord := by
  simp [State.readWord, hb, hw]

/-- Settles O45: the value read is the next free one, and the read delivers it. -/
theorem busyMemoryReadHasNoSideEffect : Obligations.BusyMemoryReadHasNoSideEffect := by
  intro s a hb ha hram
  refine ⟨Config.freeWord s.env.draws, ?_⟩
  rw [s.hostRead_offset ha, State.readWord_free hb (portWordAt_isRam (by omega))]
  rfl

/-! ### Register reads (20_memory.md R70, 10_state.md R24 to R44) -/

theorem State.afterLoad_register (s : State) {w : PortWord} (hw : w.isRam = false) : State.afterLoad w s = s := by
  cases w with
  | cbufData | ibufData | gct | lct => cases hw
  | _ => rfl

/-- A read of a register delivers its value and changes nothing else, BUSY or not. -/
theorem State.hostRead_register (s : State) {o : Nat} (ho : o < 4096) (hw : (portWordAt (o / 4 * 4)).isRam = false) :
    s.hostRead (s.par.base + o) = s.deliver (s.loadWord (portWordAt (o / 4 * 4))) := by
  rw [s.hostRead_offset ho, s.readWord_plain hw, State.afterLoad_register _ hw]

theorem XY.toWord_fields (p : XY) : p.toWord.extractLsb' 0 16 = p.x ∧ p.toWord.extractLsb' 16 16 = p.y := by
  simp [XY.toWord, BitVec.extractLsb'_or, extractLsb'_field_self, extractLsb'_field_apart]

/-- A register of one bit. -/
theorem flag_zero_fields (b : Bool) : (flag 0 b).getLsbD 0 = b ∧ (flag 0 b).extractLsb' 1 31 = 0 := by
  simp [flag, extractLsb'_field_apart]

theorem FrameCtrl.toWord_fields (c : FrameCtrl) :
    c.toWord.extractLsb' 0 3 = c.dispose ∧ c.toWord.getLsbD 3 = c.transp ∧ c.toWord.getLsbD 4 = c.interlace ∧
      c.toWord.getLsbD 5 = c.lctPresent ∧ c.toWord.extractLsb' 6 2 = 0 ∧ c.toWord.extractLsb' 8 8 = c.tidx ∧
      c.toWord.extractLsb' 16 16 = 0 := by
  simp [FrameCtrl.toWord, flag, BitVec.extractLsb'_or, extractLsb'_field_self, extractLsb'_field_apart]

theorem State.lastCtrlWord_fields (s : State) :
    s.lastCtrlWord.extractLsb' 0 3 = s.lastDispose ∧ s.lastCtrlWord.getLsbD 31 = s.lastValid ∧
      s.lastCtrlWord.extractLsb' 3 28 = 0 := by
  simp [State.lastCtrlWord, flag, BitVec.extractLsb'_or, extractLsb'_field_self, extractLsb'_field_apart]

theorem State.lzwStateWord_fields (s : State) :
    s.lzwStateWord.extractLsb' 0 4 = s.dec.mcs ∧ s.lzwStateWord.extractLsb' 4 4 = s.dec.csize ∧
      s.lzwStateWord.extractLsb' 8 13 = s.dec.avail ∧ s.lzwStateWord.extractLsb' 21 11 = 0 := by
  simp [State.lzwStateWord, BitVec.extractLsb'_or, extractLsb'_field_self, extractLsb'_field_apart]

theorem State.cbufSelWord_fields (s : State) :
    (field 0 s.cbufSel).extractLsb' 0 2 = s.cbufSel ∧ (field 0 s.cbufSel).extractLsb' 2 30 = 0 :=
  ⟨extractLsb'_field_self _ (by decide), extractLsb'_field_apart _ (by decide)⟩

/-- Settles O46: each offset holds its register, which no memory window is, and each register has its fields. -/
theorem registerReadsReturnTheirValue : Obligations.RegisterReadsReturnTheirValue := by
  intro s got gotPair gotBit
  have read {o : Nat} (ho : o < 4096) (hw : (portWordAt (o / 4 * 4)).isRam = false) :
      got o (s.loadWord (portWordAt (o / 4 * 4))) := s.hostRead_register ho hw
  have pair {o : Nat} {p : XY} (h : got o p.toWord) : gotPair o p := ⟨_, h, p.toWord_fields⟩
  have bit {o : Nat} {b : Bool} (h : got o (flag 0 b)) : gotBit o b := ⟨_, h, flag_zero_fields b⟩
  exact ⟨
    read (by decide) rfl,
    read (by decide) rfl,
    bit (read (by decide) rfl),
    pair (read (by decide) rfl),
    read (by decide) rfl,
    bit (read (by decide) rfl),
    pair (read (by decide) rfl),
    pair (read (by decide) rfl),
    ⟨_, read (by decide) rfl, s.frameCtrl.toWord_fields⟩,
    pair (read (by decide) rfl),
    pair (read (by decide) rfl),
    ⟨_, read (by decide) rfl, s.lastCtrlWord_fields⟩,
    read (by decide) rfl,
    read (by decide) rfl,
    ⟨_, read (by decide) rfl, s.lzwStateWord_fields⟩,
    read (by decide) rfl,
    ⟨_, read (by decide) rfl, s.cbufSelWord_fields⟩,
    read (by decide) rfl,
    read (by decide) rfl,
    pair (read (by decide) rfl),
    read (by decide) rfl⟩

end Sys2Proof.Machine

/-! The three encodings (spec/30_encoding.md): the CTRL words, the table of the code classes, the DISPOSE methods, and
the round trip of each. -/

namespace Sys2Proof

/-! ### CTRL words (30_encoding.md R91) -/

@[simp] theorem ctrlWord_toNat_mod_sixteen (cmd : BitVec 4) (drain : Bool) :
    (ctrlWord cmd drain).toNat % 16 = cmd.toNat := by
  have h : (ctrlWord cmd drain).extractLsb' 0 4 = cmd := by
    rw [ctrlWord, BitVec.extractLsb'_setWidth_of_le (by decide), BitVec.extractLsb'_append_eq_right]
  rw [Machine.toNat_mod_sixteen, h]

@[simp] theorem ctrlWord_getElem_four (cmd : BitVec 4) (drain : Bool) : (ctrlWord cmd drain)[4] = drain := by
  rw [ctrlWord, BitVec.getElem_setWidth, BitVec.getLsbD_append]
  simp

/-- The command and the DRAIN modifier of a CTRL word can be read back, and so can its instruction. -/
theorem decodeCtrl_encodeCtrl {i : Instr} (h : i.isCtrl = true) : decodeCtrl (encodeCtrl i) = i := by
  cases i with
  | badcode | eoi | clear | first | dictfull | kwkwk | literal | dict => cases h
  | disposeUnspecified | disposeNone | disposeBackground | disposePrevious | disposeReserved => cases h
  | _ => simp [encodeCtrl, decodeCtrl]

/-! ### The table of the code classes (30_encoding.md R90) -/

theorem CodeCtx.legal_iff (ctx : CodeCtx) : ctx.legal = true ↔
    ctx.eoi.toNat = ctx.clear.toNat + 1 ∧ ctx.clear.toNat + 2 ≤ ctx.avail.toNat ∧ ctx.avail.toNat ≤ 4096 ∧
      1 ≤ ctx.csize.toNat ∧ ctx.csize.toNat ≤ 12 := by
  simp [CodeCtx.legal, and_assoc]

theorem CodeCtx.ordinary_iff (ctx : CodeCtx) (c : Code) : ctx.ordinary c = true ↔
    c.toNat ≤ ctx.avail.toNat ∧ c.toNat ≠ ctx.eoi.toNat ∧ c.toNat ≠ ctx.clear.toNat := by
  simp [CodeCtx.ordinary, and_assoc]

/-- The table of R90 as a relation: each class with the whole condition for it, in which the order of the rows plays no
part. Under legal registers it says what `classify` answers (`CodeCtx.HasClass.classify_eq`,
`CodeCtx.hasClass_classify`). -/
inductive CodeCtx.HasClass (ctx : CodeCtx) (c : Code) : Instr → Prop
  | badcode (h : ctx.avail.toNat < c.toNat) : HasClass ctx c (.badcode c)
  | eoi (h : c.toNat = ctx.eoi.toNat) : HasClass ctx c .eoi
  | clear (h : c.toNat = ctx.clear.toNat) : HasClass ctx c .clear
  | first (h : ctx.ordinary c = true) (hold : ctx.old = none) : HasClass ctx c (.first c)
  | dictfull (h : ctx.ordinary c = true) (hold : ctx.old ≠ none) (hfull : ctx.avail.toNat = 4096) :
      HasClass ctx c (.dictfull c)
  | kwkwk (hold : ctx.old ≠ none) (hroom : ctx.avail.toNat < 4096) (h : c.toNat = ctx.avail.toNat) :
      HasClass ctx c (.kwkwk c)
  | literal (hold : ctx.old ≠ none) (hroom : ctx.avail.toNat < 4096) (h : c.toNat < ctx.clear.toNat) :
      HasClass ctx c (.literal c)
  | dict (hold : ctx.old ≠ none) (hroom : ctx.avail.toNat < 4096) (hlo : ctx.clear.toNat + 2 ≤ c.toNat)
      (hhi : c.toNat < ctx.avail.toNat) : HasClass ctx c (.dict c)

/-- The condition of a row excludes the rows before it. -/
theorem CodeCtx.HasClass.classify_eq {ctx : CodeCtx} {c : Code} {i : Instr} (h : ctx.HasClass c i)
    (hl : ctx.legal = true) : classify ctx c = i := by
  obtain ⟨heoi, havail, -, -, -⟩ := ctx.legal_iff.1 hl
  have notFirst (hold : ctx.old ≠ none) : ¬ctx.old.isNone = true := mt Option.isNone_iff_eq_none.1 hold
  cases h with
  | badcode h => exact if_pos h
  | eoi h => rw [classify, if_neg (by omega), if_pos h]
  | clear h => rw [classify, if_neg (by omega), if_neg (by omega), if_pos h]
  | first h hold =>
    obtain ⟨hle, hne, hnc⟩ := (ctx.ordinary_iff c).1 h
    rw [classify, if_neg (by omega), if_neg hne, if_neg hnc, if_pos (Option.isNone_iff_eq_none.2 hold)]
  | dictfull h hold hfull =>
    obtain ⟨hle, hne, hnc⟩ := (ctx.ordinary_iff c).1 h
    rw [classify, if_neg (by omega), if_neg hne, if_neg hnc, if_neg (notFirst hold), if_pos hfull]
  | kwkwk hold hroom h =>
    rw [classify, if_neg (by omega), if_neg (by omega), if_neg (by omega), if_neg (notFirst hold), if_neg hroom.ne,
      if_pos h]
  | literal hold hroom h =>
    rw [classify, if_neg (by omega), if_neg (by omega), if_neg (by omega), if_neg (notFirst hold), if_neg hroom.ne,
      if_neg (by omega), if_pos h]
  | dict hold hroom hlo hhi =>
    rw [classify, if_neg (by omega), if_neg (by omega), if_neg (by omega), if_neg (notFirst hold), if_neg hroom.ne,
      if_neg (by omega), if_neg (by omega)]

/-- Each branch of `classify` is reached under the condition of its row. -/
theorem CodeCtx.hasClass_classify {ctx : CodeCtx} (hl : ctx.legal = true) (c : Code) :
    ctx.HasClass c (classify ctx c) := by
  obtain ⟨heoi, -, hcap, -, -⟩ := ctx.legal_iff.1 hl
  have ordinary (hbad : ¬ctx.avail.toNat < c.toNat) (heq : c.toNat ≠ ctx.eoi.toNat)
      (hclear : c.toNat ≠ ctx.clear.toNat) : ctx.ordinary c = true :=
    (ctx.ordinary_iff c).2 ⟨Nat.le_of_not_lt hbad, heq, hclear⟩
  unfold classify
  split_ifs with hbad heq hclear hold hfull hnext hlit
  · exact .badcode hbad
  · exact .eoi heq
  · exact .clear hclear
  all_goals rw [Option.isNone_iff_eq_none] at hold
  · exact .first (ordinary hbad heq hclear) hold
  · exact .dictfull (ordinary hbad heq hclear) hold hfull
  · exact .kwkwk hold (Nat.lt_of_le_of_ne hcap hfull) hnext
  · exact .literal hold (Nat.lt_of_le_of_ne hcap hfull) hlit
  · exact .dict hold (Nat.lt_of_le_of_ne hcap hfull) (by omega) (by omega)

/-- Settles O2: a clause gives the condition of one row of the table. -/
theorem codeClassFollowsTheTable : Obligations.CodeClassFollowsTheTable := by
  intro ctx code hl c ordinary
  obtain ⟨-, -, hcap, -, -⟩ := ctx.legal_iff.1 hl
  have room (h : ctx.avail.toNat ≠ 4096) : ctx.avail.toNat < 4096 := Nat.lt_of_le_of_ne hcap h
  have isOrdinary (h : ordinary) : ctx.ordinary code = true := (ctx.ordinary_iff code).2 h
  have row {i : Instr} (h : ctx.HasClass code i) : classify ctx code = i := h.classify_eq hl
  exact ⟨
    fun h => row (.badcode h),
    fun h => row (.eoi h),
    fun h => row (.clear h),
    fun ho hold => row (.first (isOrdinary ho) hold),
    fun ho hold hfull => row (.dictfull (isOrdinary ho) hold hfull),
    fun _ hold hfull h => row (.kwkwk hold (room hfull) h),
    fun _ hold hfull h => row (.literal hold (room hfull) h),
    fun _ hold hfull hlo hhi => row (.dict hold (room hfull) hlo hhi)⟩

/-! ### Codes and their encodings (30_encoding.md R83) -/

theorem setWidth_eq_of_toNat_eq {m n : Nat} {a : BitVec m} {b : BitVec n} (h : a.toNat = b.toNat) (w : Nat) :
    a.setWidth w = b.setWidth w :=
  BitVec.eq_of_toNat_eq (by rw [BitVec.toNat_setWidth, BitVec.toNat_setWidth, h])

/-- The encoding of a class is the code that has it. -/
theorem CodeCtx.HasClass.encodeCode_eq {ctx : CodeCtx} {c : Code} {i : Instr} (h : ctx.HasClass c i) :
    encodeCode ctx i = c.setWidth 32 := by
  cases h with
  | eoi h => exact setWidth_eq_of_toNat_eq h.symm 32
  | clear h => exact setWidth_eq_of_toNat_eq h.symm 32
  | _ => rfl

theorem CodeCtx.HasClass.isCode {ctx : CodeCtx} {c : Code} {i : Instr} (h : ctx.HasClass c i)
    (hf : ctx.fits c.toNat = true) : i.isCode ctx = true := by
  cases h with
  | eoi h => rwa [Instr.isCode, ← h]
  | clear h => rwa [Instr.isCode, ← h]
  | badcode h => simp [Instr.isCode, hf, h]
  | first h hold => simp [Instr.isCode, hf, h, hold]
  | dictfull h hold hfull => simp [Instr.isCode, hf, h, hfull, Option.isSome_iff_ne_none, hold]
  | kwkwk hold hroom h =>
    rw [h] at hf
    simp [Instr.isCode, hf, h, hroom, Option.isSome_iff_ne_none, hold]
  | literal hold hroom h => simp [Instr.isCode, hf, h, hroom, Option.isSome_iff_ne_none, hold]
  | dict hold hroom hlo hhi => simp [Instr.isCode, hf, hlo, hhi, hroom, Option.isSome_iff_ne_none, hold]

/-- Settles O3: both parts hold of every row of the table. -/
theorem encodeInvertsClassify : Obligations.EncodeInvertsClassify := by
  intro ctx code hl hf
  have h := CodeCtx.hasClass_classify hl code
  exact ⟨by rw [Instr.wfIn, hl, h.isCode hf, Bool.and_self], h.encodeCode_eq⟩

/-- The width of a code is at most 12, so that what fits in it is a code. -/
theorem CodeCtx.lt_of_fits {ctx : CodeCtx} {v : Nat} (hl : ctx.legal = true) (h : ctx.fits v = true) : v < 4096 := by
  obtain ⟨-, -, -, -, hw⟩ := ctx.legal_iff.1 hl
  calc v < 2 ^ ctx.csize.toNat := of_decide_eq_true h
    _ ≤ 2 ^ 12 := Nat.pow_le_pow_right (by decide) hw

/-- An instruction that is a code has a code, which fits in the width. -/
theorem CodeCtx.exists_hasClass {ctx : CodeCtx} {i : Instr} (hl : ctx.legal = true) (hi : i.isCode ctx = true) :
    ∃ c : Code, ctx.fits c.toNat = true ∧ ctx.HasClass c i := by
  have register {v : Nat} (hv : ctx.fits v = true) : ∃ c : Code, c.toNat = v :=
    ⟨BitVec.ofNat 12 v, by rw [BitVec.toNat_ofNat, Nat.mod_eq_of_lt (lt_of_fits hl hv)]⟩
  cases i with
  | eoi =>
    obtain ⟨c, hc⟩ := register hi
    exact ⟨c, hc ▸ hi, .eoi hc⟩
  | clear =>
    obtain ⟨c, hc⟩ := register hi
    exact ⟨c, hc ▸ hi, .clear hc⟩
  | badcode c =>
    simp only [Instr.isCode, Bool.and_eq_true, decide_eq_true_eq] at hi
    obtain ⟨hf, h⟩ := hi
    exact ⟨c, hf, .badcode h⟩
  | first c =>
    simp only [Instr.isCode, Bool.and_eq_true, Option.isNone_iff_eq_none] at hi
    obtain ⟨⟨hf, h⟩, hold⟩ := hi
    exact ⟨c, hf, .first h hold⟩
  | dictfull c =>
    simp only [Instr.isCode, Bool.and_eq_true, beq_iff_eq, Option.isSome_iff_ne_none] at hi
    obtain ⟨⟨⟨hf, h⟩, hold⟩, hfull⟩ := hi
    exact ⟨c, hf, .dictfull h hold hfull⟩
  | kwkwk c =>
    simp only [Instr.isCode, Bool.and_eq_true, decide_eq_true_eq, beq_iff_eq, Option.isSome_iff_ne_none] at hi
    obtain ⟨⟨⟨hf, hold⟩, hroom⟩, h⟩ := hi
    exact ⟨c, hf, .kwkwk hold hroom h⟩
  | literal c =>
    simp only [Instr.isCode, Bool.and_eq_true, decide_eq_true_eq, Option.isSome_iff_ne_none] at hi
    obtain ⟨⟨⟨hf, hold⟩, hroom⟩, h⟩ := hi
    exact ⟨c, hf, .literal hold hroom h⟩
  | dict c =>
    simp only [Instr.isCode, Bool.and_eq_true, decide_eq_true_eq, Option.isSome_iff_ne_none] at hi
    obtain ⟨⟨⟨⟨hf, hold⟩, hroom⟩, hlo⟩, hhi⟩ := hi
    exact ⟨c, hf, .dict hold hroom hlo hhi⟩
  | _ => cases hi

/-- A code that fits in the width is decoded as its class. -/
theorem decode_code {ctx : CodeCtx} {c : Code} (hf : ctx.fits c.toNat = true) :
    decode (.code ctx) (c.setWidth 32) = .ok (classify ctx c) := by
  have hc : (c.setWidth 32).toNat = c.toNat := BitVec.toNat_setWidth_of_le (by decide)
  have hw : (c.setWidth 32).setWidth 12 = c := by simp
  rw [decode, hc, hf, hw, decide_eq_true c.isLt]
  rfl

/-! ### DISPOSE methods (30_encoding.md R86) -/

theorem decodeMethod_reserved {m : BitVec 3} (h : 4 ≤ m.toNat) : decodeMethod m = .disposeReserved m := by
  unfold decodeMethod
  split
  on_goal 5 => rfl
  all_goals omega

theorem decode_dispose (m : BitVec 3) : decode .dispose (m.setWidth 32) = .ok (decodeMethod m) := by
  have hm : (m.setWidth 32).toNat = m.toNat := BitVec.toNat_setWidth_of_le (by decide)
  have hw : (m.setWidth 32).setWidth 3 = m := by simp
  rw [decode, hm, hw, if_pos m.isLt]

theorem decode_encodeMethod {i : Instr} (h : i.isDispose = true) : decode .dispose (encodeMethod i) = .ok i := by
  cases i with
  | disposeUnspecified | disposeNone | disposeBackground | disposePrevious => rfl
  | disposeReserved m => exact (decode_dispose m).trans (congrArg _ (decodeMethod_reserved (of_decide_eq_true h)))
  | _ => cases h

/-! ### The round trip in each format -/

/-- Settles O1: a CTRL word and a method give back their fields, and a code its class. -/
theorem decodeInvertsEncode : Obligations.DecodeInvertsEncode := by
  intro f i hwf
  cases f with
  | ctrl => exact congrArg _ (decodeCtrl_encodeCtrl hwf)
  | code ctx =>
    obtain ⟨hl, hi⟩ := Bool.and_eq_true_iff.1 hwf
    obtain ⟨c, hf, hc⟩ := CodeCtx.exists_hasClass hl hi
    calc decode (.code ctx) (encodeCode ctx i) = .ok (classify ctx c) := by rw [hc.encodeCode_eq, decode_code hf]
      _ = .ok i := by rw [hc.classify_eq hl]
  | dispose => exact decode_encodeMethod hwf

/-- Settles O5: the decoder runs on each word. -/
theorem sampleEncodingsDecode : Obligations.SampleEncodingsDecode := by
  unfold Obligations.SampleEncodingsDecode
  decide

end Sys2Proof

/-! The LZW decoder (spec/40_lzw.md): the links of one generation of the dictionary, the code classes, and the steps of
the DECODE, ZEROFILL and DRAIN phases. -/

namespace Sys2Proof.Machine

/-! ### The dictionary of one generation (40_lzw.md R131) -/

/-- The dictionary of one generation, each part under its own name: `State.linksDescend` asks for it while decoding
(`State.linksDescend_iff`). -/
structure State.Generation (s : State) : Prop where
  links : ∀ k, s.dec.clear.toNat + 3 ≤ k → k < s.dec.avail.toNat → (readMem s.prefixMem k).toNat < k
  old_le : ∀ old, s.dec.old = some old →
    old.toNat < s.dec.avail.toNat ∨ (old.toNat = s.dec.avail.toNat ∧ s.dec.avail.toNat = s.dec.clear.toNat + 2)
  no_entry : s.dec.old = none → s.dec.avail.toNat = s.dec.clear.toNat + 2

theorem State.linksDescend_iff (s : State) : s.linksDescend ↔ (s.decoding = true → s.Generation) :=
  forall_congr' fun _ => ⟨fun ⟨a, b, c⟩ => ⟨a, b, c⟩, fun ⟨a, b, c⟩ => ⟨a, b, c⟩⟩

theorem State.linksDescend_of_generation {s : State} (h : s.Generation) : s.linksDescend :=
  s.linksDescend_iff.2 fun _ => h

/-- Outside DECODE nothing is asked of the dictionary. -/
theorem State.linksDescend_of_phase {s : State} (h : s.phase ≠ .decode) : s.linksDescend :=
  fun hd => absurd (s.decoding_iff.1 hd).1 h

/-- Before decode start nothing is asked of the dictionary. -/
theorem State.linksDescend_of_not_started {s : State} (h : s.started = false) : s.linksDescend :=
  fun hd => absurd (s.decoding_iff.1 hd).2 (by simp [h])

/-- The links depend on PHASE, on whether decode start has run, on PREFIX and on three registers. -/
theorem State.linksDescend_congr {s t : State} (hp : t.phase = s.phase) (hs : t.started = s.started)
    (hm : t.prefixMem = s.prefixMem) (hc : t.dec.clear = s.dec.clear) (ha : t.dec.avail = s.dec.avail)
    (ho : t.dec.old = s.dec.old) : t.linksDescend ↔ s.linksDescend := by
  simp only [State.linksDescend, State.decoding, hp, hs, hm, hc, ha, ho]

/-- A dictionary without an entry. -/
theorem State.Generation.fresh {s : State} (ho : s.dec.old = none)
    (ha : s.dec.avail.toNat = s.dec.clear.toNat + 2) : s.Generation where
  links k _ _ := by omega
  old_le old h := by simp [ho] at h
  no_entry _ := ha

theorem clear_add_two_toNat {clear : BitVec 13} (h : clear.toNat ≤ 2048) : (clear + 2).toNat = clear.toNat + 2 := by
  bv_omega

theorem Decoder.InRange.clear_le {d : Decoder} (h : d.InRange) : d.clear.toNat ≤ 2048 :=
  h.clear_eq.trans_le (Nat.pow_le_pow_right (n := 2) (by decide) h.mcs_le)

/-- The new entry links to OLD, which is below it once the generation has an entry. -/
theorem State.Generation.addEntry {s : State} (h : s.Generation) (hr : s.dec.InRange) (hw : memWf s.prefixMem)
    {old code : Code} (hold : s.dec.old = some old) (ha : s.dec.avail.toNat < 4096)
    (hc : code.toNat ≤ s.dec.avail.toNat) (st : Mem 8) (tp : BitVec 13) (f : Byte) :
    ((s.scratch st tp f code).addEntry old).Generation := by
  obtain ⟨csize, cmask, -, -, -, -, hav, hd⟩ := s.addEntry_dec old st tp f code ha hr.csize_le hr.cmask_eq
  obtain ⟨hm, -⟩ := State.addEntry_mems (s.scratch st tp f code) old
  constructor
  · intro k hk hlt
    rw [hd] at hk hlt
    replace hk : s.dec.clear.toNat + 3 ≤ k := hk
    replace hlt : k < s.dec.avail.toNat + 1 := hlt.trans_eq hav
    rw [hm]
    show (readMem (writeMem s.prefixMem s.dec.avail.toNat old) k).toNat < k
    by_cases hka : k = s.dec.avail.toNat
    · subst hka
      rw [readMem_writeMem_self hw]
      rcases h.old_le old hold with hlt | ⟨-, he⟩ <;> omega
    · rw [readMem_writeMem_of_ne _ _ hka]
      exact h.links k hk (by omega)
  · intro o ho
    rw [hd] at ho ⊢
    obtain rfl : code = o := Option.some.inj ho
    exact .inl ((Nat.lt_succ_of_le hc).trans_eq hav.symm)
  · intro ho
    rw [hd] at ho
    cases ho

/-- A code class keeps the generation, or begins the next one. -/
theorem CodeOutcome.linksDescend {s t : State} {c : Code} (hr : s.dec.InRange) (hw : memWf s.prefixMem)
    (hg : s.Generation) (ho : CodeOutcome s (classify s.codeCtx c) t) : t.linksDescend := by
  generalize hi : classify s.codeCtx c = i at ho
  cases ho with
  | stop => exact State.linksDescend_of_phase (by simp)
  | clear => exact State.linksDescend_of_generation (.fresh rfl (clear_add_two_toNat hr.clear_le))
  | first code st tp f _ =>
    obtain ⟨rfl, hnone, hle⟩ := classify_first hi
    have he := hg.no_entry hnone
    refine State.linksDescend_of_generation ⟨hg.links, fun o h => ?_, fun h => by cases h⟩
    obtain rfl : code = o := Option.some.inj h
    exact (Nat.lt_or_eq_of_le hle).imp_right fun h => ⟨h, he⟩
  | add i old hold code hcode st tp f _ =>
    subst hi
    obtain ⟨rfl, -, hne, hle⟩ := classify_adds hcode
    exact State.linksDescend_of_generation
      (hg.addEntry hr hw hold (Nat.lt_of_le_of_ne hr.avail_le hne) hle st tp f)

/-- A step of the block keeps the links. Decode start and CLEAR begin a generation, the other codes keep it, and every
other step leaves PREFIX and its registers alone or stands outside decoding. -/
theorem BlockOutcome.linksDescend {s t : State} (hw : memWf s.prefixMem) (hr : s.decoderInRange)
    (hg : s.linksDescend) (h : BlockOutcome s t) : t.linksDescend := by
  cases h with
  | same => exact hg
  | start _ _ b _ h12 =>
    have hd := s.setCodeSize_inRange h12
    exact State.linksDescend_of_generation (.fresh rfl (clear_add_two_toNat hd.clear_le))
  | pop | loadLength | loadData => exact (State.linksDescend_congr rfl rfl rfl rfl rfl rfl).2 hg
  | code hd _ hf i hi _ ho =>
    subst hi
    have hr := (s.decoderInRange_iff.1 hr hd).takeCode hf
    have hg := s.linksDescend_iff.1 hg hd
    exact CodeOutcome.linksDescend (s := s.takeCode) hr hw ⟨hg.links, hg.old_le, hg.no_entry⟩ ho
  | checkDecode | disposeNothing | disposeKeep | disposeFill | disposeRestore =>
    exact State.linksDescend_of_not_started (by simp)
  | drainRest hp | drainCount hp => exact State.linksDescend_of_phase (by simp [hp])
  | raise | checkInit | checkFrame | init | startTruncated | startBadMcs | stopCount | loadTruncated | loadEnd
  | zerofillDrain | zerofillPlace | zerofillComplete | drainPlace | drainComplete | truncatedPlace | truncatedComplete
  | place | commit => exact State.linksDescend_of_phase (by simp)

/-- An operation of the host keeps the links: RESET and a command leave DECODE, and no other reaches the dictionary. -/
theorem HostOutcome.linksDescend {s t : State} (hg : s.linksDescend) (h : HostOutcome s t) : t.linksDescend := by
  cases h with
  | quiet _ h => exact (State.linksDescend_congr h.phase h.started h.prefixMem (by rw [h.dec]) (by rw [h.dec])
      (by rw [h.dec])).2 hg
  | reset => exact State.linksDescend_of_phase (by simp [State.afterReset, State.reset])
  | accept => exact State.linksDescend_of_phase (by simp)

/-- Settles O59: each outcome of a step of the block and of an operation of the host keeps the links. -/
theorem stepKeepsLinksDescending : Obligations.StepKeepsLinksDescending := by
  rintro s t ⟨⟨hw, -⟩, hr, hg⟩ h
  rcases step_outcome h with hb | hh
  · exact BlockOutcome.linksDescend (s := s.takeTurn) hw hr hg hb
  · exact HostOutcome.linksDescend (s := s.takeTurn) hg hh

/-! ### The codes that stop (40_lzw.md R112, R118, R119, R122) -/

/-- ECODE takes LZW_FORMAT from a cause that is an error, if no error is recorded yet. -/
theorem State.stop_status (cause : Term) (s : State) : (s.stop cause).status =
    { s.status with
      term := cause
      ecode := if cause.isError = true ∧ s.status.ecode = .none then .lzwFormat else s.status.ecode } := by
  simp [State.stop]

/-- `CHAIN_END <- 1` does not reach STATUS. -/
theorem State.stopChain_status (cause : Term) (s : State) : (s.stopChain cause).status = (s.stop cause).status := rfl

/-- Settles O6: each of the three codes is `stop` of its cause. -/
theorem stoppingCodesRecordTheirCause : Obligations.StoppingCodesRecordTheirCause := by
  intro s code p hp
  obtain ⟨hexec, herr⟩ : exec p.1 s = .next (s.stop p.2.1) ∧ p.2.1.isError = p.2.2 := by
    simp only [List.mem_cons, List.not_mem_nil, or_false] at hp
    rcases hp with rfl | rfl | rfl <;> exact ⟨rfl, rfl⟩
  refine ⟨_, hexec, by rw [State.stop_status, herr], rfl, rfl, rfl, rfl, ?_⟩
  simp [State.sameRun, State.sameConfig, State.sameLast, State.sameCanvas, State.sameStreamMems, State.sameDict,
    sameMem]

/-! ### CLEAR and FIRST (40_lzw.md R120, R121) -/

/-- Settles O7: the width and AVAIL do not overflow their registers. -/
theorem clearResetsWidthAndDictionary : Obligations.ClearResetsWidthAndDictionary := by
  intro s hm hc
  have hw := startWidth_toNat hm
  have hmask : ((1#12 <<< (s.dec.mcs + 1).toNat) - 1).toNat = 2 ^ (s.dec.mcs.toNat + 1) - 1 := by
    rw [codeMask_toNat (by omega), hw]
  obtain ⟨-, hframe⟩ := (CodeOutcome.clear (s := s)).frame
  obtain ⟨hrun, hconfig, hlast, hcanvas⟩ := hframe
  exact ⟨s.clearDict, rfl, hw, hmask, clear_add_two_toNat hc, rfl, rfl, ⟨rfl, rfl, rfl, rfl⟩, hrun, hconfig, hlast,
    hcanvas, ⟨fun _ => rfl, fun _ => rfl⟩, fun _ => rfl, fun _ => rfl⟩

/-- FIRST with room on the stack. -/
theorem exec_first {s : State} (code : Code) (h : s.dec.top.toNat < 4096) :
    exec (.first code) s = .next ((s.scratch (writeMem s.stack s.dec.top.toNat (readMem s.suffixMem code.toNat))
      (s.dec.top + 1) (readMem s.suffixMem code.toNat) s.dec.incode).setOld code) := by
  simp only [exec, execFirst]
  rw [State.push_ok _ h]
  rfl

/-- A memory written at entry 0 holds that one byte from entry 0 up. -/
theorem readMem_writeMem_zero {m : Mem 8} (h : memWf m) (v : Byte) (i : Nat) :
    readMem (writeMem m 0 v) i = [v][i]?.getD (readMem m i) := by
  cases i <;> simp [readMem_writeMem h]

/-- Settles O8: the push meets an empty stack. -/
theorem firstCodeEmitsItsSuffix : Obligations.FirstCodeEmitsItsSuffix := by
  intro s code htop hw
  have hexec := exec_first (s := s) code (by simp [htop])
  rw [htop] at hexec
  exact ⟨_, hexec, ⟨rfl, readMem_writeMem_zero hw _⟩, rfl, ⟨fun _ => rfl, fun _ => rfl⟩, fun _ => rfl,
    ⟨rfl, rfl, rfl, rfl⟩, ⟨rfl, rfl, rfl, rfl, rfl⟩, by simp [State.sameConfig, State.scratch, sameMem],
    ⟨rfl, rfl, rfl, rfl, rfl, rfl⟩, fun _ => rfl, fun _ => rfl, fun _ => rfl⟩

/-! ### The codes that add an entry (40_lzw.md R123 to R127) -/

/-- What an entry-adding code `code` does from the empty stack, once `bytes` are pushed and `c` is to be expanded: the
suffixes along the links of `c` and of its base code follow `bytes`, and the entry is added. -/
theorem State.settle_expandAndAdd {s : State} (hr : s.readyToAdd) {old base c : Code} {links : List Code}
    (code : Code) (hx : s.expandsTo base c links) {bytes : List Byte} {st : Mem 8} {tp : BitVec 13}
    (hw : memWf st) (htp : tp.toNat = bytes.length)
    (hst : ∀ i, readMem st i = bytes[i]?.getD (readMem s.stack i)) (hl : bytes.length + links.length < 4096) :
    ∃ t, settle ((s.scratch st tp s.dec.first code).expandAndAdd old c) = .next t ∧
      s.stackHolds t (bytes ++ links.map (fun d => readMem s.suffixMem d.toNat) ++ [readMem s.suffixMem base.toNat]) ∧
      s.addsEntry t old (readMem s.suffixMem base.toNat) code ∧ sameMem s.ibuf t.ibuf ∧
      s.sameReport t ∧ s.sameRun t ∧ s.sameConfig t ∧ s.sameLast t ∧ s.sameCanvas t := by
  obtain ⟨-, ha, h12, hm, hp, hs, -⟩ := hr
  obtain ⟨st', tp', hexpand, htp', hread⟩ :=
    s.expandAndAdd_expandsTo old base c links st tp s.dec.first code hx hw (by omega)
  obtain ⟨hadds, htop, hstack, hibuf⟩ :=
    s.addEntry_addsEntry old st' tp' (readMem s.suffixMem base.toNat) code ha h12 hm hp hs
  have hframe := (s.scratch st' tp' (readMem s.suffixMem base.toNat) code).addEntry_frame old
  refine ⟨_, by rw [hexpand]; rfl, ⟨?_, fun i => ?_⟩, hadds, fun i => by rw [hibuf], hframe⟩
  · rw [htop, htp', htp]
    simp [Nat.add_assoc]
  · rw [hstack, hread, htp, List.append_assoc]
    by_cases hi : i < bytes.length
    · rw [if_pos hi, hst, List.getElem?_append_left hi]
    · rw [if_neg hi, hst, List.getElem?_append_right (Nat.le_of_not_lt hi),
        List.getElem?_eq_none (Nat.le_of_not_lt hi)]
      rfl

/-- An entry-adding code whose expansion fills the stack. -/
theorem State.settle_expandAndAdd_full {s : State} {old c : Code} (code : Code) {n : Nat} {st : Mem 8}
    {tp : BitVec 13} (hx : s.walksPast c n) (hn : tp.toNat + n = 4096) :
    ∃ t, settle ((s.scratch st tp s.dec.first code).expandAndAdd old c) = .next t ∧ s.stopsStackFull t code := by
  obtain ⟨st', tp', f', ht, hf, hexpand⟩ := s.expandAndAdd_walksPast code c old n st tp s.dec.first hx hn
  exact ⟨_, by rw [hexpand]; rfl, s.scratch_stopsStackFull st' tp' f' code ht hf⟩

theorem exec_literal {s : State} {old : Code} (hold : s.dec.old = some old) (code : Code) : exec (.literal code) s =
    settle ((s.scratch s.stack s.dec.top s.dec.first code).expandAndAdd old code) := by
  simp only [exec, execLiteral, hold]
  rfl

theorem exec_dict {s : State} {old : Code} (hold : s.dec.old = some old) (code : Code) : exec (.dict code) s =
    settle ((s.scratch s.stack s.dec.top s.dec.first code).expandAndAdd old code) := by
  simp only [exec, execDict, hold]
  rfl

/-- KWKWK with room on the stack for FIRST. -/
theorem exec_kwkwk {s : State} {old : Code} (hold : s.dec.old = some old) (code : Code)
    (h : s.dec.top.toNat < 4096) : exec (.kwkwk code) s =
    settle ((s.scratch (writeMem s.stack s.dec.top.toNat s.dec.first) (s.dec.top + 1) s.dec.first code).expandAndAdd
      old old) := by
  simp only [exec, execKwkwk, hold]
  rw [State.push_ok (s := s.setIncode code) _ h]
  rfl

/-- Settles O9: a code below CLEAR has no links and is its own base code. -/
theorem literalEmitsAndAddsEntry : Obligations.LiteralEmitsAndAddsEntry := by
  intro s code old hold hr hc
  obtain ⟨htop, -, -, -, -, -, hw⟩ := id hr
  rw [exec_literal hold]
  exact State.settle_expandAndAdd hr (bytes := []) (links := []) code ⟨rfl, hc.le⟩ hw (by simp [htop])
    (fun i => by simp) (by simp)

/-- Settles O10: the expansion of the code from the empty stack. -/
theorem dictExpandsItsLinks : Obligations.DictExpandsItsLinks := by
  intro s code old hold hr
  obtain ⟨htop, -, -, -, -, -, hw⟩ := id hr
  rw [exec_dict hold]
  exact ⟨fun base links hx hl => State.settle_expandAndAdd hr (bytes := []) code hx hw (by simp [htop])
    (fun i => by simp) (by simpa using hl), fun hx => State.settle_expandAndAdd_full code hx (by simp [htop])⟩

/-- Settles O11: the expansion of OLD from the stack that holds FIRST. -/
theorem kwkwkExpandsOldAfterFirst : Obligations.KwkwkExpandsOldAfterFirst := by
  intro s code old hold hr
  obtain ⟨htop, -, -, -, -, -, hw⟩ := id hr
  rw [exec_kwkwk hold code (by simp [htop]), htop]
  exact ⟨fun base links hx hl => State.settle_expandAndAdd hr (bytes := [s.dec.first]) code hx (writeMem_wf hw _ _) rfl
    (readMem_writeMem_zero hw _) (by simp; omega), fun hx => State.settle_expandAndAdd_full code hx rfl⟩

/-- The registers an added entry writes. -/
theorem State.addEntry_dec_eq (s : State) (old : Code) : (s.addEntry old).dec =
    { s.dec with
      avail := s.dec.avail + 1, old := some s.dec.incode
      csize := (s.addEntry old).dec.csize, cmask := (s.addEntry old).dec.cmask } := by
  rcases State.addEntry_cases old s with ⟨h, -⟩ | ⟨h, -⟩ <;> rw [h] <;> rfl

/-- What an added entry does to PREFIX and SUFFIX. -/
theorem State.addEntry_reads (s : State) (old : Code) :
    (∀ i, i ≠ s.dec.avail.toNat → readMem (s.addEntry old).prefixMem i = readMem s.prefixMem i ∧
      readMem (s.addEntry old).suffixMem i = readMem s.suffixMem i) ∧
    (memWf s.prefixMem → memWf s.suffixMem → readMem (s.addEntry old).prefixMem s.dec.avail.toNat = old ∧
      readMem (s.addEntry old).suffixMem s.dec.avail.toNat = s.dec.first) := by
  obtain ⟨hp, hs, -⟩ := s.addEntry_mems old
  rw [hp, hs]
  exact ⟨fun i hi => ⟨readMem_writeMem_of_ne _ _ hi, readMem_writeMem_of_ne _ _ hi⟩,
    fun hwp hws => ⟨readMem_writeMem_self hwp _ _, readMem_writeMem_self hws _ _⟩⟩

/-- Settles O12, by the two outcomes such a code can have: STACK_FULL, or its entry. -/
theorem stoppedCodeAddsNoEntry : Obligations.StoppedCodeAddsNoEntry := by
  intro s t code hphase ha i hi h
  simp only [List.mem_cons, List.not_mem_nil, or_false] at hi
  have ho : CodeOutcome s i t := by
    rcases hi with rfl | rfl | rfl <;> exact exec_code_outcome rfl (by simp) (by simp) h
  cases ho with
  | clear | first => simp at hi
  | stop _ cause hcause st tp f inc _ =>
    obtain rfl : cause = .stackFull := by
      rcases hi with rfl | rfl | rfl <;> cases hcause <;> rfl
    refine .inr ⟨rfl, rfl, ⟨fun _ => rfl, fun _ => rfl⟩, ?_, rfl⟩
    simp [State.stop_status, Term.isError, State.scratch]
  | add _ old hold code' hcode st tp f _ =>
    obtain rfl : code' = code := by
      rcases hi with rfl | rfl | rfl <;> simpa [eq_comm] using hcode
    obtain ⟨⟨hp, hst, hpix, -⟩, -⟩ := (s.scratch st tp f code').addEntry_frame old
    have hd := (s.scratch st tp f code').addEntry_dec_eq old
    obtain ⟨hne, heq⟩ := (s.scratch st tp f code').addEntry_reads old
    refine .inl ⟨hp.trans hphase, ?_, by rw [hd]; rfl, hst, hpix, hne, fun hwp hws => ?_⟩
    · rw [hd]
      show (s.dec.avail + 1).toNat = s.dec.avail.toNat + 1
      bv_omega
    · obtain ⟨hpre, hsuf⟩ := heq hwp hws
      exact ⟨hold.trans (congrArg some hpre.symm), hsuf.trans (by rw [hd])⟩

/-! ### What the stream phases leave alone -/

/-- The steps of DECODE, ZEROFILL and DRAIN reach no configuration, no latch of the last frame and no canvas. -/
theorem BlockOutcome.stream_frame {s t : State} (h : BlockOutcome s t)
    (hp : s.phase = .decode ∨ s.phase = .zerofill ∨ s.phase = .drain) :
    s.sameConfig t ∧ s.sameLast t ∧ s.sameCanvas t := by
  refine ⟨h.sameConfig, ?_⟩
  cases h with
  | code _ _ _ i _ t ho =>
    obtain ⟨-, -, -, hlast, hcanvas⟩ := ho.frame
    exact ⟨by simpa [State.sameLast] using hlast, by simpa [State.sameCanvas] using hcanvas⟩
  | raise h | checkInit h | checkDecode h | checkFrame h | init h | disposeNothing h | disposeKeep h | disposeFill h
  | disposeRestore h | place h | commit h => simp [h] at hp
  | _ => simp [State.sameLast, State.sameCanvas, sameMem]

theorem State.blockStep_stream_frame {s t : State} (h : s.blockStep = .next t)
    (hp : s.phase = .decode ∨ s.phase = .zerofill ∨ s.phase = .drain) :
    s.sameConfig t ∧ s.sameLast t ∧ s.sameCanvas t :=
  (State.blockStep_outcome h).stream_frame hp

/-- Equal data reads alike. -/
theorem State.sameStreamMems_of_eq {s t : State} (hp : t.prefixMem = s.prefixMem) (hs : t.suffixMem = s.suffixMem)
    (hst : t.stack = s.stack) (hi : t.ibuf = s.ibuf) : s.sameStreamMems t :=
  ⟨⟨fun _ => by rw [hp], fun _ => by rw [hs]⟩, fun _ => by rw [hst], fun _ => by rw [hi]⟩

/-! ### Decode start (40_lzw.md R111) -/

theorem State.decodeStart_byte {s : State} {b : Byte} (h : s.env.port.answer = .byte b) : s.decodeStart =
    if 12 ≤ b.toNat then s.clearDecoder.consumeByte.stop .badMcs else s.clearDecoder.consumeByte.setCodeSize b := by
  rw [State.decodeStart, h]

theorem State.decodeStart_err {s : State} (h : s.env.port.answer = .err) :
    s.decodeStart = s.clearDecoder.stopChain .truncated := by
  rw [State.decodeStart, h]

theorem State.decodeStart_waiting {s : State} (h : s.env.port.answer = .waiting) : s.decodeStart = s := by
  rw [State.decodeStart, h]

theorem minCodeSize_toNat {b : Byte} (h : b.toNat < 12) : (b.setWidth 4).toNat = b.toNat := by
  rw [BitVec.toNat_setWidth, Nat.mod_eq_of_lt (by omega)]

/-- Settles O24: decode start puts the registers in range (`State.setCodeSize_inRange`), which fixes CLEAR, EOI and the
mask. -/
theorem decodeStartSetsTheDecoder : Obligations.DecodeStartSetsTheDecoder := by
  intro s b hp hs hb h12
  have hm := minCodeSize_toNat h12
  have hr := s.setCodeSize_inRange h12
  have hclear : (1#13 <<< b.toNat).toNat = 2 ^ b.toNat := hr.clear_eq.trans (congrArg (2 ^ ·) hm)
  have havail := clear_add_two_toNat hr.clear_le
  have hwidth : (b.setWidth 4 + 1).toNat = b.toNat + 1 := (startWidth_toNat hr.mcs_le).trans (congrArg (· + 1) hm)
  have hmask := hr.cmask_eq.trans (congrArg (2 ^ · - 1) hwidth)
  have hstep : s.blockStep = .next (s.clearDecoder.consumeByte.setCodeSize b) := by
    rw [State.blockStep_start hp hs, State.decodeStart_byte hb, if_neg (Nat.not_le.2 h12)]
  refine ⟨_, hstep, hp, rfl, hm, hclear, hr.eoi_eq.trans (congrArg (· + 1) hclear),
    havail.trans (congrArg (· + 2) hclear), hwidth, hmask, rfl, rfl, rfl, rfl, rfl, rfl, rfl, rfl, rfl, rfl,
    fun c => ?_, fun c => ?_, rfl, rfl, rfl, rfl, rfl, rfl, State.blockStep_stream_frame hstep (.inl hp)⟩
  · rw [← hclear]
    exact readMem_setBelow _ _ _ _
  · rw [← hclear]
    exact (readMem_clearRange 0 (1#13 <<< b.toNat).toNat s.prefixMem c).trans (if_congr (by simp) rfl rfl)

theorem State.lzwStateWord_zero {s : State} (hm : s.dec.mcs = 0) (hc : s.dec.csize = 0) (ha : s.dec.avail = 0) :
    s.lzwStateWord = 0 := by
  rw [State.lzwStateWord, hm, hc, ha]
  rfl

/-- Settles O25: each answer of the port leaves its own state. -/
theorem decodeStartRefusesBadInput : Obligations.DecodeStartRefusesBadInput := by
  intro s hp hs cleared stopped
  have step {t : State} (h : s.decodeStart = t) : s.blockStep = .next t := by rw [State.blockStep_start hp hs, h]
  have frame {t : State} (h : s.decodeStart = t) := State.blockStep_stream_frame (step h) (.inl hp)
  refine ⟨fun b hb h12 => ?_, fun he => ?_, fun hw => step (State.decodeStart_waiting hw)⟩
  · have h : s.decodeStart = s.clearDecoder.consumeByte.stop .badMcs := by
      rw [State.decodeStart_byte hb, if_pos h12]
    refine ⟨_, step h, ⟨rfl, rfl, State.lzwStateWord_zero rfl rfl rfl, ?_,
      State.sameStreamMems_of_eq rfl rfl rfl rfl, frame h⟩, rfl, rfl, rfl⟩
    simp [State.stop_status, Term.isError]
  · have h := State.decodeStart_err he
    refine ⟨_, step h, ⟨rfl, rfl, State.lzwStateWord_zero rfl rfl rfl, ?_,
      State.sameStreamMems_of_eq rfl rfl rfl rfl, frame h⟩, rfl, rfl, rfl⟩
    simp [State.stopChain_status, State.stop_status, Term.isError]

/-! ### The selection of DECODE (40_lzw.md R113) -/

theorem State.blockStep_stopCount {s : State} (hd : s.decoding = true) (hp : s.dec.npix.toNat ≤ s.dec.pi.toNat) :
    s.blockStep = .next (s.stop .count) := by
  rw [State.blockStep_decoding hd, State.selection_stopCount.2 hp]

theorem State.blockStep_pop {s : State} (hd : s.decoding = true) (hp : s.dec.pi.toNat < s.dec.npix.toNat)
    (ht : 0 < s.dec.top.toNat) : s.blockStep = .next s.pop := by
  rw [State.blockStep_decoding hd, State.selection_pop.2 ⟨hp, ht⟩]

theorem State.blockStep_load {s : State} (hd : s.decoding = true) (hp : s.dec.pi.toNat < s.dec.npix.toNat)
    (ht : s.dec.top = 0) (hb : s.dec.bits.toNat < s.dec.csize.toNat) : s.blockStep = .next s.load := by
  rw [State.blockStep_decoding hd, State.selection_load.2 ⟨hp, by rw [ht]; rfl, hb⟩]

theorem State.blockStep_code {s : State} (hd : s.decoding = true) (hp : s.dec.pi.toNat < s.dec.npix.toNat)
    (ht : s.dec.top = 0) (hb : s.dec.csize.toNat ≤ s.dec.bits.toNat) :
    s.blockStep = exec (classify s.codeCtx s.codeOperand) s.takeCode := by
  rw [State.blockStep_decoding hd, State.selection_code.2 ⟨hp, by rw [ht]; rfl, hb⟩, State.codeStep]

/-- Settles O28: COUNT is no error, so that ECODE stays. -/
theorem pixelCountStopsDecoding : Obligations.PixelCountStopsDecoding := by
  intro s hd hp
  rw [State.blockStep_stopCount hd hp]
  simp [State.stop, Term.isError]

/-- Settles O27: neither TOP nor PI wraps. -/
theorem popMovesOneByte : Obligations.PopMovesOneByte := by
  intro s hd hp ht hw
  have htop : (s.dec.top - 1).toNat = s.dec.top.toNat - 1 := by bv_omega
  have hpi : (s.dec.pi + 1).toNat = s.dec.pi.toNat + 1 := by bv_omega
  refine ⟨s.pop, State.blockStep_pop hd hp ht, fun i => ?_, htop, hpi, rfl⟩
  rw [State.pop_ibuf, readMem_writeMem hw, htop]

/-- The low CSIZE bits of DATUM (30_encoding.md R88). -/
theorem State.codeOperand_toNat {s : State} (h12 : s.dec.csize.toNat ≤ 12)
    (hm : s.dec.cmask.toNat = 2 ^ s.dec.csize.toNat - 1) :
    s.codeOperand.toNat = s.dec.datum.toNat % 2 ^ s.dec.csize.toNat := by
  rw [State.codeOperand, BitVec.toNat_and, BitVec.toNat_setWidth, hm, Nat.and_two_pow_sub_one_eq_mod,
    Nat.mod_mod_of_dvd _ (Nat.pow_dvd_pow 2 h12)]

/-- Settles O48: the block's turn is the CODE step of its selection. -/
theorem stepRunsTheCode : Obligations.StepRunsTheCode := by
  intro s hturn hd hp ht hb h12 hm
  refine ⟨s.codeOperand, s.takeTurn.takeCode, State.codeOperand_toNat h12 hm, ?_, ?_, rfl, ?_⟩
  · show (s.dec.datum >>> s.dec.csize.toNat).toNat = _
    rw [BitVec.toNat_ushiftRight, Nat.shiftRight_eq_div_pow]
  · show (s.dec.bits - s.dec.csize.setWidth 5).toNat = _
    bv_omega
  · rw [step, hturn]
    exact State.blockStep_code (s := s.takeTurn) hd hp ht hb

/-! ### LOAD (40_lzw.md R114) -/

theorem State.load_byte {s : State} {b : Byte} (h : s.env.port.answer = .byte b) : s.load =
    if s.dec.sbcnt = 0 then
      if b = 0 then s.consumeByte.stopChain .dataEnd else s.consumeByte.setSbcnt b
    else s.consumeByte.loadData b := by
  rw [State.load, h]

theorem State.load_err {s : State} (h : s.env.port.answer = .err) : s.load = s.stopChain .truncated := by
  rw [State.load, h]

theorem State.load_waiting {s : State} (h : s.env.port.answer = .waiting) : s.load = s := by
  rw [State.load, h]

/-- A data byte enters the bit buffer above the bits it holds (20_memory.md R63), with room for all of them. -/
theorem State.loadData_toNat {s : State} (hb : s.dec.bits.toNat < 12) (hd : s.dec.datum.toNat < 2 ^ s.dec.bits.toNat)
    (b : Byte) :
    (s.loadData b).dec.datum.toNat = s.dec.datum.toNat + b.toNat * 2 ^ s.dec.bits.toNat ∧
      (s.loadData b).dec.bits.toNat = s.dec.bits.toNat + 8 := by
  have hp : 2 ^ s.dec.bits.toNat ≤ 2 ^ 11 := Nat.pow_le_pow_right (by decide) (by omega)
  have hm : b.toNat * 2 ^ s.dec.bits.toNat ≤ 255 * 2 ^ s.dec.bits.toNat := Nat.mul_le_mul_right _ (by omega)
  constructor
  · show (s.dec.datum + (b.setWidth 20 <<< s.dec.bits.toNat)).toNat = _
    rw [BitVec.toNat_add, BitVec.toNat_shiftLeft, Nat.shiftLeft_eq, BitVec.toNat_setWidth,
      Nat.mod_eq_of_lt (a := b.toNat) (by omega), Nat.mod_eq_of_lt (a := b.toNat * _) (by omega),
      Nat.mod_eq_of_lt (by omega)]
  · show (s.dec.bits + 8).toNat = _
    bv_omega

/-- Settles O26: each answer of the port, and each kind of byte, leaves its own state. -/
theorem loadTakesOneByte : Obligations.LoadTakesOneByte := by
  intro s hd hpix htop hbits h12 hdatum
  have hphase := (s.decoding_iff.1 hd).1
  have hstep := State.blockStep_load hd hpix htop hbits
  obtain ⟨hconfig, hlast, hcanvas⟩ := State.blockStep_stream_frame hstep (.inl hphase)
  refine ⟨fun b hb => ?_, fun he => ?_, fun hw => by rw [hstep, State.load_waiting hw]⟩
  · have hload := State.load_byte hb
    have hbook : s.load.env.port = { s.env.port with pos := s.env.port.pos + 1 } ∧ s.load.bytesIn = s.bytesIn + 1 ∧
        s.sameStreamMems s.load := by
      rw [hload]
      split_ifs <;> exact ⟨rfl, rfl, State.sameStreamMems_of_eq rfl rfl rfl rfl⟩
    obtain ⟨hport, hbytes, hmems⟩ := hbook
    refine ⟨s.load, hstep, hport, hbytes, hmems, hconfig, hlast, hcanvas, fun h0 hb0 => ?_, fun h0 hb0 => ?_,
      fun h0 => ?_⟩
    · rw [hload, if_pos h0, if_neg hb0]
      exact ⟨rfl, hphase, rfl, rfl⟩
    · rw [hload, if_pos h0, if_pos hb0]
      refine ⟨rfl, rfl, ?_, rfl⟩
      simp [State.stopChain_status, State.stop_status, Term.isError]
    · rw [hload, if_neg h0]
      obtain ⟨hd, hb⟩ := State.loadData_toNat (s := s.consumeByte) (hbits.trans_le h12) hdatum b
      have hsbcnt : (s.dec.sbcnt - 1).toNat = s.dec.sbcnt.toNat - 1 := by bv_omega
      exact ⟨hphase, rfl, rfl, hd, hb, hsbcnt, rfl⟩
  · have hload := State.load_err he
    refine ⟨s.load, hstep, ?_⟩
    rw [hload] at hconfig hlast hcanvas ⊢
    refine ⟨rfl, rfl, ?_, rfl, rfl, rfl, State.sameStreamMems_of_eq rfl rfl rfl rfl, hconfig, hlast, hcanvas⟩
    simp [State.stopChain_status, State.stop_status, Term.isError]

/-! ### ZEROFILL (40_lzw.md R128) -/

theorem State.blockStep_zerofill {s : State} (h : s.phase = .zerofill) : s.blockStep = .next s.zerofillStep := by
  rw [State.blockStep, h]

/-- After DRAIN a FRAME goes on and a DECODE completes. -/
theorem State.afterDrain_frame {s : State} (h : s.cmdl = 4) : s.afterDrain = s.toPhase .place := by
  rw [State.afterDrain, if_pos h]

theorem State.afterDrain_decode {s : State} (h : s.cmdl = 3) : s.afterDrain = s.complete := by
  rw [State.afterDrain, if_neg (by rw [h]; decide)]

@[simp] theorem State.afterDrain_ibuf (s : State) : s.afterDrain.ibuf = s.ibuf := by
  rcases s.afterDrain_cases with ⟨-, h⟩ | ⟨-, h⟩ <;> simp [h]

theorem State.zerofillStep_drain {s : State} (h : s.drainl = true) (hc : s.dec.chainEnd = false) :
    s.zerofillStep = s.zerofill.toDrain := by
  simp [State.zerofillStep, h, hc]

theorem State.zerofillStep_noDrain {s : State} (h : s.drainl = false ∨ s.dec.chainEnd = true) :
    s.zerofillStep = s.zerofill.afterDrain := by
  rcases h with h | h <;> simp [State.zerofillStep, h]

theorem State.zerofillStep_ibuf (s : State) :
    s.zerofillStep.ibuf = clearRange s.dec.pi.toNat s.dec.npix.toNat s.ibuf := by
  unfold State.zerofillStep
  split <;> simp

/-- Settles O29: the same range is cleared whatever phase follows. -/
theorem zerofillZeroesTheRest : Obligations.ZerofillZeroesTheRest := by
  intro s hp
  refine ⟨s.zerofillStep, State.blockStep_zerofill hp, fun i => ?_, fun hl hc => ?_, fun hn h4 => ?_, fun hn h3 => ?_⟩
  · rw [State.zerofillStep_ibuf, readMem_clearRange]
  · rw [State.zerofillStep_drain hl hc]
    rfl
  · rw [State.zerofillStep_noDrain hn, State.afterDrain_frame (s := s.zerofill) h4]
    rfl
  · rw [State.zerofillStep_noDrain hn, State.afterDrain_decode (s := s.zerofill) h3]
    rfl

/-! ### DRAIN (40_lzw.md R129) -/

theorem State.blockStep_drain {s : State} (h : s.phase = .drain) : s.blockStep = .next s.drainStep := by
  rw [State.blockStep, h]

theorem State.drainStep_byte {s : State} {b : Byte} (h : s.env.port.answer = .byte b) :
    s.drainStep = s.consumeByte.drainByte b := by
  rw [State.drainStep, h]

theorem State.drainStep_err {s : State} (h : s.env.port.answer = .err) : s.drainStep = s.drainTruncated := by
  rw [State.drainStep, h]

theorem State.drainStep_waiting {s : State} (h : s.env.port.answer = .waiting) : s.drainStep = s := by
  rw [State.drainStep, h]

/-- The three kinds of byte of DRAIN. -/
theorem State.drainByte_rest {s : State} (b : Byte) (h : s.dec.sbcnt ≠ 0) : s.drainByte b = s.takeRest := by
  rw [State.drainByte, if_pos h]

theorem State.drainByte_data {s : State} (b : Byte) (h : s.dec.sbcnt = 0) (hl : s.drainLeft ≠ 0) :
    s.drainByte b = s.setDrainLeft (s.drainLeft - 1) := by
  rw [State.drainByte, if_neg (not_not.2 h), if_pos hl]

theorem State.drainByte_length {s : State} {b : Byte} (h : s.dec.sbcnt = 0) (hl : s.drainLeft = 0) :
    s.drainByte b = if b = 0 then s.endChain.afterDrain else s.setDrainLeft b := by
  rw [State.drainByte, if_neg (not_not.2 h), if_neg (not_not.2 hl)]

/-- The step after DRAIN moves PHASE and completes the command, and leaves what the stream phases keep. -/
theorem State.afterDrain_unchanged (s : State) :
    s.afterDrain.env = s.env ∧ s.afterDrain.bytesIn = s.bytesIn ∧ s.afterDrain.pixCount = s.pixCount ∧
      s.afterDrain.dec = s.dec ∧ s.sameStreamMems s.afterDrain := by
  rcases s.afterDrain_cases with ⟨-, h⟩ | ⟨-, h⟩ <;> rw [h] <;>
  exact ⟨rfl, rfl, rfl, rfl, State.sameStreamMems_of_eq rfl rfl rfl rfl⟩

theorem State.drainByte_unchanged (s : State) (b : Byte) :
    (s.drainByte b).env = s.env ∧ (s.drainByte b).bytesIn = s.bytesIn ∧ (s.drainByte b).pixCount = s.pixCount ∧
      s.sameStreamMems (s.drainByte b) := by
  obtain ⟨he, hb, hp, -, hm⟩ := s.endChain.afterDrain_unchanged
  unfold State.drainByte
  split_ifs
  on_goal 3 => exact ⟨he, hb, hp, hm⟩
  all_goals exact ⟨rfl, rfl, rfl, State.sameStreamMems_of_eq rfl rfl rfl rfl⟩

theorem State.markTruncated_ecode (s : State) : s.markTruncated.status.ecode ≠ .none := by
  show (if s.status.ecode = .none then Ecode.drainTrunc else s.status.ecode) ≠ .none
  split_ifs with h
  · decide
  · exact h

/-- A command that completes with an error recorded. -/
theorem State.complete_status_of_error {s : State} (h : s.status.ecode ≠ .none) :
    s.complete.status = { s.status with done := true, err := true } := by
  simp [State.complete, h]

/-- Settles O30: each answer of the port, and each position in the chain, leaves its own state. -/
theorem drainTakesTheRestOfTheChain : Obligations.DrainTakesTheRestOfTheChain := by
  intro s hp
  have hstep := State.blockStep_drain hp
  obtain ⟨hconfig, hlast, hcanvas⟩ := State.blockStep_stream_frame hstep (.inr (.inr hp))
  refine ⟨fun b hb => ?_, fun he => ?_, fun hw => by rw [hstep, State.drainStep_waiting hw]⟩
  · have hdrain := State.drainStep_byte hb
    obtain ⟨henv, hbytes, hpix, hmems⟩ := s.consumeByte.drainByte_unchanged b
    rw [← hdrain] at henv hbytes hpix hmems
    refine ⟨s.drainStep, hstep, congrArg Env.port henv, hbytes, hpix, hmems, hconfig, hlast, hcanvas, fun h => ?_,
      fun h hl => ?_, fun h hl hb0 => ?_, fun h hl hb0 => ?_⟩
    · rw [hdrain, State.drainByte_rest (s := s.consumeByte) b h]
      exact ⟨hp, rfl, rfl, rfl⟩
    · rw [hdrain, State.drainByte_data (s := s.consumeByte) b h hl]
      exact ⟨hp, rfl, rfl, rfl⟩
    · rw [hdrain, State.drainByte_length (s := s.consumeByte) h hl, if_neg hb0]
      exact ⟨hp, rfl, rfl, rfl⟩
    · rw [hdrain, State.drainByte_length (s := s.consumeByte) h hl, if_pos hb0]
      obtain ⟨-, -, -, hdec, -⟩ := s.consumeByte.endChain.afterDrain_unchanged
      refine ⟨hdec, fun h4 => ?_, fun h3 => ?_⟩
      · rw [State.afterDrain_frame (s := s.consumeByte.endChain) h4]
        exact ⟨rfl, rfl⟩
      · rw [State.afterDrain_decode (s := s.consumeByte.endChain) h3]
        exact ⟨rfl, rfl⟩
  · have hdrain : s.drainStep = s.endChain.markTruncated.afterDrain := State.drainStep_err he
    obtain ⟨henv, hbytes, hpix, hdec, hmems⟩ := s.endChain.markTruncated.afterDrain_unchanged
    rw [← hdrain] at henv hbytes hpix hdec hmems
    refine ⟨s.drainStep, hstep, henv, hbytes, hpix, hdec, fun h4 => ?_, fun h3 => ?_, hmems, hconfig, hlast, hcanvas⟩
    · rw [hdrain, State.afterDrain_frame (s := s.endChain.markTruncated) h4]
      exact ⟨rfl, rfl⟩
    · rw [hdrain, State.afterDrain_decode (s := s.endChain.markTruncated) h3]
      exact ⟨rfl, State.complete_status_of_error s.endChain.markTruncated_ecode⟩

/-! ### Progress, and the hangs (40_lzw.md R130, 93_implementation_defined.md U13) -/

/-- No code class reaches PI or the bit buffer. -/
theorem CodeOutcome.stream_kept {s t : State} {i : Instr} (h : CodeOutcome s i t) :
    t.dec.pi = s.dec.pi ∧ t.dec.bits = s.dec.bits := by
  cases h with
  | stop | clear | first => exact ⟨rfl, rfl⟩
  | add i old _ code _ st tp f _ =>
    rw [(s.scratch st tp f code).addEntry_dec_eq old]
    exact ⟨rfl, rfl⟩

/-- What R130 asks of a step of DECODE after decode start: it ends the phase, waits, takes a byte, raises PI, or uses
CSIZE bits. -/
def State.progresses (s t : State) : Prop :=
  t.phase ≠ .decode ∨
  (t = s ∧ s.env.port.answer = .waiting) ∨
  (t.env.port.pos = s.env.port.pos + 1 ∧ t.dec.pi = s.dec.pi ∧ t.dec.bits.toNat ≤ s.dec.bits.toNat + 8) ∨
  (t.env.port.pos = s.env.port.pos ∧ t.dec.pi.toNat = s.dec.pi.toNat + 1 ∧ t.dec.bits = s.dec.bits) ∨
  (t.env.port.pos = s.env.port.pos ∧ t.dec.pi = s.dec.pi ∧ 1 ≤ s.dec.csize.toNat ∧
    t.dec.bits.toNat + s.dec.csize.toNat = s.dec.bits.toNat)

theorem BlockOutcome.progresses {s t : State} (hd : s.decoding = true) (hr : s.dec.InRange) (h : BlockOutcome s t) :
    s.progresses t := by
  obtain ⟨hphase, hstarted⟩ := s.decoding_iff.1 hd
  cases h with
  | same h =>
    rcases h with h | ⟨-, hw⟩
    · simp [hphase] at h
    · exact .inr (.inl ⟨rfl, hw⟩)
  | startTruncated _ h | startBadMcs _ h | start _ h => simp [hstarted] at h
  | raise h | checkInit h | checkDecode h | checkFrame h | init h | disposeNothing h | disposeKeep h | disposeFill h
  | disposeRestore h | zerofillDrain h | zerofillPlace h | zerofillComplete h | drainRest h | drainCount h
  | drainPlace h | drainComplete h | truncatedPlace h | truncatedComplete h | place h | commit h =>
    simp [hphase] at h
  | stopCount | loadTruncated | loadEnd => exact .inl (by simp)
  | loadLength => exact .inr (.inr (.inl ⟨rfl, rfl, Nat.le_add_right _ _⟩))
  | loadData =>
    have hbits : (s.dec.bits + 8).toNat ≤ s.dec.bits.toNat + 8 := by bv_omega
    exact .inr (.inr (.inl ⟨rfl, rfl, hbits⟩))
  | pop _ hp _ =>
    have hpi : (s.dec.pi + 1).toNat = s.dec.pi.toNat + 1 := by bv_omega
    exact .inr (.inr (.inr (.inl ⟨rfl, hpi, rfl⟩)))
  | code _ _ hf i _ _ ho =>
    obtain ⟨hpi, hbits⟩ := ho.stream_kept
    obtain ⟨-, ⟨henv, -⟩, -⟩ := ho.frame
    have hcsize := hr.mcs_lt_csize
    have htaken : (s.dec.bits - s.dec.csize.setWidth 5).toNat + s.dec.csize.toNat = s.dec.bits.toNat := by bv_omega
    exact .inr (.inr (.inr (.inr ⟨by rw [henv]; rfl, hpi, by omega, by rw [hbits]; exact htaken⟩)))

/-- What one step of the block carries on, every run of the block carries on. -/
theorem blockRun_of_step {P : Nat → State → Prop}
    (h : ∀ k s, P k s → ∃ t, s.blockStep = .next t ∧ P (k + 1) t) (n k : Nat) (s : State) (hs : P k s) :
    ∃ t, blockRun n s = .next t ∧ P (k + n) t := by
  induction n generalizing k s with
  | zero => exact ⟨s, rfl, hs⟩
  | succ n ih =>
    obtain ⟨t, hstep, ht⟩ := h k s hs
    obtain ⟨u, hrun, hu⟩ := ih (k + 1) t ht
    refine ⟨u, ?_, by rwa [Nat.add_right_comm] at hu⟩
    rw [blockRun, hstep]
    exact hrun

/-- DRAIN with `n` bytes taken from the port `p`. -/
structure State.DrainRun (p : InPort) (n : Nat) (s : State) : Prop where
  phase : s.phase = .drain
  port : s.env.port = { p with pos := p.pos + n }

/-- Only a length of 0 ends the chain. -/
theorem State.drainByte_phase {b : Byte} (hb0 : b ≠ 0) (s : State) : (s.drainByte b).phase = s.phase := by
  unfold State.drainByte
  rw [if_neg hb0]
  split_ifs <;> rfl

theorem State.DrainRun.step {p : InPort} {n : Nat} {s : State} (h : s.DrainRun p n) {b : Byte} (hb0 : b ≠ 0)
    (hb : s.env.port.answer = .byte b) : ∃ t, s.blockStep = .next t ∧ t.DrainRun p (n + 1) := by
  have hport : s.consumeByte.env.port = { p with pos := p.pos + (n + 1) } := by
    show { s.env.port with pos := s.env.port.pos + 1 } = _
    rw [h.port]
    rfl
  refine ⟨_, by rw [State.blockStep_drain h.phase, State.drainStep_byte hb], ?_, ?_⟩
  · exact (s.consumeByte.drainByte_phase hb0).trans h.phase
  · rw [(s.consumeByte.drainByte_unchanged b).1, hport]

/-- DECODE on an endless run of CLEAR codes (U13): MCS 7, sub-blocks of the one byte 0x80, between two codes, after a
length byte, or with the 8 bits of a CLEAR code in the bit buffer. -/
structure State.ClearRun (pi : Word) (s : State) : Prop where
  decoding : s.decoding = true
  pi_lt : s.dec.pi.toNat < s.dec.npix.toNat
  pi_eq : s.dec.pi = pi
  top : s.dec.top = 0
  mcs : s.dec.mcs = 7
  clear : s.dec.clear = 128
  eoi : s.dec.eoi = 129
  avail : 130 ≤ s.dec.avail.toNat
  csize : s.dec.csize = 8
  cmask : s.dec.cmask = 0xFF
  buf : s.env.port.buf = []
  atEnd : s.env.port.atEnd = .cycle 0x01 [0x80]
  position :
    (s.env.port.pos % 2 = 0 ∧ s.dec.datum = 0 ∧ s.dec.bits = 0 ∧ s.dec.sbcnt = 0) ∨
    (s.env.port.pos % 2 = 1 ∧ s.dec.datum = 0 ∧ s.dec.bits = 0 ∧ s.dec.sbcnt = 1) ∨
    (s.env.port.pos % 2 = 0 ∧ s.dec.datum = 0x80 ∧ s.dec.bits = 8 ∧ s.dec.sbcnt = 0)

theorem State.ClearRun.answer {pi : Word} {s : State} (h : s.ClearRun pi) :
    s.env.port.answer = .byte ([0x01#8, 0x80#8].getD (s.env.port.pos % 2) 0x01) :=
  InPort.answer_cycle h.buf h.atEnd

/-- Between two codes the step takes the length byte 1. -/
theorem State.ClearRun.step_length {pi : Word} {s : State} (h : s.ClearRun pi) (hpos : s.env.port.pos % 2 = 0)
    (hdatum : s.dec.datum = 0) (hbits : s.dec.bits = 0) (hsbcnt : s.dec.sbcnt = 0) :
    ∃ t, s.blockStep = .next t ∧ t.ClearRun pi := by
  have hload : s.load = s.consumeByte.setSbcnt 1 := by
    rw [State.load_byte h.answer, if_pos hsbcnt, hpos]
    rfl
  have hpos' : (s.env.port.pos + 1) % 2 = 1 := by omega
  refine ⟨_, by rw [State.blockStep_load h.decoding h.pi_lt h.top (by rw [hbits, h.csize]; decide), hload], ?_⟩
  exact { h with position := .inr (.inl ⟨hpos', hdatum, hbits, rfl⟩) }

/-- After a length byte the step takes the data byte 0x80. -/
theorem State.ClearRun.step_data {pi : Word} {s : State} (h : s.ClearRun pi) (hpos : s.env.port.pos % 2 = 1)
    (hdatum : s.dec.datum = 0) (hbits : s.dec.bits = 0) (hsbcnt : s.dec.sbcnt = 1) :
    ∃ t, s.blockStep = .next t ∧ t.ClearRun pi := by
  have hload : s.load = s.consumeByte.loadData 0x80 := by
    rw [State.load_byte h.answer, if_neg (by rw [hsbcnt]; decide), hpos]
    rfl
  have hpos' : (s.env.port.pos + 1) % 2 = 0 := by omega
  have hdatum' : s.dec.datum + ((0x80#8).setWidth 20 <<< s.dec.bits.toNat) = 0x80 := by rw [hdatum, hbits]; rfl
  have hbits' : s.dec.bits + 8 = 8 := by rw [hbits]; rfl
  have hsbcnt' : s.dec.sbcnt - 1 = 0 := by rw [hsbcnt]; rfl
  refine ⟨_, by rw [State.blockStep_load h.decoding h.pi_lt h.top (by rw [hbits, h.csize]; decide), hload], ?_⟩
  exact { h with position := .inr (.inr ⟨hpos', hdatum', hbits', hsbcnt'⟩) }

theorem classify_clear {ctx : CodeCtx} {c : Code} (hc : c.toNat = ctx.clear.toNat)
    (ha : ctx.clear.toNat ≤ ctx.avail.toNat) (he : ctx.clear.toNat ≠ ctx.eoi.toNat) : classify ctx c = .clear := by
  rw [classify, if_neg (by omega), if_neg (by omega), if_pos hc]

/-- With 8 bits in the bit buffer the step runs CLEAR. -/
theorem State.ClearRun.step_code {pi : Word} {s : State} (h : s.ClearRun pi) (hpos : s.env.port.pos % 2 = 0)
    (hdatum : s.dec.datum = 0x80) (hbits : s.dec.bits = 8) (hsbcnt : s.dec.sbcnt = 0) :
    ∃ t, s.blockStep = .next t ∧ t.ClearRun pi := by
  have hcode : s.codeOperand = 128 := by rw [State.codeOperand, hdatum, h.cmask]; rfl
  have hclear : s.codeCtx.clear.toNat = 128 := congrArg BitVec.toNat h.clear
  have heoi : s.codeCtx.eoi.toNat = 129 := congrArg BitVec.toNat h.eoi
  have hclass : classify s.codeCtx s.codeOperand = .clear :=
    classify_clear (by rw [hcode, hclear]; rfl) (by rw [hclear]; exact le_trans (by decide) h.avail)
      (by rw [hclear, heoi]; decide)
  have hdatum' : s.dec.datum >>> s.dec.csize.toNat = 0 := by rw [hdatum, h.csize]; rfl
  have hbits' : s.dec.bits - s.dec.csize.setWidth 5 = 0 := by rw [hbits, h.csize]; rfl
  have havail' : 130 ≤ (s.dec.clear + 2).toNat := by rw [h.clear]; decide
  have hcsize' : s.dec.mcs + 1 = 8 := by rw [h.mcs]; rfl
  have hcmask' : (1#12 <<< (s.dec.mcs + 1).toNat) - 1 = 0xFF := by rw [h.mcs]; rfl
  refine ⟨s.takeCode.clearDict,
    by rw [State.blockStep_code h.decoding h.pi_lt h.top (by rw [hbits, h.csize]; decide), hclass]; rfl, ?_⟩
  exact { h with
    avail := havail', csize := hcsize', cmask := hcmask'
    position := .inl ⟨hpos, hdatum', hbits', hsbcnt⟩ }

/-- The length byte of a sub-block, its data byte, and the CLEAR code follow one another for ever. -/
theorem State.ClearRun.step {pi : Word} {s : State} (h : s.ClearRun pi) :
    ∃ t, s.blockStep = .next t ∧ t.ClearRun pi := by
  rcases h.position with ⟨hpos, hdatum, hbits, hsbcnt⟩ | ⟨hpos, hdatum, hbits, hsbcnt⟩ | ⟨hpos, hdatum, hbits, hsbcnt⟩
  · exact h.step_length hpos hdatum hbits hsbcnt
  · exact h.step_data hpos hdatum hbits hsbcnt
  · exact h.step_code hpos hdatum hbits hsbcnt

/-- Settles O31: the inversion of a step, and the two runs that never end. -/
theorem decodeStepMakesProgress : Obligations.DecodeStepMakesProgress := by
  refine ⟨fun s t hd hr h => (State.blockStep_outcome h).progresses hd (s.decoderInRange_iff.1 hr hd),
    fun s hp hbytes n => ?_, fun s hd hp ht hmcs hclear heoi havail hcsize hcmask hdatum hbits hsbcnt hport n => ?_⟩
  · obtain ⟨t, hrun, ht⟩ := blockRun_of_step (P := fun k u => u.DrainRun s.env.port k)
      (fun k u hu => by
        obtain ⟨b, hb0, hb⟩ := hbytes k
        exact hu.step hb0 (hu.port ▸ hb)) n 0 s ⟨hp, rfl⟩
    refine ⟨t, hrun, ht.phase, ?_⟩
    rw [ht.port, Nat.zero_add]
  · have hs : s.ClearRun s.dec.pi :=
      ⟨hd, hp, rfl, ht, hmcs, hclear, heoi, havail, hcsize, hcmask, by rw [hport], by rw [hport],
        .inl ⟨by rw [hport]; rfl, hdatum, hbits, hsbcnt⟩⟩
    obtain ⟨t, hrun, ht⟩ := blockRun_of_step (P := fun _ u => u.ClearRun s.dec.pi) (fun _ _ hu => hu.step) n 0 s hs
    exact ⟨t, hrun, (t.decoding_iff.1 ht.decoding).1, ht.pi_eq⟩

end Sys2Proof.Machine

/-! The compositor (spec/41_compositor.md): the disposal of the last frame, PLACE with the interlaced row order, and
COMMIT. -/

namespace Sys2Proof.Machine

/-! ### The phases -/

theorem State.blockStep_dispose {s : State} (h : s.phase = .dispose) : s.blockStep = s.disposeStep := by
  rw [State.blockStep, h]

theorem State.blockStep_place {s : State} (h : s.phase = .place) : s.blockStep = .next s.placeStep := by
  rw [State.blockStep, h]

theorem State.blockStep_commit {s : State} (h : s.phase = .commit) : s.blockStep = .next s.commitStep := by
  rw [State.blockStep, h]

/-- A FRAME that is placed is committed by the next step. -/
theorem State.blockRun_place {s : State} (h : s.phase = .place) : blockRun 2 s = .next s.placeStep.commitStep := by
  rw [blockRun, State.blockStep_place h]
  show blockRun 1 s.placeStep = _
  rw [blockRun, State.blockStep_commit s.placeStep_phase]
  rfl

/-! ### The interlaced row order (R158) -/

/-- The pass that visits a row. -/
def interlacePass (r : Nat) : Nat :=
  if r % 8 = 0 then 1 else if r % 8 = 4 then 2 else if r % 4 = 2 then 3 else 4

/-- ILORDER as the rows of pass 1, 2, 3 and 4, one pass after the other. -/
theorem ilorder_eq_flatMap (h : Nat) :
    ilorder h = [1, 2, 3, 4].flatMap fun n => (List.range h).filter fun r => interlacePass r = n := by
  have pass_iff (r : Nat) : (r % 8 = 0 ↔ interlacePass r = 1) ∧ (r % 8 = 4 ↔ interlacePass r = 2) ∧
      (r % 4 = 2 ↔ interlacePass r = 3) ∧ (r % 2 = 1 ↔ interlacePass r = 4) := by
    unfold interlacePass
    split_ifs <;> omega
  simp [ilorder, beq_eq_decide, pass_iff]

/-- The rows come pass by pass, and rise within a pass. -/
theorem ilorder_pairwise (h : Nat) : (ilorder h).Pairwise fun q r =>
    interlacePass q < interlacePass r ∨ (interlacePass q = interlacePass r ∧ q < r) := by
  rw [ilorder_eq_flatMap, List.pairwise_flatMap]
  constructor
  · intro n _
    refine (List.pairwise_lt_range.filter _).imp_of_mem fun hq hr hlt => .inr ⟨?_, hlt⟩
    rw [of_decide_eq_true (List.mem_filter.1 hq).2, of_decide_eq_true (List.mem_filter.1 hr).2]
  · have rising : [1, 2, 3, 4].Pairwise (· < ·) := by decide
    refine rising.imp fun hlt q hq r hr => .inl ?_
    rwa [of_decide_eq_true (List.mem_filter.1 hq).2, of_decide_eq_true (List.mem_filter.1 hr).2]

theorem State.rowOrder_interlaced {s : State} (h : s.frameCtrl.interlace = true) :
    s.rowOrder = ilorder s.frameSize.y.toNat := by
  rw [State.rowOrder, if_pos h]

theorem State.rowOrder_plain {s : State} (h : s.frameCtrl.interlace = false) :
    s.rowOrder = List.range s.frameSize.y.toNat := by
  rw [State.rowOrder, h]
  rfl

/-- Settles O32: the order is the rows of the four passes, each taken from the rising range. -/
theorem interlaceOrderVisitsEveryRowOnce : Obligations.InterlaceOrderVisitsEveryRowOnce := by
  refine ⟨fun h => ⟨ilorder_perm h, ilorder_pairwise h⟩, fun s k hk => ⟨fun hi => ?_, fun hi => ?_⟩⟩
  · rw [State.rowOrder_interlaced hi]
  · rw [State.rowOrder_plain hi, List.getElem?_range hk]

/-! ### PLACE (R157, R159, R160) -/

/-- Every entry of a canvas buffer is a pixel (10_state.md R49). -/
theorem State.exists_pixel {s : State} {i : Nat} (hi : i < s.canvasLen) :
    ∃ x y, x < s.activeSize.x.toNat ∧ y < s.activeSize.y.toNat ∧ y * s.activeSize.x.toNat + x = i := by
  rw [State.canvasLen] at hi
  have hw : 0 < s.activeSize.x.toNat := Nat.pos_of_mul_pos_right (Nat.zero_lt_of_lt hi)
  exact ⟨i % s.activeSize.x.toNat, i / s.activeSize.x.toNat, Nat.mod_lt _ hw, Nat.div_lt_of_lt_mul hi,
    Nat.div_add_mod' _ _⟩

/-- The pixel (x, y) of the canvas lies in the rectangle of the frame (R153). -/
def State.inRect (s : State) (x y : Nat) : Prop :=
  s.framePos.x.toNat ≤ x ∧ x < s.framePos.x.toNat + s.frameSize.x.toNat ∧
    s.framePos.y.toNat ≤ y ∧ y < s.framePos.y.toNat + s.frameSize.y.toNat

/-- A pixel of the row of the frame that decoded row `k` belongs to. -/
theorem State.readMem_placeStep_row {s : State} (hw : memWf s.scr) {k r x : Nat} (hk : s.rowOrder[k]? = some r)
    (hy : s.framePos.y.toNat + r < s.activeSize.y.toNat) (h1 : s.framePos.x.toNat ≤ x)
    (h2 : x < s.framePos.x.toNat + s.frameSize.x.toNat) (hx : x < s.activeSize.x.toNat) :
    readMem s.placeStep.scr ((s.framePos.y.toNat + r) * s.activeSize.x.toNat + x) =
      if s.colorAt k x = 0 then readMem s.scr ((s.framePos.y.toNat + r) * s.activeSize.x.toNat + x)
      else s.colorAt k x := by
  rw [State.placeStep_scr, s.readMem_placeRows_hit _ 0 hw hx s.rowOrder_nodup hk hy h1 h2, Nat.zero_add]

theorem State.readMem_placeStep_outside_rect {s : State} (hw : memWf s.scr) {x y : Nat}
    (hx : x < s.activeSize.x.toNat) (hin : ¬s.inRect x y) :
    readMem s.placeStep.scr (y * s.activeSize.x.toNat + x) = readMem s.scr (y * s.activeSize.x.toNat + x) := by
  refine s.readMem_placeRows_miss _ 0 hw y hx ?_
  by_cases hcol : s.framePos.x.toNat ≤ x ∧ x < s.framePos.x.toNat + s.frameSize.x.toNat
  · refine .inl fun r hr e => hin ⟨hcol.1, hcol.2, ?_⟩
    have := (s.mem_rowOrder r).1 hr
    omega
  · exact .inr hcol

theorem State.readMem_placeStep_outside_canvas {s : State} (hw : memWf s.scr) {i : Nat} (hi : s.canvasLen ≤ i) :
    readMem s.placeStep.scr i = readMem s.scr i :=
  s.readMem_placeRows_outside _ 0 hw hi

theorem State.placeStep_scr_wf {s : State} (hw : memWf s.scr) : memWf s.placeStep.scr :=
  s.placeRows_wf _ 0 hw

theorem State.translate_eq (s : State) (idx : Byte) : s.translate idx =
    if s.frameCtrl.transp = true ∧ idx = s.frameCtrl.tidx then 0
    else readMem (if s.frameCtrl.lctPresent then s.lct else s.gct) idx.toNat := by
  simp [State.translate, State.activeTable]

/-- Settles O33: the pixels of a frame row that lies on the canvas, the other pixels of the canvas, and the entries
past the canvas. -/
theorem placeDrawsTheFrame : Obligations.PlaceDrawsTheFrame := by
  intro s hp hw order color
  refine ⟨s.placeStep, State.blockStep_place hp, fun k r x hk hy h1 h2 hx => ?_, fun x y hx hy hout => ?_,
    fun i hi => State.readMem_placeStep_outside_canvas hw hi, rfl⟩
  · have hc : s.colorAt k x = color (readMem s.ibuf (k * s.frameSize.x.toNat + (x - s.framePos.x.toNat))) :=
      s.translate_eq _
    exact hc ▸ State.readMem_placeStep_row hw hk hy h1 h2 hx
  · refine State.readMem_placeStep_outside_rect hw hx fun hin => ?_
    obtain ⟨h1, h2, h3, h4⟩ := hin
    omega

/-! ### Interlace equivalence (R164) -/

/-- The same frame without interlace, its decoded rows being `rows`. -/
def State.asPlain (rows : Mem 8) (s : State) : State :=
  { s with ibuf := rows, frameCtrl := { s.frameCtrl with interlace := false } }

/-- Each row of the interlaced frame stands in `rows` at its own row of the frame. -/
def State.reordersTo (s : State) (rows : Mem 8) : Prop :=
  ∀ k r, (ilorder s.frameSize.y.toNat)[k]? = some r → ∀ j < s.frameSize.x.toNat,
    readMem rows (r * s.frameSize.x.toNat + j) = readMem s.ibuf (k * s.frameSize.x.toNat + j)

theorem State.colorAt_asPlain {s : State} {rows : Mem 8} (h : s.reordersTo rows) {k r x : Nat}
    (hk : (ilorder s.frameSize.y.toNat)[k]? = some r) (h1 : s.framePos.x.toNat ≤ x)
    (h2 : x < s.framePos.x.toNat + s.frameSize.x.toNat) : (s.asPlain rows).colorAt r x = s.colorAt k x := by
  have hj : x - s.framePos.x.toNat < s.frameSize.x.toNat := by omega
  exact congrArg s.translate (h k r hk _ hj)

/-- PLACE depends on a row's data only through its destination row. -/
theorem State.placeStep_asPlain {s : State} (hi : s.frameCtrl.interlace = true) (hw : memWf s.scr) {rows : Mem 8}
    (h : s.reordersTo rows) : (s.asPlain rows).placeStep.scr = s.placeStep.scr := by
  have hw' : memWf (s.asPlain rows).scr := hw
  refine memWf_ext (State.placeStep_scr_wf hw') (State.placeStep_scr_wf hw) fun i => ?_
  by_cases hlen : i < s.canvasLen
  · obtain ⟨x, y, hx, hy, rfl⟩ := State.exists_pixel hlen
    by_cases hin : s.inRect x y
    · obtain ⟨h1, h2, h3, h4⟩ := hin
      obtain ⟨r, rfl⟩ := Nat.exists_eq_add_of_le h3
      have hr : r < s.frameSize.y.toNat := by omega
      obtain ⟨k, hk⟩ := List.mem_iff_getElem?.1 (mem_ilorder.2 hr)
      have hplain : (s.asPlain rows).rowOrder[r]? = some r := by
        rw [State.rowOrder_plain rfl]
        exact List.getElem?_range hr
      calc readMem (s.asPlain rows).placeStep.scr ((s.framePos.y.toNat + r) * s.activeSize.x.toNat + x)
        _ = if (s.asPlain rows).colorAt r x = 0
            then readMem s.scr ((s.framePos.y.toNat + r) * s.activeSize.x.toNat + x)
            else (s.asPlain rows).colorAt r x := State.readMem_placeStep_row hw' hplain hy h1 h2 hx
        _ = readMem s.placeStep.scr ((s.framePos.y.toNat + r) * s.activeSize.x.toNat + x) := by
            rw [State.colorAt_asPlain h hk h1 h2,
              State.readMem_placeStep_row hw (by rwa [State.rowOrder_interlaced hi]) hy h1 h2 hx]
    · exact (State.readMem_placeStep_outside_rect hw' hx hin).trans
        (State.readMem_placeStep_outside_rect hw hx hin).symm
  · have hlen : s.canvasLen ≤ i := Nat.le_of_not_lt hlen
    exact (State.readMem_placeStep_outside_canvas hw' hlen).trans
      (State.readMem_placeStep_outside_canvas hw hlen).symm

/-- Settles O34: the two frames place the same SCR, and COMMIT copies that. -/
theorem interlacedFrameEqualsItsReordering : Obligations.InterlacedFrameEqualsItsReordering := by
  intro s rows hp hi hw h
  have hscr : (s.asPlain rows).placeStep.scr = s.placeStep.scr := State.placeStep_asPlain hi hw h
  refine ⟨_, (s.asPlain rows).placeStep.commitStep, State.blockRun_place hp, State.blockRun_place hp, hscr, ?_, rfl⟩
  rw [State.commitStep_cur, State.commitStep_cur, hscr]
  rfl

/-! ### COMMIT (R161, R162) -/

/-- Settles O35: PREV takes CUR as it was, CUR takes SCR, each by one `copyBelow`. -/
theorem commitSavesAndLatches : Obligations.CommitSavesAndLatches := by
  intro s hp
  refine ⟨s.commitStep, State.blockStep_commit hp, fun i hi => ?_, fun i hi => ?_,
    BitVec.toNat_add s.frameCount 1, rfl⟩
  · rw [State.commitStep_prev, State.commitStep_cur, readMem_copyBelow, readMem_copyBelow, if_pos hi, if_pos hi]
    exact ⟨rfl, rfl⟩
  · have hi : ¬i < s.canvasLen := Nat.not_lt.2 hi
    rw [State.commitStep_prev, State.commitStep_cur, readMem_copyBelow, readMem_copyBelow, if_neg hi, if_neg hi]
    exact ⟨rfl, rfl⟩

/-! ### Disposal (R150 to R155) -/

/-- The methods that copy a canvas, each with the one it copies. -/
def copyingMethods (s : State) (m : BitVec 3) : List (Instr × Mem 32) :=
  [(.disposeUnspecified, s.cur), (.disposeNone, s.cur), (.disposeReserved m, s.cur), (.disposePrevious, s.prev)]

theorem exec_of_mem_copyingMethods {s : State} {m : BitVec 3} {p : Instr × Mem 32} (h : p ∈ copyingMethods s m) :
    exec p.1 s = .next { s with scr := copyBelow s.canvasLen p.2 s.scr } := by
  simp only [copyingMethods, List.mem_cons, List.not_mem_nil, or_false] at h
  rcases h with rfl | rfl | rfl | rfl <;> rfl

/-- Settles O22: each of the methods is one `copyBelow`. -/
theorem disposeCopiesACanvas : Obligations.DisposeCopiesACanvas := by
  intro s m p hmem
  refine ⟨_, exec_of_mem_copyingMethods hmem, fun k hk => ?_, fun k hk => ?_, rfl⟩
  · exact (readMem_copyBelow _ _ _ k).trans (if_pos hk)
  · exact (readMem_copyBelow _ _ _ k).trans (if_neg (Nat.not_lt.2 hk))

theorem exec_disposeBackground (s : State) :
    exec .disposeBackground s = .next (s.copyCurToScr.fillLast s.fillColor) := rfl

/-- A pixel of the canvas after the last frame's rectangle is filled. -/
theorem State.readMem_fillLast {s : State} (hw : memWf s.scr) (v : Word) {x y : Nat} (hx : x < s.activeSize.x.toNat)
    (hy : y < s.activeSize.y.toNat) : readMem (s.fillLast v).scr (y * s.activeSize.x.toNat + x) =
      if s.lastPos.x.toNat ≤ x ∧ x < s.lastPos.x.toNat + s.lastSize.x.toNat ∧
          s.lastPos.y.toNat ≤ y ∧ y < s.lastPos.y.toNat + s.lastSize.y.toNat
      then v else readMem s.scr (y * s.activeSize.x.toNat + x) :=
  (readMem_fillRect _ v _ hw y hx (clip_le _ _ _)).trans (if_congr (by omega) rfl rfl)

theorem State.readMem_fillLast_outside_canvas {s : State} (hw : memWf s.scr) (v : Word) {i : Nat}
    (hi : s.canvasLen ≤ i) : readMem (s.fillLast v).scr i = readMem s.scr i :=
  readMem_fillRect_outside v _ hw (clip_le _ _ _) (clip_le _ _ _) hi

/-- Settles O23: the filled rectangle over the copied canvas. -/
theorem disposeBackgroundFillsTheRectangle : Obligations.DisposeBackgroundFillsTheRectangle := by
  intro s hcur hscr
  have hw : memWf s.copyCurToScr.scr := copyBelow_wf _ hcur hscr
  refine ⟨_, exec_disposeBackground s, fun x y hx hy => ?_, fun k hk => ?_, rfl⟩
  · have hcopy : readMem s.copyCurToScr.scr (y * s.activeSize.x.toNat + x) =
        readMem s.cur (y * s.activeSize.x.toNat + x) := by
      rw [State.copyCurToScr_scr, readMem_copyBelow, if_pos (s.pixel_lt_canvasLen hx hy)]
    rw [← hcopy]
    exact State.readMem_fillLast hw s.fillColor hx hy
  · rw [State.readMem_fillLast_outside_canvas hw _ hk, State.copyCurToScr_scr, readMem_copyBelow,
      if_neg (Nat.not_lt.2 hk)]

/-- The values of LDISPOSE (30_encoding.md R86), each with its method. -/
def disposalMethods : List (BitVec 3 × Instr) :=
  [(0#3, .disposeUnspecified), (1#3, .disposeNone), (2#3, .disposeBackground), (3#3, .disposePrevious),
    (4#3, .disposeReserved 4), (5#3, .disposeReserved 5), (6#3, .disposeReserved 6), (7#3, .disposeReserved 7)]

theorem decodeMethod_of_mem_disposalMethods : ∀ p ∈ disposalMethods, decodeMethod p.1 = p.2 := by decide

/-- No disposal method stops. -/
theorem exists_exec_decodeMethod (m : BitVec 3) (s : State) : ∃ t, exec (decodeMethod m) s = .next t := by
  unfold decodeMethod
  split <;> exact ⟨_, rfl⟩

theorem State.disposeStep_last {s t : State} (hv : s.lastValid = true)
    (h : exec (decodeMethod s.lastDispose) s = .next t) : s.disposeStep = .next t.toDecode := by
  rw [State.disposeStep, if_pos hv, h, andThen]

theorem State.disposeStep_no_last {s : State} (hv : s.lastValid = false) : s.disposeStep = .next s.toDecode := by
  rw [State.disposeStep, hv]
  rfl

/-- The block's turn in DISPOSE. -/
theorem step_dispose {s : State} (hturn : s.nextAgent = .block) (hp : s.phase = .dispose) :
    step s = s.takeTurn.disposeStep := by
  rw [step, hturn]
  exact State.blockStep_dispose hp

/-- Settles O49: the method is the decoded LDISPOSE, and none of the methods stops. -/
theorem stepRunsTheDisposalMethod : Obligations.StepRunsTheDisposalMethod := by
  intro s hturn hp u
  rw [step_dispose hturn hp]
  refine ⟨fun hv p hmem hd => ?_, fun hv => State.disposeStep_no_last hv⟩
  have hm : decodeMethod s.lastDispose = p.2 := hd ▸ decodeMethod_of_mem_disposalMethods p hmem
  obtain ⟨t, ht⟩ := exists_exec_decodeMethod s.lastDispose u
  exact ⟨t, hm ▸ ht, State.disposeStep_last hv ht⟩

end Sys2Proof.Machine

/-! The host commands (spec/42_commands.md): the write to CTRL, RESET, and the CHECK and INIT phases of the commands it
starts. -/

namespace Sys2Proof.Machine

/-! ### The write to CTRL (R180, R181, R182) -/

theorem exec_nop_idle {s : State} (h : s.busy = false) : exec .nop s = .next s := by
  simp [exec, execNop, h]

theorem exec_nop_busy {s : State} (h : s.busy = true) : exec .nop s = .next s.setBwerr := by
  simp [exec, execNop, h]

/-- Settles O13: NOP by BUSY. -/
theorem nopChangesNothing : Obligations.NopChangesNothing :=
  fun _ => ⟨exec_nop_idle, exec_nop_busy⟩

theorem ctrlCommand_eq_iff (v : Word) (cmd : BitVec 4) : v.extractLsb' 0 4 = cmd ↔ v.toNat % 16 = cmd.toNat := by
  rw [toNat_mod_sixteen, BitVec.toNat_inj]

theorem State.hostWrite_ctrl_reset (s : State) {v : Word} (hv : v.extractLsb' 0 4 = 1) :
    s.hostWrite s.par.base v = exec .reset s := by
  rw [State.hostWrite_ctrl, decodeCtrl_reset ((ctrlCommand_eq_iff v 1).1 hv)]

theorem State.hostWrite_ctrl_nop (s : State) {v : Word} (hv : v.extractLsb' 0 4 = 0) :
    s.hostWrite s.par.base v = exec .nop s := by
  rw [State.hostWrite_ctrl, decodeCtrl_nop ((ctrlCommand_eq_iff v 0).1 hv)]

/-- An idle block accepts every command but NOP and RESET (R180, case 4). -/
theorem State.hostWrite_ctrl_idle {s : State} (h : s.busy = false) {v : Word} (h0 : v.extractLsb' 0 4 ≠ 0)
    (h1 : v.extractLsb' 0 4 ≠ 1) :
    s.hostWrite s.par.base v = .next (s.accept (v.extractLsb' 0 4) (v.getLsbD 4)) := by
  refine State.hostWrite_ctrl_cases (P := fun r => r = .next (s.accept (v.extractLsb' 0 4) (v.getLsbD 4)))
    (fun hv => absurd ((ctrlCommand_eq_iff v 1).2 hv) h1) (fun hv => absurd ((ctrlCommand_eq_iff v 0).2 hv) h0)
    (fun _ _ => ?_)
  rw [State.request_idle h]

/-- No step of the block writes the two latches of R180. -/
theorem BlockOutcome.latches {s t : State} (h : BlockOutcome s t) : t.cmdl = s.cmdl ∧ t.drainl = s.drainl := by
  cases h with
  | code _ _ _ i _ t ho =>
    obtain ⟨-, ⟨-, hcmd, hdrain, -⟩, -⟩ := ho.frame
    exact ⟨hcmd, hdrain⟩
  | _ => exact ⟨rfl, rfl⟩

/-- Settles O16: a case of R180 is the lemma of its write. -/
theorem ctrlWriteFollowsItsCases : Obligations.CtrlWriteFollowsItsCases := by
  intro s v cmd
  refine ⟨fun h1 => s.hostWrite_ctrl_reset h1, fun h1 hb => State.hostWrite_ctrl_busy hb h1, fun h0 hb => ?_,
    fun h0 h1 hb => State.hostWrite_ctrl_idle hb h0 h1, fun t ht => (State.blockStep_outcome ht).latches⟩
  rw [s.hostWrite_ctrl_nop h0, exec_nop_idle hb]

/-- Settles O47: the host's turn is its next operation, and BASE is the address of CTRL. -/
theorem stepRunsTheCtrlWord : Obligations.StepRunsTheCtrlWord := by
  intro s v ops hturn hq
  rw [step, hturn]
  show s.takeTurn.hostStep = _
  rw [State.hostStep, State.takeTurn_queue, hq]
  exact (s.takeTurn.setQueue ops).hostWrite_ctrl v

/-! ### RESET (R182, 70_reset_and_hazards.md R230) -/

/-- RESET keeps the parameters, and of these only NPIX_MAX bounds a read, of an IBUF that is then empty. -/
theorem State.loadWord_afterReset (s : State) (w : PortWord) : s.afterReset.loadWord w = State.reset.loadWord w := by
  cases w with
  | ibufData => exact ite_self _
  | _ => rfl

/-- At power-on every word of the port but STATUS and ID reads 0. -/
theorem State.loadWord_reset (w : PortWord) :
    State.reset.loadWord w = if w = .status then 0x000000F0#32 else if w = .id then 0x4C5A5701#32 else 0#32 := by
  cases w with
  | gct | lct => rfl
  | _ => decide

/-- Settles O14: what RESET leaves does not depend on the state it finds, and power-on leaves the same. -/
theorem resetAppliesTheResetState : Obligations.ResetAppliesTheResetState := by
  unfold Obligations.ResetAppliesTheResetState
  intro atReset
  have h (s : State) : atReset s.afterReset :=
    ⟨rfl, rfl, rfl, fun w => (s.loadWord_afterReset w).trans (State.loadWord_reset w), rfl,
      fun _ => ⟨rfl, rfl, rfl, rfl, rfl, rfl⟩, rfl⟩
  exact ⟨fun s => ⟨s.afterReset, rfl, h s, rfl, rfl⟩, h State.reset⟩

/-! ### CHECK (R183, R184, R186, R187) -/

theorem State.blockStep_check {s : State} (h : s.phase = .check) : s.blockStep = .next s.checkStep := by
  rw [State.blockStep, h]

/-- An error at CHECK completes the command with ERR (60_exceptions.md R200, R204). -/
theorem State.raiseError_eq (s : State) {code : Ecode} (h : code ≠ .none) : s.raiseError code =
    { s with status := { s.status with done := true, err := true, ecode := code }, phase := .idle } := by
  have he : (code != .none) = true := bne_iff_ne.2 h
  simp only [State.raiseError, State.complete, he]

theorem State.checkStep_canvasInit {s : State} (h : s.cmdl = 2) : s.checkStep = s.checkCanvasInit := by
  simp [State.checkStep, h]

theorem State.checkStep_decode {s : State} (h : s.cmdl = 3) : s.checkStep = s.checkDecode := by
  simp [State.checkStep, h]

theorem State.checkStep_frame {s : State} (h : s.cmdl = 4) : s.checkStep = s.checkFrame := by
  simp [State.checkStep, h]

theorem State.checkStep_reserved {s : State} (h : 5 ≤ s.cmdl.toNat) : s.checkStep = s.raiseError .badCommand := by
  have hne (c : BitVec 4) (hc : c.toNat < 5) : s.cmdl ≠ c := by
    rintro rfl
    omega
  rw [State.checkStep, if_neg (hne 2 (by decide)), if_neg (hne 3 (by decide)), if_neg (hne 4 (by decide))]

/-- The reserved commands among the requests (R187). -/
theorem five_le_of_mem_requests : ∀ drain, ∀ p ∈ (requests drain).drop 3, 5 ≤ p.2.toNat := by decide

/-- Of an idle block STATUS reads the stored fields alone. -/
theorem State.statusWord_idle {s : State} (h : s.phase = .idle) :
    s.statusWord = { State.reset with status := s.status }.statusWord := by
  rw [State.statusWord, State.busy, h]
  rfl

/-- Settles O17: the request is accepted, and its CHECK raises BAD_COMMAND. -/
theorem reservedCommandCompletesBadCommand : Obligations.ReservedCommandCompletesBadCommand := by
  intro s drain hb p hp
  have hexec : exec p.1 s = .next (s.accept p.2 drain) := by
    rw [exec_of_mem_requests (List.mem_of_mem_drop (i := 3) hp) s, State.request_idle hb]
  have hstep : (s.accept p.2 drain).blockStep = .next ((s.accept p.2 drain).raiseError .badCommand) := by
    rw [State.blockStep_check rfl, State.checkStep_reserved (five_le_of_mem_requests drain p hp)]
  have hraise := (s.accept p.2 drain).raiseError_eq (code := .badCommand) (by decide)
  refine ⟨_, _, hexec, hstep, hraise, fun hv hw => ?_⟩
  have hstatus : ((s.accept p.2 drain).raiseError .badCommand).status =
      ⟨true, true, false, .none, .badCommand, false, false⟩ := by
    rw [hraise]
    simp only [State.accept_status, hv, hw]
  rw [State.statusWord_idle rfl, hstatus]
  decide

/-- Settles O19: the test of CHECK fails. -/
theorem canvasInitRefusesBadSize : Obligations.CanvasInitRefusesBadSize := by
  intro s hp hc hbad
  have htest : s.canvasSize.x.toNat < 1 ∨ s.par.maxW < s.canvasSize.x.toNat ∨ s.canvasSize.y.toNat < 1 ∨
      s.par.maxH < s.canvasSize.y.toNat := by
    simpa [BitVec.toNat_eq] using hbad
  rw [State.blockStep_check hp, State.checkStep_canvasInit hc, State.checkCanvasInit, if_pos htest,
    s.raiseError_eq (by decide)]

/-- Settles O21: by the capacity test. -/
theorem decodeCheckTestsCapacity : Obligations.DecodeCheckTestsCapacity := by
  intro s hp hc
  rw [State.blockStep_check hp, State.checkStep_decode hc, State.checkDecode]
  constructor
  · intro (hlarge : s.par.npixMax < s.framePixels)
    rw [if_pos hlarge, s.raiseError_eq (by decide)]
  · intro (hfits : s.framePixels ≤ s.par.npixMax)
    rw [if_neg (Nat.not_lt.2 hfits)]
    exact ⟨_, rfl, s.setNpix_npix, rfl⟩

/-- Settles O20: by the tests of CHECK, in their order. -/
theorem frameCheckRaisesTheFirstError : Obligations.FrameCheckRaisesTheFirstError := by
  intro s hp hc raised noTable tooLarge
  have hraise {c : Ecode} (h : c ≠ .none) : s.raiseError c = raised c := s.raiseError_eq h
  have htable : (!s.frameCtrl.lctPresent && !s.gctPresent) = true ↔ noTable := by simp [noTable]
  rw [State.blockStep_check hp, State.checkStep_frame hc, State.checkFrame]
  refine ⟨fun hv => ?_, fun hv ht => ?_, fun hv ht (hl : s.par.npixMax < s.framePixels) => ?_,
    fun hv ht (hl : ¬ s.par.npixMax < s.framePixels) => ?_⟩
  · rw [if_pos (by simp [hv]), hraise (by decide)]
  · rw [if_neg (by simp [hv]), if_pos (htable.2 ht), hraise (by decide)]
  · rw [if_neg (by simp [hv]), if_neg (mt htable.1 ht), if_pos hl, hraise (by decide)]
  · rw [if_neg (by simp [hv]), if_neg (mt htable.1 ht), if_neg hl]
    exact ⟨_, rfl, s.setNpix_npix, rfl⟩

/-! ### CANVAS_INIT with a legal size (R183) -/

theorem State.blockStep_init {s : State} (h : s.phase = .init) : s.blockStep = .next s.initStep := by
  rw [State.blockStep, h]

/-- CHECK passes a legal size, and INIT is the next step. -/
theorem State.blockRun_canvasInit {s : State} (hp : s.phase = .check) (hc : s.cmdl = 2)
    (hx : 1 ≤ s.canvasSize.x.toNat) (hxW : s.canvasSize.x.toNat ≤ s.par.maxW)
    (hy : 1 ≤ s.canvasSize.y.toNat) (hyH : s.canvasSize.y.toNat ≤ s.par.maxH) :
    blockRun 2 s = .next (s.toPhase .init).initStep := by
  have hcheck : s.checkStep = s.toPhase .init := by
    rw [State.checkStep_canvasInit hc, State.checkCanvasInit, if_neg (by omega)]
  rw [blockRun, State.blockStep_check hp, hcheck]
  show blockRun 1 (s.toPhase .init) = _
  rw [blockRun, State.blockStep_init (s.toPhase_phase .init)]
  rfl

/-- Settles O18: the request is accepted, and CHECK and INIT are the two steps. -/
theorem canvasInitZeroesTheCanvases : Obligations.CanvasInitZeroesTheCanvases := by
  intro s drain hb hx hxW hy hyH
  have hexec : exec (.canvasInit drain) s = .next (s.accept 2 drain) :=
    congrArg Host.Outcome.next (State.request_idle hb 2 drain)
  refine ⟨_, _, hexec, State.blockRun_canvasInit rfl rfl hx hxW hy hyH, rfl, rfl, fun _ => ⟨rfl, rfl, rfl⟩, rfl, rfl,
    rfl, rfl, rfl, rfl, rfl, rfl, rfl, rfl, ?_⟩
  simp [State.sameConfig, State.sameStreamMems, State.sameDict, sameMem]

/-! ### PHASE is a phase of the latched command (R183 to R187) -/

theorem State.phaseOfCommand_of_idle {s : State} (h : s.phase = .idle) : s.phaseOfCommand := by
  rw [State.phaseOfCommand, h]
  trivial

/-- DECODE, ZEROFILL and DRAIN are the stream phases of DECODE and of FRAME. -/
theorem State.phaseOfCommand_stream {s : State} (h : s.phase = .decode ∨ s.phase = .zerofill ∨ s.phase = .drain) :
    s.phaseOfCommand ↔ s.cmdl = 3 ∨ s.cmdl = 4 := by
  rcases h with h | h | h <;> rw [State.phaseOfCommand, h] <;> rfl

/-- DISPOSE, PLACE and COMMIT are phases of FRAME alone. -/
theorem State.phaseOfCommand_frame {s : State} (h : s.phase = .dispose ∨ s.phase = .place ∨ s.phase = .commit) :
    s.phaseOfCommand ↔ s.cmdl = 4 := by
  rcases h with h | h | h <;> rw [State.phaseOfCommand, h] <;> rfl

/-- A step of the block keeps PHASE a phase of the command: it completes, goes on to a phase of the command it found,
or stays. -/
theorem BlockOutcome.phaseOfCommand {s t : State} (hs : s.phaseOfCommand) (h : BlockOutcome s t) :
    t.phaseOfCommand := by
  cases h with
  | same => exact hs
  | raise | init | zerofillComplete | drainComplete | truncatedComplete | commit =>
    exact State.phaseOfCommand_of_idle (by simp)
  | checkInit _ hc => exact hc
  | checkDecode _ hc => exact .inl hc
  | checkFrame _ hc | zerofillPlace _ hc | drainPlace _ _ _ hc | truncatedPlace _ hc => exact hc
  | disposeNothing hp | disposeKeep hp | disposeFill hp | disposeRestore hp =>
    exact .inr ((State.phaseOfCommand_frame (.inl hp)).1 hs)
  | place hp => exact (State.phaseOfCommand_frame (.inr (.inl hp))).1 hs
  | startTruncated hp | startBadMcs hp => exact (State.phaseOfCommand_stream (.inl hp)).1 hs
  | start hp => exact (State.phaseOfCommand_stream (by simp [hp])).2 ((State.phaseOfCommand_stream (.inl hp)).1 hs)
  | zerofillDrain hp => exact (State.phaseOfCommand_stream (.inr (.inl hp))).1 hs
  | drainRest hp | drainCount hp =>
    exact (State.phaseOfCommand_stream (by simp [hp])).2 ((State.phaseOfCommand_stream (.inr (.inr hp))).1 hs)
  | stopCount hd | loadTruncated hd | loadEnd hd =>
    exact (State.phaseOfCommand_stream (.inl (s.decoding_iff.1 hd).1)).1 hs
  | pop hd | loadLength hd | loadData hd =>
    have hp := (s.decoding_iff.1 hd).1
    exact (State.phaseOfCommand_stream (by simp [hp])).2 ((State.phaseOfCommand_stream (.inl hp)).1 hs)
  | code hd _ _ i _ t ho =>
    have hp := (s.decoding_iff.1 hd).1
    obtain ⟨-, ⟨-, hcmd, -⟩, -⟩ := ho.frame
    have ht : t.phase = .decode ∨ t.phase = .zerofill ∨ t.phase = .drain := by
      rcases ho.phase_eq_or_zerofill with h | h <;> simp [h, hp]
    rw [State.phaseOfCommand_stream ht, hcmd]
    exact (State.phaseOfCommand_stream (.inl hp)).1 hs

/-- An operation of the host keeps PHASE a phase of the command: RESET leaves IDLE, and a start latches a command that
has a CHECK. -/
theorem HostOutcome.phaseOfCommand {s t : State} (hs : s.phaseOfCommand) (h : HostOutcome s t) : t.phaseOfCommand := by
  cases h with
  | quiet _ h =>
    rw [State.phaseOfCommand, h.phase, h.cmdl]
    exact hs
  | reset => exact State.phaseOfCommand_of_idle rfl
  | accept _ _ _ _ hc => exact hc

/-- Settles O57: each outcome of a step of the block and of an operation of the host keeps the pairing. -/
theorem stepKeepsPhaseOfCommand : Obligations.StepKeepsPhaseOfCommand := by
  intro s t hs h
  rcases step_outcome h with hb | hh
  · exact BlockOutcome.phaseOfCommand (s := s.takeTurn) hs hb
  · exact HostOutcome.phaseOfCommand (s := s.takeTurn) hs hh

end Sys2Proof.Machine

/-! Exceptions and the interrupt (spec/60_exceptions.md): the level of `irq` after each host write that changes DONE or
its enable. -/

namespace Sys2Proof.Machine

/-! ### The interrupt output (R210) -/

theorem State.irq_storeWord_irqen (s : State) (v : Word) :
    (s.storeWord .irqen v).irq = (s.status.done && v.getLsbD 0) := rfl

/-- A 1 written to DONE takes the level down; the other bits of the word do not reach it. -/
theorem State.irq_w1cStatus (s : State) (v : Word) : (s.w1cStatus v).irq = (s.irq && !v.getLsbD 1) :=
  Bool.and_right_comm s.status.done (!v.getLsbD 1) s.doneIe

/-- The start of a command clears DONE (10_state.md R26). -/
theorem State.irq_accept (cmd : BitVec 4) (drain : Bool) (s : State) : (s.accept cmd drain).irq = false := by
  rw [State.irq, State.accept_status, Bool.false_and]

theorem State.irq_afterReset (s : State) : s.afterReset.irq = false := rfl

/-- An idle block accepts a command above RESET (42_commands.md R180, case 4). -/
theorem State.hostWrite_ctrl_starts {s : State} (h : s.busy = false) {v : Word} (hv : 2 ≤ v.toNat % 16) :
    s.hostWrite s.par.base v = .next (s.accept (v.extractLsb' 0 4) (v.getLsbD 4)) := by
  refine State.hostWrite_ctrl_idle h (fun h0 => ?_) (fun h1 => ?_)
  · rw [(ctrlCommand_eq_iff v 0).1 h0] at hv
    exact absurd hv (by decide)
  · rw [(ctrlCommand_eq_iff v 1).1 h1] at hv
    exact absurd hv (by decide)

/-- Settles O38: each of the writes leaves one state, whose level is the lemma of that state. -/
theorem irqFollowsDoneAndItsEnable : Obligations.IrqFollowsDoneAndItsEnable := by
  intro s
  obtain ⟨-, hdone, -⟩ := s.statusWord_flags
  refine ⟨rfl, fun _ => rfl, hdone, fun v hb => ?irqen, fun v => ?status, fun v hb hv => ?ctrl, ?reset⟩
  case irqen =>
    exact ⟨s.storeWord .irqen v, State.hostWrite_idle hb (a := 8) (by decide) (by decide) (by decide) v,
      s.irq_storeWord_irqen v⟩
  case status => exact ⟨s.w1cStatus v, s.hostWrite_status v, s.irq_w1cStatus v⟩
  case ctrl => exact ⟨_, State.hostWrite_ctrl_starts hb hv, State.irq_accept _ _ s⟩
  case reset => exact ⟨s.afterReset, rfl, s.irq_afterReset⟩

end Sys2Proof.Machine

/-! Power-on (spec/70_reset_and_hazards.md R230): the invariants at the start of a run. -/

namespace Sys2Proof.Machine

/-! ### The state after power-on (R230) -/

@[simp] theorem State.reset_phase : State.reset.phase = .idle := rfl

@[simp] theorem State.reset_canvasValid : State.reset.status.canvasValid = false := rfl

/-- Every memory is empty at power-on. -/
theorem State.reset_memsWf : State.reset.MemsWf :=
  ⟨memWf_nil, memWf_nil, memWf_nil, memWf_nil, memWf_nil, memWf_nil, memWf_nil, memWf_nil, memWf_nil⟩

/-- Every memory is empty at power-on, and NPIX is 0. -/
theorem State.reset_memsBelow : State.reset.MemsBelow :=
  ⟨memBelow_nil _, memBelow_nil _, memBelow_nil _, memBelow_nil _, memBelow_nil _, memBelow_nil _,
    memBelow_nil _, memBelow_nil _, memBelow_nil _, Nat.zero_le _⟩

/-- A canvas that is not valid is not compared with SCR (10_state.md R50). -/
theorem State.scratchIsCurrent_of_not_canvasValid {s : State} (h : s.status.canvasValid = false) :
    s.scratchIsCurrent := by
  intro hv
  rw [h] at hv
  cases hv

/-- Settles O60: the memories are empty, an IDLE block is asked for no range, link or command, and no canvas is valid. -/
theorem resetMeetsTheInvariants : Obligations.ResetMeetsTheInvariants := by
  have hidle : State.reset.phase ≠ .decode := by simp
  exact ⟨(State.memsCanonical_iff _).2 State.reset_memsWf,
    (State.memsInRange_iff _).2 State.reset_memsBelow,
    State.decoderInRange_of_phase hidle,
    State.phaseOfCommand_of_idle State.reset_phase,
    State.scratchIsCurrent_of_not_canvasValid State.reset_canvasValid,
    State.linksDescend_of_phase hidle⟩

end Sys2Proof.Machine

/-! Totality (spec/93_implementation_defined.md, section 1): every step of the block and every operation of the host
answers a next state. The one meaning that could stop is that of a class that adds an entry, in a state with no OLD; R90
selects such a class only beside an OLD. -/

namespace Sys2Proof.Machine

/-! ### The code classes (40_lzw.md R118 to R125) -/

theorem exists_settle (r : Except State State) : ∃ t, settle r = .next t := by
  cases r with
  | ok t => exact ⟨t, rfl⟩
  | error t => exact ⟨t, rfl⟩

theorem exists_exec_first (code : Code) (s : State) : ∃ t, exec (.first code) s = .next t := by
  simp only [exec, execFirst]
  split
  · exact ⟨_, rfl⟩
  · exact ⟨_, rfl⟩

theorem exists_exec_kwkwk {s : State} {old : Code} (hold : s.dec.old = some old) (code : Code) :
    ∃ t, exec (.kwkwk code) s = .next t := by
  simp only [exec, execKwkwk, hold]
  split
  · exact ⟨_, rfl⟩
  · exact exists_settle _

/-- R90 selects a class that adds an entry only beside an OLD, so the class it selects has an effect. -/
theorem exists_exec_classify {ctx : CodeCtx} {s : State} (hctx : ctx.old = s.dec.old) (c : Code) :
    ∃ t, exec (classify ctx c) s = .next t := by
  unfold classify
  split_ifs with hbad heoi hclear hnull hfull hnext hlit
  · exact ⟨_, rfl⟩
  · exact ⟨_, rfl⟩
  · exact ⟨_, rfl⟩
  · exact exists_exec_first c s
  · exact ⟨_, rfl⟩
  all_goals
    rw [hctx, Option.isNone_iff_eq_none] at hnull
    obtain ⟨old, hold⟩ := Option.ne_none_iff_exists'.1 hnull
  · exact exists_exec_kwkwk hold c
  · rw [exec_literal hold]
    exact exists_settle _
  · rw [exec_dict hold]
    exact exists_settle _

/-! ### The block (42_commands.md R188) -/

theorem State.exists_decodeStep (s : State) : ∃ t, s.decodeStep = .next t := by
  unfold State.decodeStep
  split
  · exact ⟨_, rfl⟩
  · cases s.selection with
    | stopCount => exact ⟨_, rfl⟩
    | pop => exact ⟨_, rfl⟩
    | load => exact ⟨_, rfl⟩
    | code => exact exists_exec_classify (ctx := s.codeCtx) (s := s.takeCode) rfl s.codeOperand

theorem State.exists_disposeStep (s : State) : ∃ t, s.disposeStep = .next t := by
  cases hv : s.lastValid with
  | false => exact ⟨_, State.disposeStep_no_last hv⟩
  | true =>
    obtain ⟨t, ht⟩ := exists_exec_decodeMethod s.lastDispose s
    exact ⟨_, State.disposeStep_last hv ht⟩

theorem State.exists_blockStep (s : State) : ∃ t, s.blockStep = .next t := by
  unfold State.blockStep
  cases s.phase with
  | decode => exact s.exists_decodeStep
  | dispose => exact s.exists_disposeStep
  | _ => exact ⟨_, rfl⟩

/-! ### The host (20_memory.md R62, R64) -/

/-- Every CTRL word has a meaning: the write to BASE runs the same instruction. -/
theorem exists_exec_decodeCtrl (v : Word) (s : State) : ∃ t, exec (decodeCtrl v) s = .next t := by
  rw [← s.hostWrite_ctrl v]
  exact State.hostWrite_ctrl_cases (P := fun r => ∃ t, r = .next t) (fun _ => ⟨_, rfl⟩) (fun _ => ⟨_, rfl⟩)
    (fun _ _ => ⟨_, rfl⟩)

theorem State.exists_hostWrite (addr : Nat) (v : Word) (s : State) : ∃ t, s.hostWrite addr v = .next t := by
  unfold State.hostWrite
  split
  · exact exists_exec_decodeCtrl v s
  · exact ⟨_, rfl⟩
  · exact ⟨_, rfl⟩

theorem State.exists_hostStep (s : State) : ∃ t, s.hostStep = .next t := by
  unfold State.hostStep
  cases s.env.queue with
  | nil => exact ⟨_, rfl⟩
  | cons op ops =>
    cases op with
    | write addr v => exact (s.setQueue ops).exists_hostWrite addr v
    | _ => exact ⟨_, rfl⟩

/-- Settles O50: whichever agent has the turn, its step answers. -/
theorem everyStepHasANextState : Obligations.EveryStepHasANextState := by
  intro s
  unfold step
  cases s.nextAgent with
  | host => exact s.takeTurn.exists_hostStep
  | block => exact s.takeTurn.exists_blockStep

end Sys2Proof.Machine
